-- ==== Sys2Proof/Word.lean ====
section
/-! DEFINITION. The word types of the block: bytes, ROM codes, host words (spec/00_scope.md rules R6, R9). -/

namespace Sys2Proof

/-- Eight bits: a byte on the channel, in the local store, in a host word. -/
abbrev Byte := BitVec 8

/-- A 64-bit ROM code; bit position `p` of rule R9 is bit `p` of the vector. -/
abbrev Rom := BitVec 64

/-- An 80-bit request or response word (spec/30_encoding.md rules R91, R92). -/
abbrev HostWord := BitVec 80

end Sys2Proof
end

