-- ==== Sys2Proof/Config.lean ====
section
/-! DEFINITION. What an implementation of the block fixes (spec/00_scope.md rule R5), and the free
values of an environment that no rule describes. -/

namespace Sys2Proof

/-- The two rates of the channel, opaque symbols that differ (00_scope.md R5, 92_eei_decisions.md D8).
`reset` is `BAUD_RESET`, `slot` is `BAUD_SLOT`. -/
inductive Baud where
  | reset
  | slot
  deriving DecidableEq, Repr

/-- The implementation parameters of 00_scope.md R5 that some rule reads. The state carries one of these
and no step changes it, so that every statement holds for all of them. -/
structure Config where
  /-- `MAX_DEVICES`: capacity of the device table -/
  maxDevices : Nat
  /-- `ONEWIRE_READ_TIMEOUT`: polls allowed for one awaited echo -/
  readTimeout : Nat
  /-- `RESET_BYTE`: sent at `BAUD_RESET` as the reset pulse -/
  resetByte : Byte
  /-- `PROBE_BYTE`: sent at `BAUD_SLOT` after the reset pulse -/
  probeByte : Byte
  /-- `ALARM_SEARCH_CMD`: the alarm-search ROM command byte -/
  alarmSearchCmd : Byte
  deriving DecidableEq, Repr

/-- The constraints on the parameters (00_scope.md R5, 93_implementation_defined.md U14). -/
def Config.wf (c : Config) : Bool :=
  decide (1 ≤ c.maxDevices) && decide (c.maxDevices ≤ 255) && decide (1 ≤ c.readTimeout) &&
    c.alarmSearchCmd != 0xF0 && c.alarmSearchCmd != 0xCC && c.alarmSearchCmd != 0x33 &&
    c.alarmSearchCmd != 0x55

/-- The defaults of 00_scope.md R5. DESIGN CHOICE (log 8): the spec gives `ONEWIRE_READ_TIMEOUT` no default;
4 stands here and no statement rests on it. -/
def Config.default : Config where
  maxDevices := 10
  readTimeout := 4
  resetByte := 0xF0
  probeByte := 0xFF
  alarmSearchCmd := 0xEC

/-- `FAMILY_A` (00_scope.md R5, 30_encoding.md R101): "opaque identifiers passed through"; no rule reads it. -/
def Config.familyA : Byte := 0x28

/-- `FAMILY_B` (00_scope.md R5, 30_encoding.md R101); no rule reads it. -/
def Config.familyB : Byte := 0x10

/-- The default of SimBus's `PULL` (20_memory.md R70). -/
def Config.pull : Byte := 0xFE

/-- FREE VALUE (log 4): what an environment no rule describes does at its `n`-th opportunity: deposit a byte,
or nothing (93_implementation_defined.md U1, U5, U6, U15: "any value"). It has no body; nothing can be proved of it. -/
opaque Config.freeDeposit : Nat → Option Byte

end Sys2Proof
end

