-- ==== Sys2Proof/Syntax.lean ====
section
/-! DEFINITION. The instructions: one constructor per row of spec/opcode_table.json, in the table's order. -/

namespace Sys2Proof

/-- One constructor per row of the opcode table. The first sixteen are the host commands of
30_encoding.md R93 and the unassigned codes of R96, each with the operands R95 says it uses; then the four
pseudo-instructions of R103; then the ROM command bytes of R98 (layer W) and the slot symbols of R100 (layer S),
which the block sends and does not decode. -/
inductive Instr where
  | reset
  | wrbit (bit : Bool)
  | rdbit
  | wrbyte (byte : Byte)
  | rdbyte
  | search (alarm : Bool)
  | scan (alarm : Bool)
  | matchrom (rom : Rom)
  | skiprom
  | readrom
  | clrstate
  | crc8 (rom : Rom)
  | getstate
  | getdev (index : Byte)
  | getscr
  | unassigned (op : Byte)
  | asearch
  | ascan
  | wr0
  | wr1
  | wSearchRom
  | wAlarmSearch
  | wSkipRom
  | wReadRom
  | wMatchRom
  | sResetPulse
  | sProbe
  | sWrite0
  | sWrite1
  | sRead
  deriving DecidableEq, Repr

/-- The layers of 30_encoding.md R90; the pseudo-instructions of R103 stand apart. -/
inductive Layer where
  | host
  | pseudo
  | romByte
  | slotSymbol
  deriving DecidableEq, Repr

/-- Which layer an instruction belongs to (30_encoding.md R90, R103). -/
def Instr.layer : Instr → Layer
  | .reset | .wrbit _ | .rdbit | .wrbyte _ | .rdbyte | .search _ | .scan _ | .matchrom _
  | .skiprom | .readrom | .clrstate | .crc8 _ | .getstate | .getdev _ | .getscr
  | .unassigned _ => .host
  | .asearch | .ascan | .wr0 | .wr1 => .pseudo
  | .wSearchRom | .wAlarmSearch | .wSkipRom | .wReadRom | .wMatchRom => .romByte
  | .sResetPulse | .sProbe | .sWrite0 | .sWrite1 | .sRead => .slotSymbol

end Sys2Proof
end

