-- ==== Sys2Proof/WellFormed.lean ====
section
/-! DEFINITION. Which instructions are host requests: what the block's decoder can give. -/

namespace Sys2Proof

/-- The codes 30_encoding.md R93 assigns: 0x01 to 0x0F. -/
def assignedOp (op : Byte) : Bool := decide (1 ≤ op.toNat) && decide (op.toNat ≤ 15)

/-- An instruction is well formed when it is what some request word decodes to: a host command; an unassigned code
that is indeed unassigned (R96). A pseudo-instruction is its expansion's word (R103), and layers W and S are sent by
the block, never presented to it (R90). -/
def Instr.wellFormed : Instr → Bool
  | .unassigned op => !assignedOp op
  | i => i.layer == .host

end Sys2Proof
end

