-- ==== Sys2Proof/Decode.lean ====
section
/-! DEFINITION. Decoding a request word, and the encoder; the encodings of layers W and S; the bit and byte helpers
the whole model uses. -/

namespace Sys2Proof

/-! ### Bits and bytes -/

/-- Bits 0 to 7 of a byte, bit 0 first: the order of the wire (20_memory.md R62). -/
def bitsOfByte (b : Byte) : List Bool := (List.range 8).map b.getLsbD

/-- The byte whose bit 0 is the first element: the inverse of `bitsOfByte` on eight bits. -/
def byteOfBits : List Bool → Byte
  | [] => 0
  | b :: bs => (byteOfBits bs <<< 1) ||| (if b then 1 else 0)

/-- `rom.byte[j]`, bits `8j+7 : 8j` (00_scope.md R9). -/
def romByte (r : Rom) (j : Nat) : Byte := r.extractLsb' (8 * j) 8

/-- `rom.byte[0] .. rom.byte[7]`, family byte first (00_scope.md R9, 20_memory.md R62). -/
def romBytes (r : Rom) : List Byte := (List.range 8).map (romByte r)

/-- The ROM code whose `byte[0]` is the first element. -/
def romOfBytes : List Byte → Rom
  | [] => 0
  | b :: bs => (romOfBytes bs <<< 8) ||| b.setWidth 64

/-- `b` with bit `i` made `d`, the other bits kept. -/
def setBit (b : Byte) (i : Nat) (d : Bool) : Byte :=
  if d then b ||| (1#8 <<< i) else b &&& ~~~(1#8 <<< i)

/-! ### Request words (30_encoding.md R91) -/

/-- `REQ[7:0]`. -/
def reqOp (w : HostWord) : Byte := w.extractLsb' 0 8

/-- `REQ[15:8]`. -/
def reqArg (w : HostWord) : Byte := w.extractLsb' 8 8

/-- `REQ[79:16]`. -/
def reqRom (w : HostWord) : Rom := w.extractLsb' 16 64

/-- Decoding looks at `REQ[7:0]` only and is total (30_encoding.md R93, R96). Operands as R95 assembles them: a bit is
`arg[0]`, a byte or an index `arg`, a ROM code `rom`; the fields a command does not use are dropped. -/
def decode (w : HostWord) : Instr :=
  match (reqOp w).toNat with
  | 1 => .reset
  | 2 => .wrbit ((reqArg w).getLsbD 0)
  | 3 => .rdbit
  | 4 => .wrbyte (reqArg w)
  | 5 => .rdbyte
  | 6 => .search ((reqArg w).getLsbD 0)
  | 7 => .scan ((reqArg w).getLsbD 0)
  | 8 => .matchrom (reqRom w)
  | 9 => .skiprom
  | 10 => .readrom
  | 11 => .clrstate
  | 12 => .crc8 (reqRom w)
  | 13 => .getstate
  | 14 => .getdev (reqArg w)
  | 15 => .getscr
  | _ => .unassigned (reqOp w)

/-- Why bytes are no request. -/
inductive DecodeError where
  /-- A request is one whole 80-bit word, ten bytes (30_encoding.md R97, 20_memory.md R64). -/
  | notOneWord (bytes : Nat)
  deriving DecidableEq, Repr

/-- The host word whose bits 7:0 are the first byte. -/
def wordOfBytes : List Byte → HostWord
  | [] => 0
  | b :: bs => (wordOfBytes bs <<< 8) ||| b.setWidth 80

/-- Decoding bytes: ten of them make a word; any other number is rejected by name. -/
def decodeBytes (bytes : List Byte) : Except DecodeError Instr :=
  if bytes.length = 10 then .ok (decode (wordOfBytes bytes)) else .error (.notOneWord bytes.length)

/-- `nbits` bits of `w` laid out in ten bytes, the first byte lowest, the bits above `nbits` zero; more than 80 bits need
more bytes. -/
def tableBytes (nbits w : Nat) : List Byte :=
  (List.range (max 10 ((nbits + 7) / 8))).map fun j => BitVec.ofNat 8 ((w % 2 ^ nbits) >>> (8 * j))

/-- What the decoder reads from a row of the opcode table. -/
def decodeTableWord (nbits w : Nat) : Option Instr :=
  match decodeBytes (tableBytes nbits w) with
  | .ok i => some i
  | .error _ => none

/-! ### The encoder -/

/-- A request word from its fields (30_encoding.md R91). -/
def reqWord (op arg : Byte) (rom : Rom) : HostWord := rom ++ arg ++ op

/-- A bit operand in `arg[0]`. -/
def bitArg (b : Bool) : Byte := if b then 1 else 0

/-- The request word of an instruction, unused fields 0 (30_encoding.md R102); a pseudo-instruction has its expansion's
word (R103); layers W and S have no request word. -/
def encode : Instr → Option HostWord
  | .reset => some (reqWord 0x01 0 0)
  | .wrbit b => some (reqWord 0x02 (bitArg b) 0)
  | .rdbit => some (reqWord 0x03 0 0)
  | .wrbyte b => some (reqWord 0x04 b 0)
  | .rdbyte => some (reqWord 0x05 0 0)
  | .search m => some (reqWord 0x06 (bitArg m) 0)
  | .scan m => some (reqWord 0x07 (bitArg m) 0)
  | .matchrom r => some (reqWord 0x08 0 r)
  | .skiprom => some (reqWord 0x09 0 0)
  | .readrom => some (reqWord 0x0A 0 0)
  | .clrstate => some (reqWord 0x0B 0 0)
  | .crc8 r => some (reqWord 0x0C 0 r)
  | .getstate => some (reqWord 0x0D 0 0)
  | .getdev k => some (reqWord 0x0E k 0)
  | .getscr => some (reqWord 0x0F 0 0)
  | .unassigned op => some (reqWord op 0 0)
  | .asearch => some (reqWord 0x06 1 0)
  | .ascan => some (reqWord 0x07 1 0)
  | .wr0 => some (reqWord 0x02 0 0)
  | .wr1 => some (reqWord 0x02 1 0)
  | .wSearchRom | .wAlarmSearch | .wSkipRom | .wReadRom | .wMatchRom => none
  | .sResetPulse | .sProbe | .sWrite0 | .sWrite1 | .sRead => none

/-- What a pseudo-instruction stands for (30_encoding.md R103); every other instruction stands for itself. -/
def Instr.expand : Instr → Instr
  | .asearch => .search true
  | .ascan => .scan true
  | .wr0 => .wrbit false
  | .wr1 => .wrbit true
  | i => i

/-! ### Layer W: ROM command bytes (30_encoding.md R98) -/

/-- The byte of a layer-W instruction. -/
def romCommandByte (c : Config) : Instr → Option Byte
  | .wSearchRom => some 0xF0
  | .wAlarmSearch => some c.alarmSearchCmd
  | .wSkipRom => some 0xCC
  | .wReadRom => some 0x33
  | .wMatchRom => some 0x55
  | _ => none

/-- The layer-W instruction a byte on the bus stands for, as the devices read it (20_memory.md R74). -/
def decodeRomCommand (c : Config) (b : Byte) : Option Instr :=
  if b = 0xF0 then some .wSearchRom
  else if b = c.alarmSearchCmd then some .wAlarmSearch
  else if b = 0x33 then some .wReadRom
  else if b = 0x55 then some .wMatchRom
  else if b = 0xCC then some .wSkipRom
  else none

/-! ### Layer S: slot symbols (30_encoding.md R100) -/

/-- The byte of a write slot (40_codec.md R124): 0xFF for 1, 0x00 for 0. -/
def slotByte (w : Bool) : Byte := if w then 0xFF else 0x00

/-- The (rate, byte) pair of a layer-S instruction. -/
def slotSymbol (c : Config) : Instr → Option (Baud × Byte)
  | .sResetPulse => some (.reset, c.resetByte)
  | .sProbe => some (.slot, c.probeByte)
  | .sWrite0 => some (.slot, 0x00)
  | .sWrite1 => some (.slot, 0xFF)
  | .sRead => some (.slot, 0xFF)
  | _ => none

end Sys2Proof
end

