-- ==== Sys2Proof/Machine/State.lean ====
section
/-! DEFINITION. The state of the block and of what surrounds it, as plain data (spec/10_state.md, spec/20_memory.md). -/

namespace Sys2Proof.Machine

/-- Why the machine stops. -/
inductive Fault where
  /-- Raised by GETDEV alone, when the table entry it would read lies outside the local store. It arises only in a state
  with `deviceCount > MAX_DEVICES`, which no run reaches (10_state.md R40, 20_memory.md R53). Safe (log 15). -/
  | outsideLocalStore (address : Nat)
  deriving DecidableEq, Repr

/-- Why an instruction has no meaning. -/
inductive Refusal where
  /-- Raised by `exec` for an instruction that has no meaning yet; no arm raises it. Safe. -/
  | notModelled (mnemonic : String)
  deriving DecidableEq, Repr

/-- One move of the tape: where the master takes its next atomic step (20_memory.md R63), or a move of another agent. -/
inductive Move where
  /-- the master takes its next atomic step -/
  | master
  /-- the receive agent deposits a byte, whatever it answers (20_memory.md R58) -/
  | deposit (v : Byte)
  /-- the receive agent deposits the oldest echo in flight (10_state.md R38(a), 20_memory.md R59 CH-ORDER) -/
  | echo
  /-- the oldest echo in flight is lost: "each ChTransmit causes at most one deposit" (20_memory.md R59) -/
  | lose
  /-- the reset input is asserted (70_reset_and_hazards.md R240) -/
  | reset
  deriving DecidableEq, Repr

/-- What the trace records: the two output events of the channel interface (20_memory.md R55, R56), deposits (R58), and
responses (10_state.md R34). -/
inductive Action where
  | baud (r : Baud)
  | tx (b : Byte)
  | echo (v : Byte)
  | rsp (w : HostWord)
  deriving DecidableEq, Repr

/-- A device of the reference environment (20_memory.md R70). -/
structure Device where
  rom : Rom
  alarmed : Bool
  deriving DecidableEq, Repr

/-- The phase of the reference environment (20_memory.md R70). `Search(p, s, P)` is three constructors, one for each
`s`. `func` carries the addressed set of R77. -/
inductive Phase where
  | idle
  | awaitProbe
  | cmd (j : Nat) (c : Byte)
  | searchId (p : Nat) (P : List Device)
  | searchCmp (p : Nat) (P : List Device)
  | searchDir (p : Nat) (P : List Device)
  | readRom (p : Nat) (P : List Device)
  | matching (p : Nat) (P : List Device)
  | func (P : List Device)
  /-- The model's own (log 11): a slot to which SimBus gives no meaning has been sent (R71, R78, and
  93_implementation_defined.md U5); answers are free values until the next reset pulse. -/
  | outside
  deriving DecidableEq, Repr

/-- The reference environment SimBus (20_memory.md R70); its `baud` is the channel's, held in `State`. -/
structure SimBus where
  devs : List Device
  phase : Phase
  pull : Byte
  deriving DecidableEq, Repr

/-- Where the command in `req` stands between two steps of the model (10_state.md R36, log 17). -/
inductive Point where
  /-- at the first line of its pseudocode -/
  | start
  /-- SCAN, at the head of its loop, the clear done (42_rom_search.md R178) -/
  | scanLoop
  deriving DecidableEq, Repr

/-- What the last layer-S instruction made of its echo (30_encoding.md R100, last column). The model's own (log 7). -/
inductive SlotResult where
  | nothing
  | discarded
  | presence (present : Bool)
  | bit (b : Bool)
  | timedOut
  deriving DecidableEq, Repr

/-- The result codes (30_encoding.md R94). -/
inductive Result where
  | ok
  | noPresence
  | timeout
  | busError
  | crcMismatch
  | tableFull
  | searchExhausted
  | illegalCommand
  | indexRange
  deriving DecidableEq, Repr

/-- A response, before it is packed (10_state.md R34). -/
structure Response where
  res : Result
  val : Byte
  rom : Rom
  deriving DecidableEq, Repr

/-- The state. INVENTORY.md, heading State, names the rule of each field. -/
structure State where
  /-- the implementation parameters (00_scope.md R5) -/
  cfg : Config
  /-- 10_state.md R21 -/
  echoBuffer : Byte
  /-- 10_state.md R22 -/
  echoReady : Bool
  /-- 10_state.md R24: 0 none, `n` bit position `n - 1` -/
  lastDiscrepancy : BitVec 7
  /-- 10_state.md R25 -/
  lastFamilyDiscrepancy : BitVec 4
  /-- 10_state.md R26 -/
  lastDeviceFlag : Bool
  /-- 10_state.md R27 -/
  hasMoreDevices : Bool
  /-- 10_state.md R28 -/
  deviceCount : Byte
  /-- the local store: `romScratch` at 0..7, the device table from 8 on (20_memory.md R51), in canonical form -/
  store : List Host.Cell
  /-- 10_state.md R32 -/
  busy : Bool
  /-- the latched request (10_state.md R32, 20_memory.md R69) -/
  req : HostWord
  /-- 10_state.md R36 -/
  point : Point
  /-- the model's own (log 7) -/
  slot : SlotResult
  /-- the channel's rate, `none` where it is unknown (10_state.md R38(b), 20_memory.md R70) -/
  baud : Option Baud
  /-- echoes the channel holds, oldest first (10_state.md R38(a)) -/
  inFlight : List Byte
  /-- the reference environment, if it is the environment (10_state.md R38(c)) -/
  sim : Option SimBus
  /-- the other agents' moves and the places of the master's between them (00_scope.md R11); the model's own -/
  tape : List Move
  /-- how many free values have been drawn; the model's own (log 4) -/
  draws : Nat
  /-- the requests the host will present, in order (00_scope.md R7(3), 70_reset_and_hazards.md R258) -/
  pending : List HostWord
  /-- the events so far, newest first; the model's own (log 13) -/
  trace : List Action
  deriving DecidableEq, Repr

/-- The block right after hardware reset, for any parameters (10_state.md R39, 70_reset_and_hazards.md R240), in an
environment of which nothing is known (log 3). DESIGN CHOICE: `req` 0 (log 5), the surroundings (log 3), the model's own
fields (logs 4, 7, 13). -/
def State.resetWith (c : Config) : State where
  cfg := c
  echoBuffer := 0
  echoReady := false
  lastDiscrepancy := 0
  lastFamilyDiscrepancy := 0
  lastDeviceFlag := false
  hasMoreDevices := false
  deviceCount := 0
  store := []
  busy := false
  req := 0
  point := .start
  slot := .nothing
  baud := none
  inFlight := []
  sim := none
  tape := []
  draws := 0
  pending := []
  trace := []

/-- The block right after hardware reset with the default parameters (log 8). -/
def State.reset : State := State.resetWith Config.default

end Sys2Proof.Machine
end

