-- ==== Sys2Proof/Machine/SimBus.lean ====
section
/-! DEFINITION. The reference environment SimBus (spec/20_memory.md rules R70 to R79): what it answers to a transmit. -/

namespace Sys2Proof.Machine

/-! ### Its state (20_memory.md R70) -/

/-- SimBus as it starts, over the devices and with the `PULL` given: "initially `Idle`" (20_memory.md R70). -/
def SimBus.initial (devs : List Device) (pull : Byte) : SimBus := ⟨devs, .idle, pull⟩

/-- SimBus becomes the environment; the rate stays what it is, after reset unknown, as R70 has it. -/
def State.attach (s : State) (devs : List Device) (pull : Byte) : State := { s with sim := some (SimBus.initial devs pull) }

/-- The phase is one of those of 20_memory.md R70 over these devices: `j` in 0..7, `p` in 0..63, `P` devices of the bus. -/
def Phase.within (devs : List Device) : Phase → Bool
  | .idle | .awaitProbe | .outside => true
  | .cmd j _ => decide (j ≤ 7)
  | .searchId p P | .searchCmp p P | .searchDir p P | .readRom p P | .matching p P =>
    decide (p ≤ 63) && decide (∀ d ∈ P, d ∈ devs)
  | .func P => decide (∀ d ∈ P, d ∈ devs)

/-- A state of SimBus the rules have: its phase within its devices, `PULL` "any 8-bit value other than 0xFF" (20_memory.md
R70). -/
def SimBus.wf (sb : SimBus) : Bool := sb.pull != 0xFF && sb.phase.within sb.devs

/-! ### What it answers -/

/-- Bit position `p` of a device's ROM code (00_scope.md R9). -/
def Device.bit (d : Device) (p : Nat) : Bool := d.rom.getLsbD p

/-- The devices that stay when the master writes `w` at position `p` (20_memory.md R75, R77). -/
def agreeing (P : List Device) (p : Nat) (w : Bool) : List Device := P.filter fun d => d.bit p == w

/-- The echo of a read slot: not pulled iff every device sends a 1 (20_memory.md R75, R76). -/
def readEcho (pull b : Byte) (allOne : Bool) : Byte := if allOne then b else b &&& pull

/-- The phase after a complete ROM command byte (20_memory.md R74). DESIGN CHOICE (log 18): after a byte the rule gives
no meaning the addressed set is empty. -/
def afterCommand (c : Config) (devs : List Device) (b : Byte) : Phase :=
  match decodeRomCommand c b with
  | some .wSearchRom => .searchId 0 devs
  | some .wAlarmSearch => .searchId 0 (devs.filter (·.alarmed))
  | some .wReadRom => .readRom 0 devs
  | some .wMatchRom => .matching 0 devs
  | some .wSkipRom => .func devs
  | _ => .func []

/-- What the master sends: a write slot or a read slot, which put the same byte on the line where the bit written is 1
(70_reset_and_hazards.md R254: "whether the master looks at the echo"), or a byte that is meant as neither, the reset pulse or the
presence probe (30_encoding.md R100). -/
inductive Sent where
  | write (w : Bool)
  | read
  | other (b : Byte)
  deriving DecidableEq, Repr

/-- The byte on the line (40_codec.md R123 to R125). -/
def Sent.byte : Sent → Byte
  | .write w => slotByte w
  | .read => 0xFF
  | .other b => b

/-- The bit a slot carries to the devices: that of a write slot; a 0x00 meant as no slot is a write-0 slot too (20_memory.md R71). -/
def Sent.written : Sent → Option Bool
  | .write w => some w
  | .read => none
  | .other b => if b = 0x00 then some false else none

/-- What SimBus makes of one transmit. -/
inductive Answer where
  /-- it echoes `e` and is in phase `ph` -/
  | echo (e : Byte) (ph : Phase)
  /-- it gives the transmit no meaning (R71, R78); the answer is a free value (log 11) -/
  | free
  deriving DecidableEq, Repr

/-- One slot at `BAUD_SLOT` (20_memory.md R71, R74 to R78). In `Idle` and `Func` every slot is echoed; elsewhere a slot in the
direction the phase does not take is outside SimBus: a read slot in `Cmd`, a write slot of either bit where R75 and R76 take a read
slot (R78), and, DEDUCED (log 24), a read slot where R75 and R77 take a write slot. DESIGN CHOICE (log 22): R75 and R76 end in `Func`
and name no addressed set; here it is, after a search, the devices left by its last write slot, and, after READ ROM, all of `P`,
whether one or several. -/
def SimBus.slotAnswer (c : Config) (sb : SimBus) (x : Sent) : Answer :=
  if x.byte ≠ 0xFF ∧ x.byte ≠ 0x00 then .free else
  match sb.phase with
  | .idle => .echo x.byte .idle
  | .func P => .echo x.byte (.func P)
  | .awaitProbe => .free
  | .outside => .free
  | .cmd j cmd =>
    match x.written with
    | none => .free
    | some w =>
      if j < 7 then .echo x.byte (.cmd (j + 1) (setBit cmd j w))
      else .echo x.byte (afterCommand c sb.devs (setBit cmd j w))
  | .searchId p P =>
    if x = .read then .echo (readEcho sb.pull x.byte (P.all fun d => d.bit p)) (.searchCmp p P) else .free
  | .searchCmp p P =>
    if x = .read then .echo (readEcho sb.pull x.byte (P.all fun d => !d.bit p)) (.searchDir p P) else .free
  | .searchDir p P =>
    match x.written with
    | none => .free
    | some w => .echo x.byte (if p < 63 then .searchId (p + 1) (agreeing P p w) else .func (agreeing P p w))
  | .readRom p P =>
    if x = .read then .echo (readEcho sb.pull x.byte (P.all fun d => d.bit p))
      (if p < 63 then .readRom (p + 1) P else .func P)
    else .free
  | .matching p P =>
    match x.written with
    | none => .free
    | some w => .echo x.byte (if p < 63 then .matching (p + 1) (agreeing P p w) else .func (agreeing P p w))

/-- What SimBus makes of a transmit at the channel's rate: the reset pulse (20_memory.md R72), the presence probe (R73),
a slot (R71), or, at an unknown rate, nothing the rules describe (93_implementation_defined.md U5). -/
def SimBus.answer (c : Config) (rate : Option Baud) (sb : SimBus) (x : Sent) : Answer :=
  match rate with
  | some .reset => .echo x.byte .awaitProbe
  | some .slot =>
    match sb.phase with
    | .awaitProbe => .echo (if sb.devs.isEmpty then x.byte else x.byte &&& sb.pull) (.cmd 0 0)
    | _ => sb.slotAnswer c x
  | none => .free

end Sys2Proof.Machine
end

