-- ==== Sys2Proof/Machine/Ops.lean ====
section
/-! DEFINITION. The named operations every command is built from: the local store, the moves of the other agents, the
channel, the codec's primitives (spec/40_codec.md R121 to R127), `ClearState`, hardware reset, and the response with which
every command ends (spec/60_exceptions.md R220, R224). -/

namespace Sys2Proof.Machine

/-! ### The local store (20_memory.md R50 to R53, R64) -/

/-- The byte at an address; an address with no entry reads 0x00, the reset contents (10_state.md R39). -/
def readByteAt : List Host.Cell → Nat → Byte
  | [], _ => 0
  | (x, v) :: m, a => if x = a then v else readByteAt m a

/-- Writing a byte, keeping addresses rising and no entry 0x00. -/
def writeByteAt : List Host.Cell → Nat → Byte → List Host.Cell
  | [], a, v => if v = 0 then [] else [(a, v)]
  | (x, w) :: m, a, v =>
    if a < x then (if v = 0 then (x, w) :: m else (a, v) :: (x, w) :: m)
    else if a = x then (if v = 0 then m else (a, v) :: m)
    else (x, w) :: writeByteAt m a v

/-- Addresses strictly rising from `lo` on, and no entry equal to what an unlisted address reads as. -/
def cellsFrom : Nat → List Host.Cell → Bool
  | _, [] => true
  | lo, (x, v) :: m => decide (lo ≤ x) && v != 0 && cellsFrom (x + 1) m

/-- The canonical form of the local store. -/
def Memory.wf (m : List Host.Cell) : Bool := cellsFrom 0 m

/-- `MemRead(addr, 8)`, the byte at `addr` least significant (00_scope.md R10). -/
def readRomAt (m : List Host.Cell) (a : Nat) : Rom :=
  romOfBytes ((List.range 8).map fun j => readByteAt m (a + j))

/-- Consecutive bytes written from an address on. -/
def writeBytesAt (m : List Host.Cell) (a : Nat) : List Byte → List Host.Cell
  | [] => m
  | b :: bs => writeBytesAt (writeByteAt m a b) (a + 1) bs

/-- `MemWrite(addr, 8, v)` (00_scope.md R10). -/
def writeRomAt (m : List Host.Cell) (a : Nat) (r : Rom) : List Host.Cell := writeBytesAt m a (romBytes r)

/-- The size of the local store in bytes (20_memory.md R50). -/
def storeSize (c : Config) : Nat := 8 + 8 * c.maxDevices

/-- The address of table entry `k` (20_memory.md R51). -/
def entryAddr (k : Nat) : Nat := 8 + 8 * k

/-- `romScratch` (20_memory.md R51). -/
def State.scratch (s : State) : Rom := readRomAt s.store 0

/-- Table entry `k` (20_memory.md R51). -/
def State.entry (s : State) (k : Nat) : Rom := readRomAt s.store (entryAddr k)

/-- Bit `p` of `romScratch`: bit `p mod 8` of the byte at `p div 8` (10_state.md R23). -/
def State.scratchBit (s : State) (p : Nat) : Bool := (readByteAt s.store (p / 8)).getLsbD (p % 8)

/-- `romScratch` with bit `p` made `d` (42_rom_search.md R170). -/
def State.storeScratchBit (s : State) (p : Nat) (d : Bool) : State :=
  { s with store := writeByteAt s.store (p / 8) (setBit (readByteAt s.store (p / 8)) (p % 8) d) }

/-- Every byte of the local store written 0x00 (44_state_access.md R200). -/
def clearStore (c : Config) (m : List Host.Cell) : List Host.Cell :=
  (List.range (storeSize c)).foldl (fun m a => writeByteAt m a 0) m

/-! ### Named updates of the state -/

/-- The receive agent's step (20_memory.md R58). -/
def State.deposit (s : State) (v : Byte) : State :=
  { s with echoBuffer := v, echoReady := true, trace := .echo v :: s.trace }

/-- The oldest echo in flight leaves the channel. -/
def State.dropEcho (s : State) : State := { s with inFlight := s.inFlight.tail }

/-- The oldest echo in flight is deposited, if there is one (20_memory.md R59). -/
def State.depositOldest (s : State) : State :=
  match s.inFlight with
  | [] => s
  | v :: _ => s.dropEcho.deposit v

/-- No echo is in flight any more. -/
def State.emptyFlight (s : State) : State := { s with inFlight := [] }

/-- What is left of the tape. -/
def State.setTape (s : State) (t : List Move) : State := { s with tape := t }

/-- One free value has been drawn (log 4). -/
def State.draw (s : State) : State := { s with draws := s.draws + 1 }

/-- `ChConfigureBaud(r)` (20_memory.md R55, R67): the rate of every later transmit. -/
def State.setBaud (s : State) (r : Baud) : State := { s with baud := some r, trace := .baud r :: s.trace }

/-- The master's half of a transmit: the flag cleared in the same step (40_codec.md R121, 10_state.md R22). -/
def State.sendByte (s : State) (b : Byte) : State := { s with echoReady := false, trace := .tx b :: s.trace }

/-- SimBus answers: its phase moves on and its echo is in flight. -/
def State.putEcho (s : State) (sb : SimBus) (e : Byte) : State :=
  { s with sim := some sb, inFlight := s.inFlight ++ [e] }

/-- SimBus gives no meaning to the transmit: a free value is drawn, an echo or none, and SimBus is outside its rules until
the next reset pulse (log 11). -/
def State.freeEcho (s : State) (sb : SimBus) : State :=
  { s with
    sim := some { sb with phase := .outside }
    inFlight := s.inFlight ++ (Config.freeDeposit s.draws).toList
    draws := s.draws + 1 }

/-- `ChTransmit(b)`, `b` the byte of `x`, with the clearing of `echoReady`, one atomic step (40_codec.md R121). Where SimBus is
the environment it decides the echo now; in any other environment the tape or a free value decides it at the deposit. DESIGN CHOICE
(log 23): SimBus answers from the phase it stands in also after a TIMEOUT that the tape made, or a reset that cut a command short. -/
def State.transmit (s : State) (x : Sent) : State :=
  let s' := s.sendByte x.byte
  match s'.sim with
  | none => s'
  | some sb =>
    match sb.answer s'.cfg s'.baud x with
    | .echo e ph => s'.putEcho { sb with phase := ph } e
    | .free => s'.freeEcho sb

/-- The consuming half of a poll (40_codec.md R122, 20_memory.md R68). -/
def State.consume (s : State) : State := { s with echoReady := false }

/-- `deviceCount <- n`. -/
def State.setCount (s : State) (n : Byte) : State := { s with deviceCount := n }

/-- The search registers written by step 6 of a pass (42_rom_search.md R174). -/
def State.setSearch (s : State) (ld : BitVec 7) (lfd : BitVec 4) (ldf : Bool) : State :=
  { s with lastDiscrepancy := ld, lastFamilyDiscrepancy := lfd, lastDeviceFlag := ldf }

/-- A code appended as table entry `deviceCount` (42_rom_search.md R176). -/
def State.append (s : State) (r : Rom) : State :=
  { s with
    store := writeRomAt s.store (entryAddr s.deviceCount.toNat) r
    deviceCount := s.deviceCount + 1 }

/-- `hasMoreDevices <- 1` (42_rom_search.md R176). -/
def State.setMore (s : State) : State := { s with hasMoreDevices := true }

/-- Where the command stands (10_state.md R36). -/
def State.setPoint (s : State) (p : Point) : State := { s with point := p }

/-- What a layer-S instruction made of its echo (log 7). -/
def State.setSlot (s : State) (r : SlotResult) : State := { s with slot := r }

/-- `ClearState()` (44_state_access.md R200, R202): every field of `BusState` and every byte of the local store. -/
def State.clear (s : State) : State :=
  { s with
    echoBuffer := 0
    echoReady := false
    lastDiscrepancy := 0
    lastFamilyDiscrepancy := 0
    lastDeviceFlag := false
    hasMoreDevices := false
    deviceCount := 0
    store := clearStore s.cfg s.store }

/-- Hardware reset (70_reset_and_hazards.md R240, R242): the block as `State.resetWith` has it, the command in it gone
without a response; what is outside the block stays. -/
def State.hardReset (s : State) : State :=
  { State.resetWith s.cfg with
    baud := s.baud
    inFlight := s.inFlight
    sim := s.sim
    tape := s.tape
    draws := s.draws
    pending := s.pending
    trace := s.trace }

/-- Acceptance of a request (10_state.md R33, 20_memory.md R69). -/
def State.accept (s : State) (w : HostWord) (rest : List HostWord) : State :=
  { s with pending := rest, req := w, busy := true, point := .start }

/-- The code of a result (30_encoding.md R94). -/
def Result.code : Result → Byte
  | .ok => 0x00
  | .noPresence => 0x01
  | .timeout => 0x02
  | .busError => 0x03
  | .crcMismatch => 0x04
  | .tableFull => 0x05
  | .searchExhausted => 0x06
  | .illegalCommand => 0x07
  | .indexRange => 0x08

/-- The response word (30_encoding.md R92). -/
def Response.word (r : Response) : HostWord := r.rom ++ r.val ++ r.res.code

/-- `respond(res, val, rom)`: the event, and `busy <- 0` (10_state.md R34). -/
def State.respond (s : State) (r : Response) : State :=
  { s with busy := false, point := .start, trace := .rsp r.word :: s.trace }

/-! ### Commands as computations -/

/-- Why a computation ends early: `raise TIMEOUT` (60_exceptions.md R224), or the reset input (70_reset_and_hazards.md
R240), after which the block is idle. -/
inductive Stop where
  | timeout
  | killed
  deriving DecidableEq, Repr

/-- A piece of a command's pseudocode: from a state, a value and a state, or an early end and the state it leaves; nothing
written before it is rolled back (60_exceptions.md R224). -/
abbrev M := EStateM Stop State

/-- The state as it stands. -/
def look : M State := fun s => .ok s s

/-- An update of the state. -/
def update (f : State → State) : M Unit := fun s => .ok () (f s)

/-- `raise TIMEOUT` (60_exceptions.md R224). -/
def raiseTimeout {α : Type} : M α := fun s => .error .timeout s

/-! ### The other agents -/

/-- What the surroundings do where the tape says nothing: SimBus's echoes are deposited in order, before the master's next
poll (20_memory.md R60 CH-PROMPT, R70; log 12); an environment of which nothing is known deposits a free value or nothing
(log 4). -/
def State.surroundings (s : State) : State :=
  match s.sim with
  | some _ => (s.inFlight.foldl State.deposit s).emptyFlight
  | none =>
    match Config.freeDeposit s.draws with
    | some v => s.draw.deposit v
    | none => s.draw

/-- The moves of the other agents up to the master's next atomic step (00_scope.md R11, 20_memory.md R66). -/
def playTape : List Move → State → EStateM.Result Stop State Unit
  | [], s => .ok () (s.setTape []).surroundings
  | .master :: t, s => .ok () (s.setTape t)
  | .deposit v :: t, s => playTape t (s.deposit v)
  | .echo :: t, s => playTape t s.depositOldest
  | .lose :: t, s => playTape t s.dropEcho
  | .reset :: t, s => .error .killed (s.setTape t).hardReset

/-- What happens before each atomic step of the master: everybody else's moves, the reset input among them. -/
def tick : M Unit := fun s => playTape s.tape s

/-! ### The channel (20_memory.md R54 to R61, 40_codec.md R121, R122) -/

/-- What a wait ends with (40_codec.md R121). -/
inductive Wait where
  | echo (v : Byte)
  | timedOut
  deriving DecidableEq, Repr

/-- One `ChConfigureBaud` event. -/
def configureBaud (r : Baud) : M Unit := do
  tick
  update (·.setBaud r)

/-- One poll: a test of `echoReady` and, if it is 1, the read of `echoBuffer` and the clearing of the flag (20_memory.md
R63). -/
def poll : M (Option Byte) := do
  tick
  let s ← look
  if s.echoReady then
    update State.consume
    pure (some s.echoBuffer)
  else
    pure none

/-- At most `k` polls (40_codec.md R122). -/
def awaitLoop : Nat → M Wait
  | 0 => pure .timedOut
  | k + 1 => do
    match ← poll with
    | some v => pure (.echo v)
    | none => awaitLoop k

/-- `AwaitEcho()` (40_codec.md R122). -/
def awaitEcho : M Wait := do
  let s ← look
  awaitLoop s.cfg.readTimeout

/-- `Xfer(b)`, `b` the byte of `x` (40_codec.md R121). -/
def xfer (x : Sent) : M Wait := do
  tick
  update (·.transmit x)
  awaitEcho

/-! ### The codec (40_codec.md R123 to R127) -/

/-- `Reset()` (40_codec.md R123): true for `Presence`, false for `NoPresence`. -/
def resetBus : M Bool := do
  configureBaud .reset
  let s ← look
  let r1 ← xfer (.other s.cfg.resetByte)
  configureBaud .slot
  match r1 with
  | .timedOut => raiseTimeout
  | .echo _ => do
    match ← xfer (.other s.cfg.probeByte) with
    | .timedOut => raiseTimeout
    | .echo v => pure (v != s.cfg.probeByte)

/-- `WriteBit(w)` (40_codec.md R124): the result of the wait is ignored. -/
def writeBit (w : Bool) : M Unit := do
  let _ ← xfer (.write w)
  pure ()

/-- `ReadBit()` (40_codec.md R125). -/
def readBit : M Bool := do
  match ← xfer .read with
  | .timedOut => raiseTimeout
  | .echo v => pure (v == 0xFF)

/-- Write slots for bits in order. -/
def writeBits : List Bool → M Unit
  | [] => pure ()
  | w :: ws => do
    writeBit w
    writeBits ws

/-- `WriteByte(c)`: bit 0 first (40_codec.md R126). -/
def writeByte (c : Byte) : M Unit := writeBits (bitsOfByte c)

/-- `n` read slots, the first bit first. -/
def readBits : Nat → M (List Bool)
  | 0 => pure []
  | n + 1 => do
    let b ← readBit
    let bs ← readBits n
    pure (b :: bs)

/-- `ReadByte()`: the first read fills bit 0 (40_codec.md R127). -/
def readByte : M Byte := do
  let bs ← readBits 8
  pure (byteOfBits bs)

/-- Bytes written in order. -/
def writeBytes : List Byte → M Unit
  | [] => pure ()
  | c :: cs => do
    writeByte c
    writeBytes cs

/-- `n` bytes read, the first byte first. -/
def readBytes : Nat → M (List Byte)
  | 0 => pure []
  | n + 1 => do
    let c ← readByte
    let cs ← readBytes n
    pure (c :: cs)

/-! ### How a command ends (60_exceptions.md R220, R224; 10_state.md R34) -/

/-- The atomic step of a response: the moves of the others before it, then `respond`. A reset that comes first ends the
command without a response (70_reset_and_hazards.md R240). -/
def deliver (r : Response) (s : State) : State :=
  match tick s with
  | .ok _ s' => s'.respond r
  | .error _ s' => s'

/-- Result TIMEOUT, `val` and `rom` 0 (60_exceptions.md R224). -/
def timeoutResponse : Response := ⟨.timeout, 0, 0⟩

/-- A command: its computation, then its one response. A TIMEOUT raised in it is answered TIMEOUT (60_exceptions.md R222,
R224); a hardware reset answers nothing. -/
def finish (m : M Response) (s : State) : State :=
  match m s with
  | .ok r s' => deliver r s'
  | .error .timeout s' => deliver timeoutResponse s'
  | .error .killed s' => s'

/-! ### Between commands -/

/-- The block while idle (10_state.md R33, 60_exceptions.md R238): the others move; if the host presents a request the
block accepts it, and otherwise it holds its state. -/
def idleStep (s : State) : State :=
  match tick s with
  | .ok _ s' =>
    match s'.pending with
    | [] => s'
    | w :: ws => s'.accept w ws
  | .error _ s' => s'

end Sys2Proof.Machine
end

