-- ==== Sys2Proof/Machine/Operands.lean ====
section
/-! DEFINITION. Operand and result forms (spec/30_encoding.md R92, R94, R95): the search mode, the ROM command byte it
selects, the response of a bit, a count, a code. -/

namespace Sys2Proof.Machine

/-- The search opcode of a mode: `arg[0] = 0` normal, `arg[0] = 1` alarm (30_encoding.md R93, 42_rom_search.md R166). -/
def searchCommand (c : Config) (alarm : Bool) : Byte := if alarm then c.alarmSearchCmd else 0xF0

/-- A bit as `val`: `zext_8(w)` (40_codec.md R130). -/
def bitVal (w : Bool) : Byte := if w then 1 else 0

/-- OK with nothing else set (30_encoding.md R92). -/
def okResponse : Response := ⟨.ok, 0, 0⟩

/-- NO_PRESENCE with nothing else set (40_codec.md R128, 43_rom_addressing.md R190). -/
def noPresenceResponse : Response := ⟨.noPresence, 0, 0⟩

end Sys2Proof.Machine
end

