-- ==== Sys2Proof/Machine/Flags.lean ====
section
/-! DEFINITION. The flags (spec/10_state.md R37): how GETSTATE packs them, and the CRC, whose result is a verdict. -/

namespace Sys2Proof.Machine

/-! ### The status byte (44_state_access.md R203) -/

/-- Bit 0 `lastDeviceFlag`, bit 1 `hasMoreDevices`, bit 2 `echoReady`. -/
def State.flagByte (s : State) : Byte :=
  bitVal s.lastDeviceFlag ||| (bitVal s.hasMoreDevices <<< 1) ||| (bitVal s.echoReady <<< 2)

/-- `rom` of GETSTATE's response: four bytes, the upper four 0. -/
def State.statusRom (s : State) : Rom :=
  romOfBytes [s.flagByte, s.lastDiscrepancy.setWidth 8, s.lastFamilyDiscrepancy.setWidth 8, s.echoBuffer]

/-! ### CRC8 (41_crc8.md R150, R151, R154) -/

/-- `crc8_bit(c, d)` (41_crc8.md R150). -/
def crc8Bit (c : Byte) (d : Bool) : Byte :=
  if c.getLsbD 0 ^^ d then (c >>> 1) ^^^ 0x8C else c >>> 1

/-- One byte fed into the register, bit 0 first (41_crc8.md R151). -/
def crc8Byte (c : Byte) (b : Byte) : Byte := (bitsOfByte b).foldl crc8Bit c

/-- `crc8(bytes)` (41_crc8.md R151). -/
def crc8 (bytes : List Byte) : Byte := bytes.foldl crc8Byte 0

/-- The CRC of the first seven bytes of a code. -/
def romCrc (r : Rom) : Byte := crc8 ((romBytes r).take 7)

/-- Validity of a ROM code (41_crc8.md R154, 10_state.md R29). -/
def romValid (r : Rom) : Bool := romCrc r == romByte r 7

end Sys2Proof.Machine
end

