-- ==== Sys2Proof/Machine/Codec.lean ====
section
/-! DEFINITION. The host commands of the codec (spec/40_codec.md R128 to R133), and WR0, WR1 (spec/30_encoding.md R103). -/

namespace Sys2Proof.Machine

/-- RESET (40_codec.md R128). -/
def execReset (s : State) : Host.Outcome State Fault Refusal :=
  .next (finish (do
    let present ← resetBus
    pure (if present then ⟨.ok, 1, 0⟩ else noPresenceResponse)) s)

/-- WRBIT's computation, shared with WR0 and WR1. -/
def wrbitCommand (b : Bool) : M Response := do
  writeBit b
  pure okResponse

/-- WRBIT (40_codec.md R129). -/
def execWrbit (b : Bool) (s : State) : Host.Outcome State Fault Refusal := .next (finish (wrbitCommand b) s)

/-- RDBIT (40_codec.md R130). -/
def execRdbit (s : State) : Host.Outcome State Fault Refusal :=
  .next (finish (do
    let w ← readBit
    pure ⟨.ok, bitVal w, 0⟩) s)

/-- WRBYTE (40_codec.md R131). -/
def execWrbyte (b : Byte) (s : State) : Host.Outcome State Fault Refusal :=
  .next (finish (do
    writeByte b
    pure okResponse) s)

/-- RDBYTE (40_codec.md R132). -/
def execRdbyte (s : State) : Host.Outcome State Fault Refusal :=
  .next (finish (do
    let c ← readByte
    pure ⟨.ok, c, 0⟩) s)

/-- WR0 is `WRBIT 0` (30_encoding.md R103). -/
def execWr0 (s : State) : Host.Outcome State Fault Refusal := .next (finish (wrbitCommand false) s)

/-- WR1 is `WRBIT 1` (30_encoding.md R103). -/
def execWr1 (s : State) : Host.Outcome State Fault Refusal := .next (finish (wrbitCommand true) s)

end Sys2Proof.Machine
end

