-- ==== Sys2Proof/Machine/Layers.lean ====
section
/-! DEFINITION. The rows of layers W and S (spec/30_encoding.md R98 to R100): what the master does to send one ROM command
byte, or one slot symbol. They are parts of a host command: they respond to nobody and leave `busy` as it is (log 9). -/

namespace Sys2Proof.Machine

/-- A part of a command: the state it leaves. -/
def part (m : M Unit) (s : State) : State :=
  match m s with
  | .ok _ s' => s'
  | .error _ s' => s'

/-- The result of a layer-S instruction, kept (log 7). -/
def keepSlot (m : M SlotResult) : M Unit := do
  let r ← m
  update (·.setSlot r)

/-! ### Layer W (30_encoding.md R98, R99): eight write slots, bit 0 first -/

/-- SEARCH_ROM. -/
def execWSearchRom (s : State) : Host.Outcome State Fault Refusal := .next (part (writeByte 0xF0) s)

/-- ALARM_SEARCH: the byte is the parameter `ALARM_SEARCH_CMD`. -/
def execWAlarmSearch (s : State) : Host.Outcome State Fault Refusal :=
  .next (part (writeByte s.cfg.alarmSearchCmd) s)

/-- SKIP_ROM. -/
def execWSkipRom (s : State) : Host.Outcome State Fault Refusal := .next (part (writeByte 0xCC) s)

/-- READ_ROM. -/
def execWReadRom (s : State) : Host.Outcome State Fault Refusal := .next (part (writeByte 0x33) s)

/-- MATCH_ROM. -/
def execWMatchRom (s : State) : Host.Outcome State Fault Refusal := .next (part (writeByte 0x55) s)

/-! ### Layer S (30_encoding.md R100) -/

/-- The echo "awaited, value discarded"; an expired wait is kept as such. -/
def discard : Wait → SlotResult
  | .echo _ => .discarded
  | .timedOut => .timedOut

/-- RESET_PULSE: `RESET_BYTE` at `BAUD_RESET` (40_codec.md R123). -/
def execSResetPulse (s : State) : Host.Outcome State Fault Refusal :=
  .next (part (keepSlot (do
    configureBaud .reset
    let r ← xfer (.other s.cfg.resetByte)
    pure (discard r))) s)

/-- PROBE: `PROBE_BYTE` at `BAUD_SLOT`; "presence iff echo != PROBE_BYTE" (40_codec.md R123). -/
def execSProbe (s : State) : Host.Outcome State Fault Refusal :=
  .next (part (keepSlot (do
    configureBaud .slot
    match ← xfer (.other s.cfg.probeByte) with
    | .echo v => pure (.presence (v != s.cfg.probeByte))
    | .timedOut => pure .timedOut)) s)

/-- WRITE0 (40_codec.md R124), sent at the rate the channel has. -/
def execSWrite0 (s : State) : Host.Outcome State Fault Refusal :=
  .next (part (keepSlot (do
    let r ← xfer (.write false)
    pure (discard r))) s)

/-- WRITE1 (40_codec.md R124). -/
def execSWrite1 (s : State) : Host.Outcome State Fault Refusal :=
  .next (part (keepSlot (do
    let r ← xfer (.write true)
    pure (discard r))) s)

/-- READ: "1 iff echo = 0xFF; 0 for every other echo value" (40_codec.md R125). -/
def execSRead (s : State) : Host.Outcome State Fault Refusal :=
  .next (part (keepSlot (do
    match ← xfer .read with
    | .echo v => pure (.bit (v == 0xFF))
    | .timedOut => pure .timedOut)) s)

end Sys2Proof.Machine
end

