-- ==== Sys2Proof/Machine/RomAddressing.lean ====
section
/-! DEFINITION. MATCHROM, SKIPROM, READROM (spec/43_rom_addressing.md). -/

namespace Sys2Proof.Machine

/-- The common opening (43_rom_addressing.md R190): a reset; without presence nothing more is transmitted. -/
def addressed (body : M Response) : M Response := do
  let present ← resetBus
  if present then body else pure noPresenceResponse

/-- MATCHROM (43_rom_addressing.md R191). -/
def execMatchrom (rom : Rom) (s : State) : Host.Outcome State Fault Refusal :=
  .next (finish (addressed (do
    writeByte 0x55
    writeBytes (romBytes rom)
    pure okResponse)) s)

/-- SKIPROM (43_rom_addressing.md R192). -/
def execSkiprom (s : State) : Host.Outcome State Fault Refusal :=
  .next (finish (addressed (do
    writeByte 0xCC
    pure okResponse)) s)

/-- Eight bytes read, the first in `acc.byte[0]` (43_rom_addressing.md R193). -/
def readRomBytes : M Rom := do
  let bytes ← readBytes 8
  pure (romOfBytes bytes)

/-- READROM's response to the code read (43_rom_addressing.md R193). -/
def readromResponse (acc : Rom) : Response := ⟨if romValid acc then .ok else .crcMismatch, 0, acc⟩

/-- READROM (43_rom_addressing.md R193). -/
def execReadrom (s : State) : Host.Outcome State Fault Refusal :=
  .next (finish (addressed (do
    writeByte 0x33
    let acc ← readRomBytes
    pure (readromResponse acc))) s)

end Sys2Proof.Machine
end

