-- ==== Sys2Proof/Machine/Search.lean ====
section
/-! DEFINITION. The ROM search pass, SEARCH and SCAN (spec/42_rom_search.md), and ASEARCH, ASCAN (spec/30_encoding.md
R103). -/

namespace Sys2Proof.Machine

/-- The working registers a pass carries from position to position (10_state.md R35; log 6). -/
structure Work where
  crcAcc : Byte
  lastZero : BitVec 7
  lastZeroFam : BitVec 4
  deriving DecidableEq, Repr

/-- Their values at the start of step 4 (42_rom_search.md R163). -/
def Work.init : Work := ⟨0, 0, 0⟩

/-- The outcomes of a pass (42_rom_search.md R162). -/
inductive Outcome where
  | found (rom : Rom)
  | tableFull (rom : Rom)
  | exhausted
  | noDevices
  | busError
  | crcMismatch
  | timeout
  deriving DecidableEq, Repr

/-- The branch at position `p` after two reads that are not both 1 (42_rom_search.md R161, R168), with `n = p + 1`. -/
def branch (s : State) (p : Nat) (idBit cmpBit : Bool) : Bool :=
  if idBit != cmpBit then idBit
  else if p + 1 < s.lastDiscrepancy.toNat then s.scratchBit p
  else decide (p + 1 = s.lastDiscrepancy.toNat)

/-- The working registers after position `p`: the candidate recorded at every discrepancy where 0 is taken
(42_rom_search.md R169), and the CRC over positions 0 to 55 (R171). -/
def Work.record (w : Work) (p : Nat) (idBit cmpBit dir : Bool) : Work where
  crcAcc := if p ≤ 55 then crc8Bit w.crcAcc dir else w.crcAcc
  lastZero := if idBit == cmpBit && !dir then BitVec.ofNat 7 (p + 1) else w.lastZero
  lastZeroFam := if idBit == cmpBit && !dir && decide (p + 1 ≤ 8) then BitVec.ofNat 4 (p + 1) else w.lastZeroFam

/-- One position of step 4 (42_rom_search.md R163, R167 to R172); `none` is a bus error. -/
def searchPosition (p : Nat) (w : Work) : M (Option Work) := do
  let idBit ← readBit
  let cmpBit ← readBit
  if idBit && cmpBit then
    pure none
  else
    let s ← look
    let dir := branch s p idBit cmpBit
    update (·.storeScratchBit p dir)
    writeBit dir
    pure (some (w.record p idBit cmpBit dir))

/-- The last `k` of the 64 positions, from `64 - k` to 63. -/
def searchLoop : Nat → Work → M (Option Work)
  | 0, w => pure (some w)
  | k + 1, w => do
    match ← searchPosition (63 - k) w with
    | none => pure none
    | some w' => searchLoop k w'

/-- Step 6 (42_rom_search.md R174). -/
def State.recordSearch (s : State) (w : Work) : State :=
  s.setSearch w.lastZero
    (if w.lastZeroFam ≠ 0 then w.lastZeroFam else s.lastFamilyDiscrepancy)
    (if w.lastZero = 0 then true else s.lastDeviceFlag)

/-- Steps 5 to 7 (42_rom_search.md R173, R174, R176): the outcome and the state. -/
def closePass (w : Work) (s : State) : Outcome × State :=
  if w.crcAcc ≠ readByteAt s.store 7 then (.crcMismatch, s)
  else
    let s' := s.recordSearch w
    if s'.deviceCount.toNat < s'.cfg.maxDevices then (.found s'.scratch, s'.append s'.scratch)
    else (.tableFull s'.scratch, s'.setMore)

/-- Steps 1 to 7, a TIMEOUT still raised (42_rom_search.md R163). -/
def passBody (alarm : Bool) : M Outcome := do
  let s ← look
  if s.lastDeviceFlag then
    pure .exhausted
  else
    let present ← resetBus
    if present then
      writeByte (searchCommand s.cfg alarm)
      match ← searchLoop 64 Work.init with
      | none => pure .busError
      | some w => fun s => .ok (closePass w s).1 (closePass w s).2
    else
      update (·.setCount 0)
      pure .noDevices

/-- `SearchPass(mode)` (42_rom_search.md R163): "raise TIMEOUT ends the pass: return Timeout". -/
def searchPass (alarm : Bool) : M Outcome := fun s =>
  match passBody alarm s with
  | .error .timeout s' => .ok .timeout s'
  | r => r

/-- SEARCH's response to an outcome (42_rom_search.md R177). -/
def searchResponse (count : Byte) : Outcome → Response
  | .found rom => ⟨.ok, count, rom⟩
  | .tableFull rom => ⟨.tableFull, count, rom⟩
  | .exhausted => ⟨.searchExhausted, count, 0⟩
  | .noDevices => ⟨.noPresence, count, 0⟩
  | .busError => ⟨.busError, count, 0⟩
  | .crcMismatch => ⟨.crcMismatch, count, 0⟩
  | .timeout => ⟨.timeout, count, 0⟩

/-- SEARCH's computation, shared with ASEARCH. -/
def searchCommandBody (alarm : Bool) : M Response := do
  let o ← searchPass alarm
  let s ← look
  pure (searchResponse s.deviceCount o)

/-- SEARCH (42_rom_search.md R177). -/
def execSearch (alarm : Bool) (s : State) : Host.Outcome State Fault Refusal :=
  .next (finish (searchCommandBody alarm) s)

/-- SCAN's response to an outcome, or none where the loop goes on (42_rom_search.md R178). -/
def scanResponse (count : Byte) : Outcome → Option Response
  | .found _ => none
  | .crcMismatch => none
  | .exhausted => some ⟨.ok, count, 0⟩
  | .noDevices => some ⟨.noPresence, count, 0⟩
  | .tableFull rom => some ⟨.tableFull, count, rom⟩
  | .busError => some ⟨.busError, count, 0⟩
  | .timeout => some ⟨.timeout, count, 0⟩

/-- SCAN's opening: at its first line `ClearState()`, at the head of its loop nothing. -/
def scanOpening : M Unit := do
  let s ← look
  if s.point = .start then
    tick
    update State.clear
  else
    pure ()

/-- SCAN up to the end of its next pass. -/
def scanPass (alarm : Bool) : M Outcome := do
  scanOpening
  searchPass alarm

/-- One pass of SCAN (42_rom_search.md R178, R179): it responds, or stands at the head of its loop with `busy = 1` and goes on
in the next step. There is no cap. -/
def scanStep (alarm : Bool) (s : State) : State :=
  match scanPass alarm s with
  | .ok o s' =>
    match scanResponse s'.deviceCount o with
    | none => s'.setPoint .scanLoop
    | some r => deliver r s'
  | .error _ s' => s'

/-- SCAN (42_rom_search.md R178). -/
def execScan (alarm : Bool) (s : State) : Host.Outcome State Fault Refusal := .next (scanStep alarm s)

/-- ASEARCH is `SEARCH 1` (30_encoding.md R103). -/
def execAsearch (s : State) : Host.Outcome State Fault Refusal := .next (finish (searchCommandBody true) s)

/-- ASCAN is `SCAN 1` (30_encoding.md R103). -/
def execAscan (s : State) : Host.Outcome State Fault Refusal := .next (scanStep true s)

end Sys2Proof.Machine
end

