-- ==== Sys2Proof/Machine/StateAccess.lean ====
section
/-! DEFINITION. CLRSTATE, GETSTATE, GETSCR, GETDEV, unassigned codes (spec/44_state_access.md), and CRC8 (spec/41_crc8.md
R155). None of them produces a channel event. -/

namespace Sys2Proof.Machine

/-- CLRSTATE (44_state_access.md R201). -/
def execClrstate (s : State) : Host.Outcome State Fault Refusal :=
  .next (finish (do
    tick
    update State.clear
    pure okResponse) s)

/-- CRC8's response (41_crc8.md R155). -/
def crc8Response (rom : Rom) : Response := ⟨if romValid rom then .ok else .crcMismatch, romCrc rom, 0⟩

/-- CRC8 (41_crc8.md R155). -/
def execCrc8 (rom : Rom) (s : State) : Host.Outcome State Fault Refusal := .next (deliver (crc8Response rom) s)

/-- GETSTATE's response (44_state_access.md R203). -/
def State.statusResponse (s : State) : Response := ⟨.ok, s.deviceCount, s.statusRom⟩

/-- GETSTATE (44_state_access.md R203). -/
def execGetstate (s : State) : Host.Outcome State Fault Refusal :=
  .next (finish (do
    tick
    let s ← look
    pure s.statusResponse) s)

/-- GETSCR (44_state_access.md R204). -/
def execGetscr (s : State) : Host.Outcome State Fault Refusal := .next (deliver ⟨.ok, 0, s.scratch⟩ s)

/-- GETDEV (44_state_access.md R205). The fault is log 15. -/
def execGetdev (k : Byte) (s : State) : Host.Outcome State Fault Refusal :=
  if k.toNat < s.deviceCount.toNat then
    if entryAddr k.toNat + 8 ≤ storeSize s.cfg then .next (deliver ⟨.ok, k, s.entry k.toNat⟩ s)
    else .fault (.outsideLocalStore (entryAddr k.toNat))
  else .next (deliver ⟨.indexRange, s.deviceCount, 0⟩ s)

/-- A request with an unassigned code (44_state_access.md R206, 30_encoding.md R96). -/
def execUnassigned (_op : Byte) (s : State) : Host.Outcome State Fault Refusal :=
  .next (deliver ⟨.illegalCommand, 0, 0⟩ s)

end Sys2Proof.Machine
end

