-- ==== Sys2Proof/Machine/Dispatch.lean ====
section
/-! DEFINITION. One arm per instruction. -/

namespace Sys2Proof.Machine

def exec (i : Instr) (s : State) : Host.Outcome State Fault Refusal :=
  match i with
  | .reset => Sys2Proof.Machine.execReset s
  | .wrbit bit => Sys2Proof.Machine.execWrbit bit s
  | .rdbit => Sys2Proof.Machine.execRdbit s
  | .wrbyte byte => Sys2Proof.Machine.execWrbyte byte s
  | .rdbyte => Sys2Proof.Machine.execRdbyte s
  | .search alarm => Sys2Proof.Machine.execSearch alarm s
  | .scan alarm => Sys2Proof.Machine.execScan alarm s
  | .matchrom rom => Sys2Proof.Machine.execMatchrom rom s
  | .skiprom => Sys2Proof.Machine.execSkiprom s
  | .readrom => Sys2Proof.Machine.execReadrom s
  | .clrstate => Sys2Proof.Machine.execClrstate s
  | .crc8 rom => Sys2Proof.Machine.execCrc8 rom s
  | .getstate => Sys2Proof.Machine.execGetstate s
  | .getdev index => Sys2Proof.Machine.execGetdev index s
  | .getscr => Sys2Proof.Machine.execGetscr s
  | .unassigned op => Sys2Proof.Machine.execUnassigned op s
  | .asearch => Sys2Proof.Machine.execAsearch s
  | .ascan => Sys2Proof.Machine.execAscan s
  | .wr0 => Sys2Proof.Machine.execWr0 s
  | .wr1 => Sys2Proof.Machine.execWr1 s
  | .wSearchRom => Sys2Proof.Machine.execWSearchRom s
  | .wAlarmSearch => Sys2Proof.Machine.execWAlarmSearch s
  | .wSkipRom => Sys2Proof.Machine.execWSkipRom s
  | .wReadRom => Sys2Proof.Machine.execWReadRom s
  | .wMatchRom => Sys2Proof.Machine.execWMatchRom s
  | .sResetPulse => Sys2Proof.Machine.execSResetPulse s
  | .sProbe => Sys2Proof.Machine.execSProbe s
  | .sWrite0 => Sys2Proof.Machine.execSWrite0 s
  | .sWrite1 => Sys2Proof.Machine.execSWrite1 s
  | .sRead => Sys2Proof.Machine.execSRead s

end Sys2Proof.Machine
end

