-- ==== Sys2Proof/Machine/Step.lean ====
section
/-! DEFINITION. One step of the machine (spec/10_state.md R33, R36), and the placing of a request. -/

namespace Sys2Proof.Machine

/-- While a command runs (`busy = 1`) a step runs the latched request: the whole command to its response, or, for SCAN, up to
the end of its next pass. While the block is idle a step is the moves of the others and the acceptance of a request the
host presents. -/
def step (s : State) : Host.Outcome State Fault Refusal :=
  if s.busy then exec (decode s.req) s else .next (idleStep s)

/-- The state in which the word has just been accepted (log 2): latched, `busy`, the command at its start. -/
def State.withFetchWord (s : State) (nbits w : Nat) : State :=
  { s with req := wordOfBytes (tableBytes nbits w), busy := true, point := .start }

end Sys2Proof.Machine
end

