-- ==== Sys2Proof/Safety.lean ====
section
/-! DEFINITION. The terms claims are stated in: the invariant of the machine (spec/10_state.md R40), what a command leaves
unchanged, what it put on the channel, and the environments claims speak of. -/

namespace Sys2Proof.Machine

/-! ### The invariant -/

/-- The invariants of 10_state.md R40, with the constraints on the parameters (00_scope.md R5), the canonical form and the
bounds of the local store (20_memory.md R50, R53), what `point` says of the command (10_state.md R36), and, where SimBus is the
environment, the ranges of its state (20_memory.md R70). -/
structure StateInv (s : State) : Prop where
  cfg_wf : s.cfg.wf = true
  count_le : s.deviceCount.toNat ≤ s.cfg.maxDevices
  discrepancy_le : s.lastDiscrepancy.toNat ≤ 64
  family_le : s.lastFamilyDiscrepancy.toNat ≤ 8
  last_device : s.lastDeviceFlag = true → s.lastDiscrepancy = 0
  entries_valid : ∀ k < s.deviceCount.toNat, romValid (s.entry k) = true
  store_wf : Memory.wf s.store = true
  store_bounded : ∀ c ∈ s.store, c.1 < storeSize s.cfg
  in_loop : s.point = .scanLoop → s.busy = true ∧ ∃ alarm, decode s.req = .scan alarm
  sim_wf : s.sim.all SimBus.wf = true

/-! ### Environments -/

/-- The reset input is not asserted as far as the tape says. -/
def State.live (s : State) : Prop := Move.reset ∉ s.tape

/-- SimBus is the environment, prompt (20_memory.md R60, R70), with parameters under which presence can be told
(93_implementation_defined.md U14), and no echo of an earlier transmit is in flight. -/
structure PromptSimBus (s : State) (sb : SimBus) : Prop where
  sim_eq : s.sim = some sb
  tape_nil : s.tape = []
  none_in_flight : s.inFlight = []
  cfg_wf : s.cfg.wf = true
  pull_reads_zero : (0xFF : Byte) &&& sb.pull ≠ 0xFF
  pull_shows_presence : s.cfg.probeByte &&& sb.pull ≠ s.cfg.probeByte

/-- How one wait goes: "a draw between the two outcomes" (40_codec.md R122). `echo k v`: `k` polls find nothing, then `v` is
deposited; `expired`: every poll finds nothing. -/
inductive Draw where
  | echo (k : Nat) (v : Byte)
  | expired
  deriving DecidableEq, Repr

/-- The draw is one the poll bound admits. -/
def Draw.admits (T : Nat) : Draw → Prop
  | .echo k _ => k < T
  | .expired => True

/-- The moves of one transmit and its wait. -/
def Draw.moves (T : Nat) : Draw → List Move
  | .echo k v => .master :: (List.replicate k .master ++ [.deposit v, .master])
  | .expired => .master :: List.replicate T .master

/-- The trace of one transmit of `b` and its wait, newest first. -/
def Draw.events (b : Byte) : Draw → List Action → List Action
  | .echo _ v, tr => .echo v :: .tx b :: tr
  | .expired, tr => .tx b :: tr

/-- What the wait ends with. -/
def Draw.wait : Draw → Wait
  | .echo _ v => .echo v
  | .expired => .timedOut

/-- The moves of several transmits in a row. -/
def drawMoves (T : Nat) (ds : List Draw) : List Move := ds.flatMap (Draw.moves T)

/-- The trace of several transmits, each with its draw. -/
def drawEvents : List (Byte × Draw) → List Action → List Action
  | [], tr => tr
  | (b, d) :: r, tr => drawEvents r (d.events b tr)

/-- Waits that all end with an echo: after how many polls, and which. -/
def echoDraws (kv : List (Nat × Byte)) : List Draw := kv.map fun x => .echo x.1 x.2

/-- The trace of write slots. -/
def writeEvents (bits : List Bool) (ds : List Draw) (tr : List Action) : List Action :=
  drawEvents ((bits.map slotByte).zip ds) tr

/-- The trace of read slots. -/
def readEvents (ds : List Draw) (tr : List Action) : List Action := drawEvents (ds.map fun d => (0xFF, d)) tr

/-- The moves of a bus reset whose two waits go as `d1` and `d2` (40_codec.md R123): after an expired first wait no probe is
sent. -/
def resetMoves (T : Nat) (d1 d2 : Draw) : List Move :=
  .master :: (d1.moves T ++ .master :: (match d1 with
    | .expired => []
    | .echo _ _ => d2.moves T))

/-- The trace of that bus reset. -/
def resetEvents (c : Config) (d1 d2 : Draw) (tr : List Action) : List Action :=
  let tr1 := .baud .slot :: d1.events c.resetByte (.baud .reset :: tr)
  match d1 with
  | .expired => tr1
  | .echo _ _ => d2.events c.probeByte tr1

/-- The result of that bus reset: `none` for TIMEOUT, else whether there is presence (40_codec.md R123). -/
def resetResult (c : Config) (d1 d2 : Draw) : Option Bool :=
  match d1, d2 with
  | .echo _ _, .echo _ v => some (v != c.probeByte)
  | _, _ => none

/-! ### Kinds of instruction -/

/-- A request of the host: the commands of 30_encoding.md R93, R96, and their second spellings (R103). -/
def isRequest (i : Instr) : Bool := i.layer == .host || i.layer == .pseudo

/-- SCAN, in either spelling. -/
def isScan : Instr → Bool
  | .scan _ => true
  | .ascan => true
  | _ => false

/-- The requests that neither search nor clear: RESET, WRBIT, RDBIT, WRBYTE, RDBYTE, MATCHROM, SKIPROM, READROM, CRC8, GETSTATE,
GETDEV, GETSCR, unassigned codes, WR0, WR1. -/
def keepsBusState : Instr → Bool
  | .reset | .wrbit _ | .rdbit | .wrbyte _ | .rdbyte | .matchrom _ | .skiprom | .readrom | .crc8 _ | .getstate
  | .getdev _ | .getscr | .unassigned _ | .wr0 | .wr1 => true
  | .search _ | .scan _ | .clrstate | .asearch | .ascan => false
  | .wSearchRom | .wAlarmSearch | .wSkipRom | .wReadRom | .wMatchRom => false
  | .sResetPulse | .sProbe | .sWrite0 | .sWrite1 | .sRead => false

/-! ### The host's port -/

/-- Another content of the host's request port. -/
def State.setPending (s : State) (p : List HostWord) : State := { s with pending := p }

/-! ### A search pass, in terms of what the master reads -/

/-- The branch taken at position `p` on reading the pair `a` in a pass begun in `s` (42_rom_search.md R161, R168): the
true bit where the reads differ, else the branch of the previous pass, a forced 1, or 0. -/
def State.chosen (s : State) (p : Nat) (a : Bool × Bool) : Bool :=
  if a.1 != a.2 then a.1
  else if p + 1 < s.lastDiscrepancy.toNat then s.scratch.getLsbD p
  else p + 1 == s.lastDiscrepancy.toNat

/-- The highest `n = p + 1` among the first `k` positions at which the reads were 0, 0 and 0 was taken, 0 where there is
none (42_rom_search.md R169, R174). -/
def lastOpen (r : Rom) (as : Nat → Bool × Bool) : Nat → Nat
  | 0 => 0
  | k + 1 => if as k = (false, false) ∧ r.getLsbD k = false then k + 1 else lastOpen r as k

/-- What a pass of 64 positions leaves when it read the pairs `as` and took the branches `r` (42_rom_search.md R170, R173,
R174, R176). -/
structure PassEffect (s : State) (r : Rom) (as : Nat → Bool × Bool) (t : State) : Prop where
  fixed : t.cfg = s.cfg ∧ t.req = s.req ∧ t.pending = s.pending ∧ t.slot = s.slot
  scratch : t.scratch = r
  lastDiscrepancy : t.lastDiscrepancy.toNat =
    if romValid r then lastOpen r as 64 else s.lastDiscrepancy.toNat
  lastFamilyDiscrepancy : t.lastFamilyDiscrepancy.toNat =
    if romValid r = true ∧ lastOpen r as 8 ≠ 0 then lastOpen r as 8 else s.lastFamilyDiscrepancy.toNat
  lastDeviceFlag : t.lastDeviceFlag = (s.lastDeviceFlag || (romValid r && lastOpen r as 64 == 0))
  hasMoreDevices : t.hasMoreDevices =
    (s.hasMoreDevices || (romValid r && decide (s.cfg.maxDevices ≤ s.deviceCount.toNat)))
  deviceCount : t.deviceCount =
    if romValid r = true ∧ s.deviceCount.toNat < s.cfg.maxDevices then s.deviceCount + 1 else s.deviceCount
  entry : romValid r = true → s.deviceCount.toNat < s.cfg.maxDevices → t.entry s.deviceCount.toNat = r
  others : ∀ a, 8 ≤ a →
    ¬ (romValid r = true ∧ s.deviceCount.toNat < s.cfg.maxDevices ∧
      entryAddr s.deviceCount.toNat ≤ a ∧ a < entryAddr s.deviceCount.toNat + 8) →
    readByteAt t.store a = readByteAt s.store a

/-- The outcome of that pass (42_rom_search.md R173, R176). -/
def passOutcome (s : State) (r : Rom) : Outcome :=
  if romValid r then
    if s.deviceCount.toNat < s.cfg.maxDevices then .found r else .tableFull r
  else .crcMismatch

/-- SEARCH's response to that pass (42_rom_search.md R177): `val` is `deviceCount` after it. -/
def passResponse (s : State) (r : Rom) : Response :=
  if romValid r then
    if s.deviceCount.toNat < s.cfg.maxDevices then ⟨.ok, s.deviceCount + 1, r⟩ else ⟨.tableFull, s.deviceCount, r⟩
  else ⟨.crcMismatch, s.deviceCount, 0⟩

/-- How the three slots of one position go: the echo of each read, after how many polls, and the wait of the write. -/
structure PositionDraws where
  id : Nat × Byte
  cmp : Nat × Byte
  wr : Draw
  deriving DecidableEq, Repr

/-- The waits are ones the poll bound admits. -/
def PositionDraws.admits (T : Nat) (x : PositionDraws) : Prop := x.id.1 < T ∧ x.cmp.1 < T ∧ x.wr.admits T

/-- The moves of one position's two reads. -/
def PositionDraws.readMoves (T : Nat) (x : PositionDraws) : List Move :=
  (Draw.echo x.id.1 x.id.2).moves T ++ (Draw.echo x.cmp.1 x.cmp.2).moves T

/-- The moves of one position. -/
def PositionDraws.moves (T : Nat) (x : PositionDraws) : List Move := x.readMoves T ++ x.wr.moves T

/-- The pair the master reads at it (40_codec.md R125). -/
def PositionDraws.reads (x : PositionDraws) : Bool × Bool := (x.id.2 == 0xFF, x.cmp.2 == 0xFF)

/-- The pairs read at the positions of a script; past its end 0, 0. -/
def readsOf (xs : List PositionDraws) (p : Nat) : Bool × Bool := (xs.map PositionDraws.reads).getD p (false, false)

/-- The moves of the reset, of the ROM command byte and of the positions of `xs`. -/
def passMoves (T : Nat) (d1 d2 : Draw) (ds : List Draw) (xs : List PositionDraws) : List Move :=
  resetMoves T d1 d2 ++ (drawMoves T ds ++ xs.flatMap (PositionDraws.moves T))

/-- The bytes a pass sends over `n` positions at which it takes the branches `r` (42_rom_search.md R166, R172). -/
def passBytes (c : Config) (alarm : Bool) (r : Rom) (n : Nat) : List Byte :=
  [c.resetByte, c.probeByte] ++ (bitsOfByte (searchCommand c alarm)).map slotByte ++
    (List.range n).flatMap fun p => [0xFF, 0xFF, slotByte (r.getLsbD p)]

/-- Bits 0 to `p - 1` of the device's code are those of `r`: the device still takes part at position `p` (20_memory.md
R75). -/
def Device.agrees (d : Device) (r : Rom) (p : Nat) : Bool := (List.range p).all fun q => d.bit q == r.getLsbD q

/-- The devices of `P` that still take part at position `p` of a pass that takes the branches `r`. -/
def remaining (P : List Device) (r : Rom) (p : Nat) : List Device := P.filter fun d => d.agrees r p

/-- What the master reads at position `p` of that pass (20_memory.md R75). -/
def simReads (P : List Device) (r : Rom) (p : Nat) : Bool × Bool :=
  ((remaining P r p).all fun d => d.bit p, (remaining P r p).all fun d => !d.bit p)

/-- The devices that answer a search (20_memory.md R74): all, or the alarmed ones. -/
def participants (sb : SimBus) (alarm : Bool) : List Device :=
  if alarm then sb.devs.filter (·.alarmed) else sb.devs

/-- `r` comes before `r'` in the order of enumeration: position 0 is the most significant digit (42_rom_search.md R175). -/
def codeBefore (r r' : Rom) : Prop :=
  ∃ p < 64, (∀ q < p, r.getLsbD q = r'.getLsbD q) ∧ r.getLsbD p = false ∧ r'.getLsbD p = true

/-! ### The trace -/

/-- The events the master put on the channel, newest first. -/
def outputs : List Action → List Action
  | [] => []
  | .baud r :: tr => .baud r :: outputs tr
  | .tx b :: tr => .tx b :: outputs tr
  | .echo _ :: tr => outputs tr
  | .rsp _ :: tr => outputs tr

/-- The bytes transmitted, newest first. -/
def sent : List Action → List Byte
  | [] => []
  | .tx b :: tr => b :: sent tr
  | .baud _ :: tr => sent tr
  | .echo _ :: tr => sent tr
  | .rsp _ :: tr => sent tr

/-- The bytes transmitted, oldest first. -/
def sentInOrder (tr : List Action) : List Byte := (sent tr).reverse

/-- The values deposited, newest first. -/
def deposited : List Action → List Byte
  | [] => []
  | .echo v :: tr => v :: deposited tr
  | .baud _ :: tr => deposited tr
  | .tx _ :: tr => deposited tr
  | .rsp _ :: tr => deposited tr

/-- The responses, newest first. -/
def responses : List Action → List HostWord
  | [] => []
  | .rsp w :: tr => w :: responses tr
  | .baud _ :: tr => responses tr
  | .tx _ :: tr => responses tr
  | .echo _ :: tr => responses tr

/-! ### What a command leaves unchanged, and what it sends -/

/-- The part of the state no channel primitive touches: everything but the mailbox, the surroundings and the trace. -/
structure Same (s t : State) : Prop where
  cfg : t.cfg = s.cfg
  lastDiscrepancy : t.lastDiscrepancy = s.lastDiscrepancy
  lastFamilyDiscrepancy : t.lastFamilyDiscrepancy = s.lastFamilyDiscrepancy
  lastDeviceFlag : t.lastDeviceFlag = s.lastDeviceFlag
  hasMoreDevices : t.hasMoreDevices = s.hasMoreDevices
  deviceCount : t.deviceCount = s.deviceCount
  store : t.store = s.store
  busy : t.busy = s.busy
  req : t.req = s.req
  point : t.point = s.point
  slot : t.slot = s.slot
  pending : t.pending = s.pending

/-- The block as hardware reset leaves it (10_state.md R39, 70_reset_and_hazards.md R240): idle, every field of `BusState` and
every byte of the local store 0. -/
structure InResetState (t : State) : Prop where
  idle : t.busy = false
  echoBuffer : t.echoBuffer = 0
  echoReady : t.echoReady = false
  lastDiscrepancy : t.lastDiscrepancy = 0
  lastFamilyDiscrepancy : t.lastFamilyDiscrepancy = 0
  lastDeviceFlag : t.lastDeviceFlag = false
  hasMoreDevices : t.hasMoreDevices = false
  deviceCount : t.deviceCount = 0
  store : ∀ a, readByteAt t.store a = 0

/-- The state `s` answered with `r` and nothing else changed: idle, the response on the trace, `rest` left of the tape. -/
def State.answeredWith (s : State) (rest : List Move) (r : Response) : State :=
  { s with tape := rest, busy := false, point := .start, trace := .rsp r.word :: s.trace }

/-- The command has ended with the one response `r` (10_state.md R34). -/
structure Responded (s : State) (r : Response) (t : State) : Prop where
  idle : t.busy = false
  response : responses t.trace = r.word :: responses s.trace

/-- SCAN goes on: busy as before, at the head of its loop, nobody answered. -/
structure GoesOn (s t : State) : Prop where
  busy : t.busy = s.busy
  point : t.point = .scanLoop
  response : responses t.trace = responses s.trace

/-- `BusState` but the mailbox, the device table, and the fields no command writes. `store` equal means that every byte of
the local store reads as before. -/
structure SameBusState (s t : State) : Prop where
  cfg : t.cfg = s.cfg
  lastDiscrepancy : t.lastDiscrepancy = s.lastDiscrepancy
  lastFamilyDiscrepancy : t.lastFamilyDiscrepancy = s.lastFamilyDiscrepancy
  lastDeviceFlag : t.lastDeviceFlag = s.lastDeviceFlag
  hasMoreDevices : t.hasMoreDevices = s.hasMoreDevices
  deviceCount : t.deviceCount = s.deviceCount
  store : t.store = s.store
  req : t.req = s.req
  pending : t.pending = s.pending

/-- After channel events whose waits the tape decided: the block as before but for the mailbox, the rest of the tape, the
trace, the channel's rate, the mailbox consumed. -/
structure Drawn (s : State) (rest : List Move) (tr : List Action) (r : Option Baud) (t : State) : Prop where
  same : Same s t
  baud : t.baud = r
  tape : t.tape = rest
  trace : t.trace = tr
  ready : t.echoReady = false

/-- After such channel events and the response `r`: idle, the events and the response on the trace, `BusState` but the
mailbox and every byte of the local store as before. -/
structure Answered (s : State) (rest : List Move) (tr : List Action) (b : Option Baud) (r : Response) (t : State) :
    Prop where
  same : SameBusState s t
  slot : t.slot = s.slot
  idle : t.busy = false
  baud : t.baud = b
  tape : t.tape = rest
  trace : t.trace = .rsp r.word :: tr
  ready : t.echoReady = false

/-- The bytes the block ever transmits (30_encoding.md R100). -/
def symbolBytes (c : Config) : List Byte := [c.resetByte, c.probeByte, 0x00, 0xFF]

end Sys2Proof.Machine
end

