-- ==== Sys2Proof/Certificates/Slice0/Obligations.lean ====
section
/-! DEFINITION. The statements about the machine, for the provers. Where a statement says that the tape begins with certain moves,
it says how the other agents move during the command (00_scope.md R11): any such course of a command has a tape. -/

section
open Sys2Proof Sys2Proof.Machine

/-! ### Encoding -/

/-- 30_encoding.md R91, R93, R95: encoding an instruction and decoding the word gives the instruction back, through the bytes of
the word as well. -/
def Obligations.DecodeEncodeRoundTrip : Prop :=
  ∀ i : Instr, i.wellFormed = true →
    ∃ w, encode i = some w ∧ decode w = i ∧ decodeTableWord 80 w.toNat = some i

/-- 30_encoding.md R91, R93, R95: the fields of a request word, the command each code stands for with the operand it takes, whatever
the ignored fields hold; every other code is unassigned; every word is made of such fields. -/
def Obligations.RequestFieldsAndCodes : Prop :=
  (∀ (op arg : Byte) (rom : Rom), (reqWord op arg rom).extractLsb' 0 8 = op ∧
    (reqWord op arg rom).extractLsb' 8 8 = arg ∧ (reqWord op arg rom).extractLsb' 16 64 = rom ∧
    ∀ j < 8, (reqWord op arg rom).extractLsb' (16 + 8 * j) 8 = romByte rom j) ∧
  (∀ w : HostWord, ∃ op arg rom, w = reqWord op arg rom) ∧
  (∀ (arg : Byte) (rom : Rom),
    decode (reqWord 0x01 arg rom) = .reset ∧ decode (reqWord 0x02 arg rom) = .wrbit (arg.getLsbD 0) ∧
    decode (reqWord 0x03 arg rom) = .rdbit ∧ decode (reqWord 0x04 arg rom) = .wrbyte arg ∧
    decode (reqWord 0x05 arg rom) = .rdbyte ∧ decode (reqWord 0x06 arg rom) = .search (arg.getLsbD 0) ∧
    decode (reqWord 0x07 arg rom) = .scan (arg.getLsbD 0) ∧ decode (reqWord 0x08 arg rom) = .matchrom rom ∧
    decode (reqWord 0x09 arg rom) = .skiprom ∧ decode (reqWord 0x0A arg rom) = .readrom ∧
    decode (reqWord 0x0B arg rom) = .clrstate ∧ decode (reqWord 0x0C arg rom) = .crc8 rom ∧
    decode (reqWord 0x0D arg rom) = .getstate ∧ decode (reqWord 0x0E arg rom) = .getdev arg ∧
    decode (reqWord 0x0F arg rom) = .getscr) ∧
  (∀ (op arg : Byte) (rom : Rom), (op = 0x00 ∨ 0x10 ≤ op.toNat) → decode (reqWord op arg rom) = .unassigned op)

/-- 30_encoding.md R102: the request word of each line of assembler, unused fields 0. -/
def Obligations.AssemblerWords : Prop :=
  encode .reset = some 0x01 ∧ encode (.wrbit false) = some 0x02 ∧ encode (.wrbit true) = some 0x0102 ∧
  encode .rdbit = some 0x03 ∧ (∀ b, encode (.wrbyte b) = some (reqWord 0x04 b 0)) ∧ encode .rdbyte = some 0x05 ∧
  encode (.search false) = some 0x06 ∧ encode (.search true) = some 0x0106 ∧
  encode (.scan false) = some 0x07 ∧ encode (.scan true) = some 0x0107 ∧
  (∀ b0 b1 b2 b3 b4 b5 b6 b7 : Byte, encode (.matchrom (romOfBytes [b0, b1, b2, b3, b4, b5, b6, b7])) =
    some (b7 ++ b6 ++ b5 ++ b4 ++ b3 ++ b2 ++ b1 ++ b0 ++ (0x00 : Byte) ++ (0x08 : Byte))) ∧
  encode .skiprom = some 0x09 ∧ encode .readrom = some 0x0A ∧ encode .clrstate = some 0x0B ∧
  (∀ b0 b1 b2 b3 b4 b5 b6 b7 : Byte, encode (.crc8 (romOfBytes [b0, b1, b2, b3, b4, b5, b6, b7])) =
    some (b7 ++ b6 ++ b5 ++ b4 ++ b3 ++ b2 ++ b1 ++ b0 ++ (0x00 : Byte) ++ (0x0C : Byte))) ∧
  encode .getstate = some 0x0D ∧ (∀ k, encode (.getdev k) = some (reqWord 0x0E k 0)) ∧ encode .getscr = some 0x0F ∧
  decode 0x9E060504030201280008 = .matchrom (romOfBytes [0x28, 0x01, 0x02, 0x03, 0x04, 0x05, 0x06, 0x9E]) ∧
  decode 0x00000000000000004404 = .wrbyte 0x44

/-- 30_encoding.md R103: a pseudo-instruction has the word of its expansion, which decodes to the expansion, and its meaning. -/
def Obligations.PseudoInstructions : Prop :=
  (encode .asearch = encode (.search true) ∧ encode .ascan = encode (.scan true) ∧
    encode .wr0 = encode (.wrbit false) ∧ encode .wr1 = encode (.wrbit true)) ∧
  (decode 0x0106 = .search true ∧ decode 0x0107 = .scan true ∧ decode 0x02 = .wrbit false ∧
    decode 0x0102 = .wrbit true) ∧
  ∀ s : State, exec .asearch s = exec (.search true) s ∧ exec .ascan s = exec (.scan true) s ∧
    exec .wr0 s = exec (.wrbit false) s ∧ exec .wr1 s = exec (.wrbit true) s

/-- 30_encoding.md R92, R94: the fields of a response word and the nine result codes. -/
def Obligations.ResponseFieldsAndCodes : Prop :=
  (∀ r : Response, r.word.extractLsb' 0 8 = r.res.code ∧ r.word.extractLsb' 8 8 = r.val ∧
    r.word.extractLsb' 16 64 = r.rom ∧ ∀ j < 8, r.word.extractLsb' (16 + 8 * j) 8 = romByte r.rom j) ∧
  Result.code .ok = 0x00 ∧ Result.code .noPresence = 0x01 ∧ Result.code .timeout = 0x02 ∧
  Result.code .busError = 0x03 ∧ Result.code .crcMismatch = 0x04 ∧ Result.code .tableFull = 0x05 ∧
  Result.code .searchExhausted = 0x06 ∧ Result.code .illegalCommand = 0x07 ∧ Result.code .indexRange = 0x08 ∧
  ∀ r : Result, r.code.toNat ≤ 8

/-! ### The step, the host's port -/

/-- 10_state.md R33, R36: while a command runs, a step is the meaning of the instruction the latched word decodes to, at the state
as it stands; the word of a well-formed instruction, placed by `withFetchWord`, which only latches it (log 2), is run by the very
next step. -/
def Obligations.StepRunsRequest : Prop :=
  (∀ (s : State) (i : Instr), s.busy = true → decode s.req = i → step s = exec i s) ∧
  (∀ (s : State) (i : Instr) (w : HostWord), i.wellFormed = true → encode i = some w →
    s.withFetchWord 80 w.toNat = { s with req := w, busy := true, point := .start } ∧
    step (s.withFetchWord 80 w.toNat) = exec i (s.withFetchWord 80 w.toNat))

/-- 10_state.md R33: an idle block to which a request is presented latches it whole and is busy; with none presented it holds its
state; a running command takes no request. -/
def Obligations.Acceptance : Prop :=
  (∀ (s : State) (l : List Move), s.busy = false → s.tape = .master :: l →
    (∀ w ws, s.pending = w :: ws →
      step s = .next { s with tape := l, pending := ws, req := w, busy := true, point := .start }) ∧
    (s.pending = [] → step s = .next { s with tape := l })) ∧
  (∀ (i : Instr) (s t : State), exec i s = .next t → t.pending = s.pending ∧ (s.live → t.req = s.req))

/-- 20_memory.md R69: the request word is latched whole; the command runs on the latched copy, which it does not change; what the
host does to its request port while it runs has no effect on it. -/
def Obligations.RequestStable : Prop :=
  (∀ (s : State) (l : List Move) (w : HostWord) (ws : List HostWord), s.busy = false → s.tape = .master :: l →
    s.pending = w :: ws → ∃ t, step s = .next t ∧ t.req = w ∧ t.busy = true) ∧
  (∀ s : State, s.busy = true → step s = exec (decode s.req) s) ∧
  (∀ (i : Instr) (s : State) (p : List HostWord), exec i (s.setPending p) = match exec i s with
    | .next t => .next (t.setPending p)
    | .fault f => .fault f
    | .refused r => .refused r) ∧
  (∀ (i : Instr) (s t : State), s.live → exec i s = .next t → t.req = s.req)

/-- 10_state.md R34: a request ends with exactly one response word, produced in the step that makes the block idle. SCAN alone may
go on, a pass a step (log 1), `busy` as before and nobody answered. The reset input is not asserted. -/
def Obligations.OneResponse : Prop :=
  ∀ (i : Instr) (s : State), isRequest i = true → StateInv s → s.live →
    (isScan i = false → ∃ t r, exec i s = .next t ∧ Responded s r t) ∧
    (isScan i = true → ∃ t, exec i s = .next t ∧ ((∃ r, Responded s r t) ∨ GoesOn s t))

/-! ### Reset and the clear -/

/-- 10_state.md R39: every field after hardware reset and after `ClearState`, which leaves `busy`, `req`, the channel's rate and the
slaves as they are. Of `req` after reset nothing is said. -/
def Obligations.ResetAndClearValues : Prop :=
  (∀ c : Config, InResetState (State.resetWith c)) ∧
  (∀ s : State, InResetState s.hardReset) ∧
  (∀ s : State, Memory.wf s.store = true →
    s.clear.echoBuffer = 0 ∧ s.clear.echoReady = false ∧ s.clear.scratch = 0 ∧ s.clear.lastDiscrepancy = 0 ∧
    s.clear.lastFamilyDiscrepancy = 0 ∧ s.clear.lastDeviceFlag = false ∧ s.clear.hasMoreDevices = false ∧
    s.clear.deviceCount = 0 ∧ (∀ k < s.cfg.maxDevices, s.clear.entry k = 0) ∧
    s.clear.busy = s.busy ∧ s.clear.req = s.req ∧ s.clear.baud = s.baud ∧ s.clear.sim = s.sim)

/-- 70_reset_and_hazards.md R240, with the model's choices of log 14 (the reset falls between two atomic steps, the rest of the tape
stays ahead) and log 1 (a step of SCAN is one pass): the reset input ends a running command, if any, without a response, and leaves
the block in the reset state: when it comes first, whatever the request; and at any later point: either the command ends (or SCAN
ends a pass) with the reset still ahead, or the reset has ended it unanswered. An idle block is reset as well. -/
def Obligations.HardwareReset : Prop :=
  (∀ (i : Instr) (s : State) (l : List Move), StateInv s → isRequest i = true → s.tape = .reset :: l →
    ∃ t, exec i s = .next t ∧ InResetState t ∧ t.trace = s.trace) ∧
  (∀ (s : State) (l : List Move), s.busy = false → s.tape = .reset :: l →
    ∃ t, step s = .next t ∧ InResetState t ∧ t.trace = s.trace) ∧
  (∀ (i : Instr) (s t : State) (ms l : List Move), isRequest i = true → Move.reset ∉ ms → s.tape = ms ++ .reset :: l →
    exec i s = .next t →
    (((∃ r, Responded s r t) ∨ (isScan i = true ∧ GoesOn s t)) ∧ ∃ ms', t.tape = ms' ++ .reset :: l) ∨
      (InResetState t ∧ responses t.trace = responses s.trace ∧ t.tape = l))

/-- 70_reset_and_hazards.md R242: reset produces no channel event and reaches neither the rate, nor the slaves, nor an echo in
flight, which may still be deposited after it. -/
def Obligations.ResetReachesNothingElse : Prop :=
  ∀ (i : Instr) (s : State) (l : List Move), StateInv s → isRequest i = true → s.tape = .reset :: l →
    ∃ t, exec i s = .next t ∧ outputs t.trace = outputs s.trace ∧ t.baud = s.baud ∧ t.sim = s.sim ∧
      t.inFlight = s.inFlight ∧ t.tape = l ∧
      ∀ v vs l', t.inFlight = v :: vs → l = .echo :: .master :: l' → t.pending = [] →
        ∃ u, step t = .next u ∧ u.echoBuffer = v ∧ u.echoReady = true ∧ u.inFlight = vs

/-- 44_state_access.md R200, R201: CLRSTATE answers OK; every field of `BusState` and every byte of the local store is 0, nothing
else changes; a deposit after the clear sets the mailbox again. -/
def Obligations.ClrstateCommand : Prop :=
  ∀ (s : State) (rest : List Move) (d : Option Byte), Memory.wf s.store = true →
    s.tape = .master :: ((d.map Move.deposit).toList ++ .master :: rest) →
    ∃ t, exec .clrstate s = .next t ∧ Responded s ⟨.ok, 0, 0⟩ t ∧
      t.echoBuffer = d.getD 0 ∧ t.echoReady = d.isSome ∧
      t.lastDiscrepancy = 0 ∧ t.lastFamilyDiscrepancy = 0 ∧ t.lastDeviceFlag = false ∧ t.hasMoreDevices = false ∧
      t.deviceCount = 0 ∧
      (∀ a, readByteAt t.store a = if a < storeSize s.cfg then 0 else readByteAt s.store a) ∧
      outputs t.trace = outputs s.trace ∧ t.cfg = s.cfg ∧ t.req = s.req ∧ t.baud = s.baud ∧ t.sim = s.sim ∧
      t.inFlight = s.inFlight ∧ t.pending = s.pending ∧ t.slot = s.slot ∧ t.tape = rest

/-! ### The invariant -/

/-- 10_state.md R40, 20_memory.md R50, R53, R70: every step from a state that meets the invariant, reached or not, leaves one that does. -/
def Obligations.InvariantKept : Prop := ∀ s t : State, StateInv s → step s = .next t → StateInv t

/-- 10_state.md R39, R40, 20_memory.md R70: the invariant holds right after reset, for all parameters the spec allows, and with SimBus
attached as it starts: over the devices given, in phase `Idle`, the rate unknown. -/
def Obligations.InvariantAtReset : Prop :=
  (∀ c : Config, c.wf = true → StateInv (State.resetWith c)) ∧ StateInv State.reset ∧
  ∀ (c : Config) (devs : List Device) (pull : Byte), c.wf = true → pull ≠ 0xFF →
    StateInv ((State.resetWith c).attach devs pull) ∧
    ((State.resetWith c).attach devs pull).sim = some ⟨devs, .idle, pull⟩ ∧
    ((State.resetWith c).attach devs pull).baud = none

/-- 20_memory.md R53: under the invariant no instruction meets an address outside the local store, and none stops the machine. -/
def Obligations.NoInstructionStops : Prop :=
  ∀ s : State, StateInv s → (∀ i : Instr, ∃ t, exec i s = .next t) ∧ (∃ t, step s = .next t) ∧
    ∀ k < s.deviceCount.toNat, entryAddr k + 8 ≤ storeSize s.cfg

/-! ### What instructions leave unchanged -/

/-- 40_codec.md R133, 43_rom_addressing.md R190, 10_state.md R23: RESET, WRBIT, RDBIT, WRBYTE, RDBYTE, MATCHROM, SKIPROM, READROM,
CRC8, GETSTATE, GETDEV, GETSCR, unassigned codes, WR0 and WR1 leave every field of `BusState` but the mailbox and every byte of the
local store as they were. -/
def Obligations.CommandsThatKeepBusState : Prop :=
  ∀ (i : Instr) (s t : State), keepsBusState i = true → s.live → exec i s = .next t →
    SameBusState s t ∧ t.slot = s.slot ∧ ∀ a, readByteAt t.store a = readByteAt s.store a

/-- spec/44_state_access.md, opening ("None of the commands in this file produces a channel event"), 41_crc8.md R155: these commands
put nothing on the channel and leave its rate. -/
def Obligations.CommandsWithoutChannelEvents : Prop :=
  ∀ (i : Instr) (s t : State), (i = .clrstate ∨ i = .getstate ∨ i = .getscr ∨ (∃ k, i = .getdev k) ∨
      (∃ r, i = .crc8 r) ∨ ∃ op, i = .unassigned op) →
    exec i s = .next t → outputs t.trace = outputs s.trace ∧ t.baud = s.baud

/-- 30_encoding.md R98, R100 (log 9): the rows of layers W and S are parts of a command: they answer nobody and change nothing of the
block but the mailbox, a layer-S row its result as well. -/
def Obligations.LayerRowsKeepTheBlock : Prop :=
  ∀ (i : Instr) (s t : State), isRequest i = false → s.live → exec i s = .next t →
    SameBusState s t ∧ t.busy = s.busy ∧ t.point = s.point ∧ responses t.trace = responses s.trace ∧
    (i.layer = .romByte → t.slot = s.slot) ∧ ∀ a, readByteAt t.store a = readByteAt s.store a

/-- 42_rom_search.md R163: SEARCH, in either spelling, changes nothing of the local store but `romScratch` and, where `deviceCount`
has grown, the entry at the old count. -/
def Obligations.SearchFrame : Prop :=
  ∀ (i : Instr) (s t : State), (i = .asearch ∨ ∃ alarm, i = .search alarm) → s.live → exec i s = .next t →
    t.cfg = s.cfg ∧ t.req = s.req ∧ t.pending = s.pending ∧ t.slot = s.slot ∧
    ∀ a, 8 ≤ a → ¬ (t.deviceCount = s.deviceCount + 1 ∧ entryAddr s.deviceCount.toNat ≤ a ∧
        a < entryAddr s.deviceCount.toNat + 8) →
      readByteAt t.store a = readByteAt s.store a

/-- 42_rom_search.md R178: a pass of SCAN does as SEARCH from the state as it is, or, the first, from the cleared one. -/
def Obligations.ScanFrame : Prop :=
  ∀ (i : Instr) (s t : State), isScan i = true → Memory.wf s.store = true → s.live → exec i s = .next t →
    t.cfg = s.cfg ∧ t.req = s.req ∧ t.pending = s.pending ∧ t.slot = s.slot ∧
    (s.point = .scanLoop → ∀ a, 8 ≤ a → ¬ (t.deviceCount = s.deviceCount + 1 ∧
        entryAddr s.deviceCount.toNat ≤ a ∧ a < entryAddr s.deviceCount.toNat + 8) →
      readByteAt t.store a = readByteAt s.store a) ∧
    (s.point = .start → ∀ a, 8 ≤ a → ¬ (t.deviceCount = 1 ∧ a < 16) →
      readByteAt t.store a = if a < storeSize s.cfg then 0 else readByteAt s.store a)

/-! ### The codec -/

/-- 40_codec.md R122: a wait in which `k` polls find nothing, `k` less than the bound, and `v` is there at the next, gives `v` and
clears the flag; a wait whose polls all find nothing is timed out and leaves the mailbox as it is. -/
def Obligations.AwaitEchoOutcomes : Prop :=
  (∀ (s : State) (k : Nat) (v : Byte) (rest : List Move), k < s.cfg.readTimeout → s.echoReady = false →
    s.tape = List.replicate k .master ++ .deposit v :: .master :: rest →
    ∃ t, awaitEcho s = .ok (.echo v) t ∧ Drawn s rest (.echo v :: s.trace) s.baud t ∧ t.echoBuffer = v) ∧
  (∀ (s : State) (rest : List Move), 1 ≤ s.cfg.readTimeout → s.echoReady = true → s.tape = .master :: rest →
    awaitEcho s = .ok (.echo s.echoBuffer) { s with echoReady := false, tape := rest }) ∧
  (∀ (s : State) (rest : List Move), s.echoReady = false → s.tape = List.replicate s.cfg.readTimeout .master ++ rest →
    awaitEcho s = .ok .timedOut { s with tape := rest })

/-- 40_codec.md R121: the transmit drops a value never consumed and clears the flag in the same step; then the wait decides, and
every wait the poll bound admits can be the one. So for every byte, a write slot's, a read slot's or another. -/
def Obligations.XferOutcomes : Prop :=
  ∀ (s : State) (x : Sent) (d : Draw) (rest : List Move), d.admits s.cfg.readTimeout →
    s.tape = d.moves s.cfg.readTimeout ++ rest →
    ∃ t, xfer x s = .ok d.wait t ∧ Drawn s rest (d.events x.byte s.trace) s.baud t

/-- 40_codec.md R123, R128, 20_memory.md R73: RESET, for every course of its two waits: the rates and bytes in order, the rate left at
`BAUD_SLOT` on every path; presence iff the probe's echo differs from `PROBE_BYTE`; TIMEOUT where a wait expires. With SimBus: no
presence against no device, presence against some. -/
def Obligations.ResetCommand : Prop :=
  (∀ (s : State) (d1 d2 : Draw) (rest : List Move), d1.admits s.cfg.readTimeout → d2.admits s.cfg.readTimeout →
    s.tape = resetMoves s.cfg.readTimeout d1 d2 ++ .master :: rest →
    ∃ t, exec .reset s = .next t ∧ Answered s rest (resetEvents s.cfg d1 d2 s.trace) (some .slot)
      (match d1, d2 with
        | .expired, _ => ⟨.timeout, 0, 0⟩
        | _, .expired => ⟨.timeout, 0, 0⟩
        | .echo _ _, .echo _ v => if v ≠ s.cfg.probeByte then ⟨.ok, 1, 0⟩ else ⟨.noPresence, 0, 0⟩) t) ∧
  (∀ (s : State) (sb : SimBus), PromptSimBus s sb →
    ∃ t, exec .reset s = .next t ∧
      Responded s (if sb.devs.isEmpty then ⟨.noPresence, 0, 0⟩ else ⟨.ok, 1, 0⟩) t ∧
      PromptSimBus t { sb with phase := .cmd 0 0 })

/-- 40_codec.md R124, R129, 30_encoding.md R103: WRBIT, WR0 and WR1 send one slot at the rate the channel has and answer OK, echo or
none. -/
def Obligations.WriteBitCommands : Prop :=
  ∀ (s : State) (b : Bool) (d : Draw) (rest : List Move), d.admits s.cfg.readTimeout →
    s.tape = d.moves s.cfg.readTimeout ++ .master :: rest →
    ∃ t, exec (.wrbit b) s = .next t ∧ (b = false → exec .wr0 s = .next t) ∧ (b = true → exec .wr1 s = .next t) ∧
      Answered s rest (d.events (if b then 0xFF else 0x00) s.trace) s.baud ⟨.ok, 0, 0⟩ t

/-- 40_codec.md R125, R130: RDBIT sends 0xFF and answers 1 iff the echo is 0xFF, 0 for each other echo, TIMEOUT for none. -/
def Obligations.ReadBitCommand : Prop :=
  ∀ (s : State) (d : Draw) (rest : List Move), d.admits s.cfg.readTimeout →
    s.tape = d.moves s.cfg.readTimeout ++ .master :: rest →
    ∃ t, exec .rdbit s = .next t ∧ Answered s rest (d.events 0xFF s.trace) s.baud
      (match d with
        | .expired => ⟨.timeout, 0, 0⟩
        | .echo _ v => if v = 0xFF then ⟨.ok, 1, 0⟩ else ⟨.ok, 0, 0⟩) t

/-- 40_codec.md R126, R131: WRBYTE sends eight write slots, bit 0 first, and answers OK whatever the waits do. -/
def Obligations.WriteByteCommand : Prop :=
  ∀ (s : State) (b : Byte) (ds : List Draw) (rest : List Move), ds.length = 8 →
    (∀ d ∈ ds, d.admits s.cfg.readTimeout) → s.tape = drawMoves s.cfg.readTimeout ds ++ .master :: rest →
    ∃ t, exec (.wrbyte b) s = .next t ∧
      Answered s rest (drawEvents (((List.range 8).map fun i => if b.getLsbD i then (0xFF : Byte) else 0x00).zip ds) s.trace)
        s.baud ⟨.ok, 0, 0⟩ t

/-- 40_codec.md R127, R132: RDBYTE makes eight read slots, the first into bit 0; a wait that expires ends it at once with TIMEOUT, the
remaining slots unsent. -/
def Obligations.ReadByteCommand : Prop :=
  (∀ (s : State) (kv : List (Nat × Byte)) (c : Byte) (rest : List Move), kv.length = 8 →
    (∀ x ∈ kv, x.1 < s.cfg.readTimeout) → s.tape = drawMoves s.cfg.readTimeout (echoDraws kv) ++ .master :: rest →
    (∀ i < 8, c.getLsbD i = ((kv.map Prod.snd)[i]? == some 0xFF)) →
    ∃ t, exec .rdbyte s = .next t ∧
      Answered s rest (readEvents (echoDraws kv) s.trace) s.baud ⟨.ok, c, 0⟩ t) ∧
  (∀ (s : State) (kv : List (Nat × Byte)) (rest : List Move), kv.length < 8 →
    (∀ x ∈ kv, x.1 < s.cfg.readTimeout) →
    s.tape = drawMoves s.cfg.readTimeout (echoDraws kv ++ [.expired]) ++ .master :: rest →
    ∃ t, exec .rdbyte s = .next t ∧
      Answered s rest (readEvents (echoDraws kv ++ [.expired]) s.trace) s.baud ⟨.timeout, 0, 0⟩ t)

/-- 70_reset_and_hazards.md R247: a late echo deposited before the next transmit is dropped by it; one deposited after that transmit
and before its own echo is taken for it, and the true echo stays unconsumed. -/
def Obligations.LateEcho : Prop :=
  (∀ (s : State) (late : Byte) (d : Draw) (rest : List Move), d.admits s.cfg.readTimeout →
    s.tape = .deposit late :: (d.moves s.cfg.readTimeout ++ rest) →
    ∃ t, xfer .read s = .ok d.wait t ∧ Drawn s rest (d.events 0xFF (.echo late :: s.trace)) s.baud t) ∧
  (∀ (s : State) (late own : Byte) (rest : List Move), 1 ≤ s.cfg.readTimeout →
    s.tape = .master :: .deposit late :: .master :: .deposit own :: .master :: rest →
    ∃ t, exec .rdbit s = .next t ∧ Responded s ⟨.ok, if late = 0xFF then 1 else 0, 0⟩ t ∧
      t.echoReady = true ∧ t.echoBuffer = own)

/-! ### The ROM addressing commands -/

/-- 43_rom_addressing.md R191: MATCHROM: reset; without presence, or with a reset wait expired, NO_PRESENCE or TIMEOUT and nothing
more; with presence 0x55, the eight bytes of the code, family first, each bit 0 first, and OK whatever the 72 write slots meet. -/
def Obligations.MatchromCommand : Prop :=
  (∀ (s : State) (rom : Rom) (d1 d2 : Draw) (ds : List Draw) (rest : List Move), d1.admits s.cfg.readTimeout →
    d2.admits s.cfg.readTimeout → resetResult s.cfg d1 d2 = some true → ds.length = 72 →
    (∀ d ∈ ds, d.admits s.cfg.readTimeout) →
    s.tape = resetMoves s.cfg.readTimeout d1 d2 ++ (drawMoves s.cfg.readTimeout ds ++ .master :: rest) →
    ∃ t, exec (.matchrom rom) s = .next t ∧
      Answered s rest (writeEvents ((0x55 :: (List.range 8).map (romByte rom)).flatMap bitsOfByte) ds
        (resetEvents s.cfg d1 d2 s.trace)) (some .slot) ⟨.ok, 0, 0⟩ t) ∧
  (∀ (s : State) (rom : Rom) (d1 d2 : Draw) (rest : List Move), d1.admits s.cfg.readTimeout → d2.admits s.cfg.readTimeout →
    resetResult s.cfg d1 d2 ≠ some true → s.tape = resetMoves s.cfg.readTimeout d1 d2 ++ .master :: rest →
    ∃ t, exec (.matchrom rom) s = .next t ∧ Answered s rest (resetEvents s.cfg d1 d2 s.trace) (some .slot)
      (if resetResult s.cfg d1 d2 = some false then ⟨.noPresence, 0, 0⟩ else ⟨.timeout, 0, 0⟩) t)

/-- 43_rom_addressing.md R192: SKIPROM: reset; without presence, or with a reset wait expired, NO_PRESENCE or TIMEOUT and nothing more;
with presence 0xCC and OK. -/
def Obligations.SkipromCommand : Prop :=
  (∀ (s : State) (d1 d2 : Draw) (ds : List Draw) (rest : List Move), d1.admits s.cfg.readTimeout →
    d2.admits s.cfg.readTimeout → resetResult s.cfg d1 d2 = some true → ds.length = 8 →
    (∀ d ∈ ds, d.admits s.cfg.readTimeout) →
    s.tape = resetMoves s.cfg.readTimeout d1 d2 ++ (drawMoves s.cfg.readTimeout ds ++ .master :: rest) →
    ∃ t, exec .skiprom s = .next t ∧
      Answered s rest (writeEvents (bitsOfByte 0xCC) ds (resetEvents s.cfg d1 d2 s.trace)) (some .slot) ⟨.ok, 0, 0⟩ t) ∧
  (∀ (s : State) (d1 d2 : Draw) (rest : List Move), d1.admits s.cfg.readTimeout → d2.admits s.cfg.readTimeout →
    resetResult s.cfg d1 d2 ≠ some true → s.tape = resetMoves s.cfg.readTimeout d1 d2 ++ .master :: rest →
    ∃ t, exec .skiprom s = .next t ∧ Answered s rest (resetEvents s.cfg d1 d2 s.trace) (some .slot)
      (if resetResult s.cfg d1 d2 = some false then ⟨.noPresence, 0, 0⟩ else ⟨.timeout, 0, 0⟩) t)

/-- 43_rom_addressing.md R193: READROM: reset, with NO_PRESENCE or TIMEOUT and nothing more where it fails; 0x33, 64 reads in position
order; the code in `rom`, OK if its CRC is right and CRC_MISMATCH if not; a read that expires ends it with TIMEOUT and `rom` 0. -/
def Obligations.ReadromCommand : Prop :=
  (∀ (s : State) (d1 d2 : Draw) (ds : List Draw) (kv : List (Nat × Byte)) (rom : Rom) (rest : List Move),
    d1.admits s.cfg.readTimeout → d2.admits s.cfg.readTimeout → resetResult s.cfg d1 d2 = some true →
    ds.length = 8 → (∀ d ∈ ds, d.admits s.cfg.readTimeout) → kv.length = 64 →
    (∀ x ∈ kv, x.1 < s.cfg.readTimeout) → (∀ p < 64, rom.getLsbD p = ((kv.map Prod.snd)[p]? == some 0xFF)) →
    s.tape = resetMoves s.cfg.readTimeout d1 d2 ++ (drawMoves s.cfg.readTimeout ds ++
      (drawMoves s.cfg.readTimeout (echoDraws kv) ++ .master :: rest)) →
    ∃ t, exec .readrom s = .next t ∧
      Answered s rest (readEvents (echoDraws kv) (writeEvents (bitsOfByte 0x33) ds (resetEvents s.cfg d1 d2 s.trace)))
        (some .slot)
        ⟨if crc8 ((List.range 7).map (romByte rom)) = romByte rom 7 then .ok else .crcMismatch, 0, rom⟩ t) ∧
  (∀ (s : State) (d1 d2 : Draw) (ds : List Draw) (kv : List (Nat × Byte)) (rest : List Move),
    d1.admits s.cfg.readTimeout → d2.admits s.cfg.readTimeout → resetResult s.cfg d1 d2 = some true →
    ds.length = 8 → (∀ d ∈ ds, d.admits s.cfg.readTimeout) → kv.length < 64 →
    (∀ x ∈ kv, x.1 < s.cfg.readTimeout) →
    s.tape = resetMoves s.cfg.readTimeout d1 d2 ++ (drawMoves s.cfg.readTimeout ds ++
      (drawMoves s.cfg.readTimeout (echoDraws kv ++ [.expired]) ++ .master :: rest)) →
    ∃ t, exec .readrom s = .next t ∧
      Answered s rest (readEvents (echoDraws kv ++ [.expired])
        (writeEvents (bitsOfByte 0x33) ds (resetEvents s.cfg d1 d2 s.trace))) (some .slot) ⟨.timeout, 0, 0⟩ t) ∧
  (∀ (s : State) (d1 d2 : Draw) (rest : List Move), d1.admits s.cfg.readTimeout → d2.admits s.cfg.readTimeout →
    resetResult s.cfg d1 d2 ≠ some true → s.tape = resetMoves s.cfg.readTimeout d1 d2 ++ .master :: rest →
    ∃ t, exec .readrom s = .next t ∧ Answered s rest (resetEvents s.cfg d1 d2 s.trace) (some .slot)
      (if resetResult s.cfg d1 d2 = some false then ⟨.noPresence, 0, 0⟩ else ⟨.timeout, 0, 0⟩) t)

/-- 43_rom_addressing.md R190, R194: on every course of their waits MATCHROM, SKIPROM and READROM begin with a bus reset, `rate, RESET_BYTE`
first of all; what they answer and send does not depend on `romScratch`, the search registers, `deviceCount` or the table, and they
leave these as they were. -/
def Obligations.AddressingIgnoresTheSearch : Prop :=
  ∀ (s : State) (i : Instr) (ld : BitVec 7) (lfd : BitVec 4) (ldf more : Bool) (n : Byte) (m : List Host.Cell),
    (i = .skiprom ∨ i = .readrom ∨ ∃ rom, i = .matchrom rom) → s.live →
    ∃ t, exec i s = .next t ∧ SameBusState s t ∧
      exec i { s with
        lastDiscrepancy := ld
        lastFamilyDiscrepancy := lfd
        lastDeviceFlag := ldf
        hasMoreDevices := more
        deviceCount := n
        store := m } = .next { t with
        lastDiscrepancy := ld
        lastFamilyDiscrepancy := lfd
        lastDeviceFlag := ldf
        hasMoreDevices := more
        deviceCount := n
        store := m } ∧
      ∃ evs, outputs t.trace = evs ++ [.tx s.cfg.resetByte, .baud .reset] ++ outputs s.trace

/-- 20_memory.md R74, R76, R77, 43_rom_addressing.md R193, R194: with SimBus and some device, READROM gives the AND of the codes; after
MATCHROM exactly the devices with that code are addressed, after SKIPROM all, and after READROM all, which is the model's choice
(log 22) where there are several: R194 speaks of the single device. -/
def Obligations.AddressingOnSimBus : Prop :=
  ∀ (s : State) (sb : SimBus), PromptSimBus s sb → sb.devs ≠ [] →
    (∀ rom : Rom, (∀ p < 64, rom.getLsbD p = sb.devs.all fun d => d.rom.getLsbD p) →
      ∃ t, exec .readrom s = .next t ∧
        Responded s ⟨if romValid rom then .ok else .crcMismatch, 0, rom⟩ t ∧
        PromptSimBus t { sb with phase := .func sb.devs }) ∧
    (∀ rom : Rom, ∃ t, exec (.matchrom rom) s = .next t ∧ Responded s ⟨.ok, 0, 0⟩ t ∧
      PromptSimBus t { sb with phase := .func (sb.devs.filter fun d => d.rom == rom) }) ∧
    (∃ t, exec .skiprom s = .next t ∧ Responded s ⟨.ok, 0, 0⟩ t ∧
      PromptSimBus t { sb with phase := .func sb.devs })

/-! ### Layers W and S -/

/-- 30_encoding.md R98, R99: a ROM command byte is sent as eight write slots, bit 0 first, spelled out for each byte; the bytes stand
for the five commands, one each. -/
def Obligations.RomCommandBytes : Prop :=
  (∀ (s : State) (i : Instr) (b : Byte) (ds : List Draw) (rest : List Move), romCommandByte s.cfg i = some b →
    ds.length = 8 → (∀ d ∈ ds, d.admits s.cfg.readTimeout) → s.tape = drawMoves s.cfg.readTimeout ds ++ rest →
    ∃ t, exec i s = .next t ∧
      Drawn s rest (drawEvents (((List.range 8).map fun i => if b.getLsbD i then (0xFF : Byte) else 0x00).zip ds) s.trace)
        s.baud t) ∧
  (∀ c : Config, c.wf = true → ∀ (i : Instr) (b : Byte), romCommandByte c i = some b ↔ decodeRomCommand c b = some i) ∧
  (bitsOfByte 0xF0).map slotByte = [0x00, 0x00, 0x00, 0x00, 0xFF, 0xFF, 0xFF, 0xFF] ∧
  (bitsOfByte 0xCC).map slotByte = [0x00, 0x00, 0xFF, 0xFF, 0x00, 0x00, 0xFF, 0xFF] ∧
  (bitsOfByte 0x33).map slotByte = [0xFF, 0xFF, 0x00, 0x00, 0xFF, 0xFF, 0x00, 0x00] ∧
  (bitsOfByte 0x55).map slotByte = [0xFF, 0x00, 0xFF, 0x00, 0xFF, 0x00, 0xFF, 0x00] ∧
  (bitsOfByte 0xEC).map slotByte = [0x00, 0x00, 0xFF, 0xFF, 0x00, 0xFF, 0xFF, 0xFF]

/-- 30_encoding.md R100: each slot symbol: the byte sent, the rate where the row sets one (log 9), and what its echo is decoded as; an
expired wait is kept as such (log 7). -/
def Obligations.SlotSymbols : Prop :=
  (∀ (s : State) (d : Draw) (rest : List Move), d.admits s.cfg.readTimeout →
    s.tape = d.moves s.cfg.readTimeout ++ rest →
    (∃ t, exec .sWrite0 s = .next t ∧
      Drawn (s.setSlot (match d with | .echo _ _ => .discarded | .expired => .timedOut)) rest (d.events 0x00 s.trace)
        s.baud t) ∧
    (∃ t, exec .sWrite1 s = .next t ∧
      Drawn (s.setSlot (match d with | .echo _ _ => .discarded | .expired => .timedOut)) rest (d.events 0xFF s.trace)
        s.baud t) ∧
    (∃ t, exec .sRead s = .next t ∧
      Drawn (s.setSlot (match d with | .echo _ v => .bit (v == 0xFF) | .expired => .timedOut)) rest
        (d.events 0xFF s.trace) s.baud t)) ∧
  (∀ (s : State) (d : Draw) (rest : List Move), d.admits s.cfg.readTimeout →
    s.tape = .master :: (d.moves s.cfg.readTimeout ++ rest) →
    (∃ t, exec .sResetPulse s = .next t ∧
      Drawn (s.setSlot (match d with | .echo _ _ => .discarded | .expired => .timedOut)) rest
        (d.events s.cfg.resetByte (.baud .reset :: s.trace)) (some .reset) t) ∧
    (∃ t, exec .sProbe s = .next t ∧
      Drawn (s.setSlot (match d with | .echo _ v => .presence (v != s.cfg.probeByte) | .expired => .timedOut)) rest
        (d.events s.cfg.probeByte (.baud .slot :: s.trace)) (some .slot) t))

/-! ### The search pass, SEARCH, SCAN -/

/-- 42_rom_search.md R161, R163, R166 to R174, R176, R177: a SEARCH whose reset finds presence and whose 64 positions read the pairs of
`xs`, never both 1: at each position the branch of R168 is taken; the bytes sent are those of R166, R172; the state it leaves is
`PassEffect`, the response R177's. ASEARCH is the alarm mode. -/
def Obligations.SearchPass : Prop :=
  ∀ (s : State) (alarm : Bool) (r : Rom) (d1 d2 : Draw) (ds : List Draw) (xs : List PositionDraws) (rest : List Move),
    s.lastDeviceFlag = false → Memory.wf s.store = true → d1.admits s.cfg.readTimeout → d2.admits s.cfg.readTimeout →
    resetResult s.cfg d1 d2 = some true → ds.length = 8 → (∀ d ∈ ds, d.admits s.cfg.readTimeout) → xs.length = 64 →
    (∀ x ∈ xs, x.admits s.cfg.readTimeout ∧ x.reads ≠ (true, true)) →
    (∀ p < 64, r.getLsbD p = s.chosen p (readsOf xs p)) →
    s.tape = passMoves s.cfg.readTimeout d1 d2 ds xs ++ .master :: rest →
    ∃ t, exec (.search alarm) s = .next t ∧ (alarm = true → exec .asearch s = .next t) ∧
      PassEffect s r (readsOf xs) t ∧ Responded s (passResponse s r) t ∧
      sentInOrder t.trace = sentInOrder s.trace ++ passBytes s.cfg alarm r 64 ∧ t.baud = some .slot ∧ t.tape = rest ∧
      t.echoReady = false

/-- 42_rom_search.md R164, 60_exceptions.md R227: SEARCH with `lastDeviceFlag` set answers SEARCH_EXHAUSTED; no channel event is produced
and no state is written. -/
def Obligations.SearchExhausted : Prop :=
  ∀ (s : State) (i : Instr) (rest : List Move), (i = .asearch ∨ ∃ alarm, i = .search alarm) → s.lastDeviceFlag = true →
    s.tape = .master :: rest →
    exec i s = .next (s.answeredWith rest ⟨.searchExhausted, s.deviceCount, 0⟩)

/-- 42_rom_search.md R165, 60_exceptions.md R221: SEARCH whose reset finds no presence sets `deviceCount` to 0 and nothing else; one whose
reset times out writes nothing, `deviceCount` included. -/
def Obligations.SearchWithoutPresence : Prop :=
  ∀ (s : State) (i : Instr) (d1 d2 : Draw) (rest : List Move), (i = .asearch ∨ ∃ alarm, i = .search alarm) →
    s.lastDeviceFlag = false → d1.admits s.cfg.readTimeout → d2.admits s.cfg.readTimeout →
    s.tape = resetMoves s.cfg.readTimeout d1 d2 ++ .master :: rest →
    (resetResult s.cfg d1 d2 = some false →
      ∃ t, exec i s = .next t ∧ Answered { s with deviceCount := 0 } rest (resetEvents s.cfg d1 d2 s.trace)
        (some .slot) ⟨.noPresence, 0, 0⟩ t) ∧
    (resetResult s.cfg d1 d2 = none →
      ∃ t, exec i s = .next t ∧ Answered s rest (resetEvents s.cfg d1 d2 s.trace) (some .slot)
        ⟨.timeout, s.deviceCount, 0⟩ t)

/-- 42_rom_search.md R167, R180, 60_exceptions.md R223: a SEARCH that ends at position `p` in a bus error (both reads 1) or a timeout (of
the first read or the second) sends nothing after that read, and leaves this pass's choices in bits 0 to `p - 1` of `romScratch` and
everything else as it was. -/
def Obligations.SearchEndsEarly : Prop :=
  ∀ (s : State) (alarm : Bool) (r : Rom) (d1 d2 : Draw) (ds : List Draw) (xs : List PositionDraws) (k1 k2 : Nat) (v : Byte)
    (how : Fin 3) (rest : List Move),
    s.lastDeviceFlag = false → Memory.wf s.store = true → d1.admits s.cfg.readTimeout → d2.admits s.cfg.readTimeout →
    resetResult s.cfg d1 d2 = some true → ds.length = 8 → (∀ d ∈ ds, d.admits s.cfg.readTimeout) → xs.length < 64 →
    (∀ x ∈ xs, x.admits s.cfg.readTimeout ∧ x.reads ≠ (true, true)) →
    (∀ p < xs.length, r.getLsbD p = s.chosen p (readsOf xs p)) → k1 < s.cfg.readTimeout → k2 < s.cfg.readTimeout →
    s.tape = passMoves s.cfg.readTimeout d1 d2 ds xs ++ (drawMoves s.cfg.readTimeout
      (if how = 0 then [.echo k1 0xFF, .echo k2 0xFF] else if how = 1 then [.expired] else [.echo k1 v, .expired]) ++
        .master :: rest) →
    ∃ t, exec (.search alarm) s = .next t ∧ (alarm = true → exec .asearch s = .next t) ∧
      Responded s ⟨if how = 0 then .busError else .timeout, s.deviceCount, 0⟩ t ∧
      (∀ p < 64, t.scratch.getLsbD p = if p < xs.length then r.getLsbD p else s.scratch.getLsbD p) ∧
      t.lastDiscrepancy = s.lastDiscrepancy ∧ t.lastFamilyDiscrepancy = s.lastFamilyDiscrepancy ∧
      t.lastDeviceFlag = s.lastDeviceFlag ∧ t.hasMoreDevices = s.hasMoreDevices ∧ t.deviceCount = s.deviceCount ∧
      (∀ a, 8 ≤ a → readByteAt t.store a = readByteAt s.store a) ∧
      sentInOrder t.trace = sentInOrder s.trace ++ passBytes s.cfg alarm r xs.length ++
        (if how = 1 then [0xFF] else [0xFF, 0xFF]) ∧
      t.tape = rest

/-- 42_rom_search.md R177: SEARCH answers each outcome of its pass as the table says, with `deviceCount` after the pass. -/
def Obligations.SearchResponses : Prop :=
  ∀ (s t : State) (alarm : Bool) (o : Outcome), searchPass alarm s = .ok o t →
    exec (.search alarm) s = .next (deliver (match o with
      | .found rom => ⟨.ok, t.deviceCount, rom⟩
      | .tableFull rom => ⟨.tableFull, t.deviceCount, rom⟩
      | .exhausted => ⟨.searchExhausted, t.deviceCount, 0⟩
      | .noDevices => ⟨.noPresence, t.deviceCount, 0⟩
      | .busError => ⟨.busError, t.deviceCount, 0⟩
      | .crcMismatch => ⟨.crcMismatch, t.deviceCount, 0⟩
      | .timeout => ⟨.timeout, t.deviceCount, 0⟩) t)

/-- 42_rom_search.md R178: a pass of SCAN (log 1) is SEARCH's, the first from the cleared state; after a found code or a CRC mismatch the
loop goes on, and every other outcome is answered as the table says. -/
def Obligations.ScanResponses : Prop :=
  ∀ (s s' t : State) (alarm : Bool) (o : Outcome),
    (s.point = .scanLoop ∧ s' = s ∨ s.point = .start ∧ ∃ u, tick s = .ok () u ∧ s' = u.clear) →
    searchPass alarm s' = .ok o t →
    exec (.scan alarm) s = .next (match o with
      | .found _ => t.setPoint .scanLoop
      | .crcMismatch => t.setPoint .scanLoop
      | .exhausted => deliver ⟨.ok, t.deviceCount, 0⟩ t
      | .noDevices => deliver ⟨.noPresence, t.deviceCount, 0⟩ t
      | .tableFull rom => deliver ⟨.tableFull, t.deviceCount, rom⟩ t
      | .busError => deliver ⟨.busError, t.deviceCount, 0⟩ t
      | .timeout => deliver ⟨.timeout, t.deviceCount, 0⟩ t)

/-- 42_rom_search.md R178, R179: a pass of SCAN, in either spelling, at the head of its loop over a full course of reads: the effect of
`PassEffect`; TABLE_FULL is answered, a found code and a CRC mismatch are not; and from an exhausted enumeration it answers OK with
the count. -/
def Obligations.ScanPass : Prop :=
  (∀ (s : State) (alarm : Bool) (r : Rom) (d1 d2 : Draw) (ds : List Draw) (xs : List PositionDraws) (rest : List Move),
    s.point = .scanLoop → s.lastDeviceFlag = false → Memory.wf s.store = true → d1.admits s.cfg.readTimeout →
    d2.admits s.cfg.readTimeout → resetResult s.cfg d1 d2 = some true → ds.length = 8 →
    (∀ d ∈ ds, d.admits s.cfg.readTimeout) → xs.length = 64 →
    (∀ x ∈ xs, x.admits s.cfg.readTimeout ∧ x.reads ≠ (true, true)) →
    (∀ p < 64, r.getLsbD p = s.chosen p (readsOf xs p)) →
    s.tape = passMoves s.cfg.readTimeout d1 d2 ds xs ++ .master :: rest →
    ∃ t, exec (.scan alarm) s = .next t ∧ (alarm = true → exec .ascan s = .next t) ∧ PassEffect s r (readsOf xs) t ∧
      if romValid r = true ∧ s.cfg.maxDevices ≤ s.deviceCount.toNat then
        Responded s ⟨.tableFull, s.deviceCount, r⟩ t
      else GoesOn s t) ∧
  (∀ (s : State) (i : Instr) (rest : List Move), isScan i = true → s.point = .scanLoop → s.lastDeviceFlag = true →
    s.tape = .master :: rest →
    exec i s = .next (s.answeredWith rest ⟨.ok, s.deviceCount, 0⟩))

/-- 41_crc8.md R153: in any environment, after 64 positions that meet no bus error the accumulator is the CRC of the first seven bytes of
`romScratch`. -/
def Obligations.PassAccumulator : Prop :=
  ∀ (s t : State) (w : Work), Memory.wf s.store = true → searchLoop 64 Work.init s = .ok (some w) t →
    w.crcAcc = crc8 ((List.range 7).map fun j => readByteAt t.store j)

/-- 20_memory.md R60, R70 to R75, 42_rom_search.md R181(g): SEARCH with SimBus as the environment, prompt, from any search registers: no
presence against no device; a bus error where devices are there and none takes part; else the code of a device that takes part.
It never answers TIMEOUT. -/
def Obligations.SearchOnSimBus : Prop :=
  ∀ (s : State) (sb : SimBus) (alarm : Bool), PromptSimBus s sb → Memory.wf s.store = true → s.lastDeviceFlag = false →
    ∃ t r, exec (.search alarm) s = .next t ∧ Responded s r t ∧ r.res ≠ .timeout ∧
      (∃ ph, PromptSimBus t { sb with phase := ph }) ∧
      if sb.devs = [] then r = ⟨.noPresence, 0, 0⟩ ∧ t.deviceCount = 0
      else if participants sb alarm = [] then r = ⟨.busError, s.deviceCount, 0⟩ ∧ t.deviceCount = s.deviceCount
      else ∃ d ∈ participants sb alarm, t.scratch = d.rom ∧ r = passResponse s d.rom

/-- 42_rom_search.md R168, R169, R174, R175: with SimBus, SEARCH enumerates the codes of the devices that take part in the order of R175:
from a fresh start the first; after a code, with the registers a pass that found it leaves, the one that follows it. The registers it
leaves are again those, and `lastDeviceFlag` is set exactly at the last code. -/
def Obligations.SearchEnumeratesInOrder : Prop :=
  ∀ (s : State) (sb : SimBus) (alarm : Bool) (r : Rom), PromptSimBus s sb → Memory.wf s.store = true →
    s.lastDeviceFlag = false → (∃ d ∈ participants sb alarm, d.rom = r) → romValid r = true →
    ((s.lastDiscrepancy = 0 ∧ ∀ d ∈ participants sb alarm, d.rom = r ∨ codeBefore r d.rom) ∨
      ((∃ d ∈ participants sb alarm, d.rom = s.scratch) ∧ s.lastDiscrepancy ≠ 0 ∧
        s.lastDiscrepancy.toNat = lastOpen s.scratch (simReads (participants sb alarm) s.scratch) 64 ∧
        codeBefore s.scratch r ∧
        ∀ d ∈ participants sb alarm, codeBefore s.scratch d.rom → d.rom = r ∨ codeBefore r d.rom)) →
    ∃ t, exec (.search alarm) s = .next t ∧ PassEffect s r (simReads (participants sb alarm) r) t ∧
      Responded s (passResponse s r) t ∧
      (t.lastDeviceFlag = true ↔ ∀ d ∈ participants sb alarm, ¬ codeBefore r d.rom) ∧
      ∃ ph, PromptSimBus t { sb with phase := ph }

/-- 42_rom_search.md R175, R178, R181, 70_reset_and_hazards.md R261: with SimBus over devices whose codes are `codes`, each valid, listed in
the order of R175, no more than the table holds, SCAN takes one step a code and one more, answers OK with the number of codes, and
leaves exactly them in the table, in that order, the table not overflowed. The empty bus and more codes than the table holds are left
to ScanResponses, ScanPass and SearchOnSimBus. -/
def Obligations.ScanFindsAllDevices : Prop :=
  ∀ (s : State) (sb : SimBus) (alarm : Bool) (codes : List Rom), PromptSimBus s sb → Memory.wf s.store = true →
    s.busy = true → s.point = .start → decode s.req = .scan alarm →
    (∀ r, r ∈ codes ↔ ∃ d ∈ participants sb alarm, d.rom = r) → codes.Pairwise codeBefore → codes ≠ [] →
    (∀ r ∈ codes, romValid r = true) → codes.length ≤ s.cfg.maxDevices →
    ∃ t : State, Host.Core.run Sys2Proof.core (codes.length + 1) s = .next t ∧
      Responded s ⟨.ok, BitVec.ofNat 8 codes.length, 0⟩ t ∧ t.deviceCount.toNat = codes.length ∧
      (∀ k (hk : k < codes.length), t.entry k = codes[k]) ∧ t.lastDeviceFlag = true ∧ t.hasMoreDevices = false

/-! ### The CRC -/

/-- 41_crc8.md R152: the one-bit update is linear over exclusive-or, and for a fixed input bit a bijection; zero bytes give 0; feeding a
byte equal to the register gives 0; and a code of eight bytes is valid exactly when the CRC of all eight is 0. -/
def Obligations.CrcAlgebra : Prop :=
  (∀ (c x : Byte) (d e : Bool), crc8Bit (c ^^^ x) (d ^^ e) = crc8Bit c d ^^^ crc8Bit x e) ∧
  (∀ d : Bool, Function.Bijective fun c => crc8Bit c d) ∧
  (∀ n : Nat, crc8 (List.replicate n 0) = 0) ∧
  (∀ B : List Byte, crc8 (B ++ [crc8 B]) = 0) ∧
  (∀ r : Rom, crc8 ((List.range 7).map (romByte r)) = romByte r 7 ↔ crc8 ((List.range 8).map (romByte r)) = 0)

/-- 41_crc8.md R154, R155: the CRC8 command answers the CRC of the first seven bytes, OK if it is the eighth and CRC_MISMATCH if not; the
state is otherwise as before. -/
def Obligations.Crc8Command : Prop :=
  ∀ (s : State) (rom : Rom) (rest : List Move), s.tape = .master :: rest →
    exec (.crc8 rom) s = .next (s.answeredWith rest (if crc8 ((List.range 7).map (romByte rom)) = romByte rom 7
        then ⟨.ok, crc8 ((List.range 7).map (romByte rom)), 0⟩
        else ⟨.crcMismatch, crc8 ((List.range 7).map (romByte rom)), 0⟩))

/-! ### Observation -/

/-- 44_state_access.md R203: GETSTATE's response, field by field; no state is written. -/
def Obligations.GetstateCommand : Prop :=
  ∀ (s : State) (rest : List Move), s.tape = .master :: .master :: rest →
    ∃ rom : Rom, exec .getstate s = .next (s.answeredWith rest ⟨.ok, s.deviceCount, rom⟩) ∧
      (romByte rom 0).getLsbD 0 = s.lastDeviceFlag ∧ (romByte rom 0).getLsbD 1 = s.hasMoreDevices ∧
      (romByte rom 0).getLsbD 2 = s.echoReady ∧ (∀ i, 3 ≤ i → (romByte rom 0).getLsbD i = false) ∧
      (romByte rom 1).toNat = s.lastDiscrepancy.toNat ∧ (romByte rom 2).toNat = s.lastFamilyDiscrepancy.toNat ∧
      romByte rom 3 = s.echoBuffer ∧ ∀ j, 4 ≤ j → romByte rom j = 0

/-- 44_state_access.md R204: GETSCR answers the eight bytes at addresses 0 to 7; no state is written. -/
def Obligations.GetscrCommand : Prop :=
  ∀ (s : State) (rest : List Move), s.tape = .master :: rest →
    ∃ rom : Rom, exec .getscr s = .next (s.answeredWith rest ⟨.ok, 0, rom⟩) ∧ ∀ j < 8, romByte rom j = readByteAt s.store j

/-- 44_state_access.md R205: GETDEV answers the entry at `8 + 8k` where `k < deviceCount`, INDEX_RANGE with the count where not; no state
is written. -/
def Obligations.GetdevCommand : Prop :=
  ∀ (s : State) (k : Byte) (rest : List Move), s.tape = .master :: rest →
    (k.toNat < s.deviceCount.toNat → s.deviceCount.toNat ≤ s.cfg.maxDevices →
      ∃ rom : Rom, exec (.getdev k) s = .next (s.answeredWith rest ⟨.ok, k, rom⟩) ∧
        ∀ j < 8, romByte rom j = readByteAt s.store (8 + 8 * k.toNat + j)) ∧
    (s.deviceCount.toNat ≤ k.toNat → exec (.getdev k) s = .next (s.answeredWith rest ⟨.indexRange, s.deviceCount, 0⟩))

/-- 44_state_access.md R206, 30_encoding.md R96: a request with an unassigned code is answered ILLEGAL_COMMAND, without a channel event, no
state changed. -/
def Obligations.UnassignedCommand : Prop :=
  ∀ (s : State) (op arg : Byte) (rom : Rom) (rest : List Move), (op = 0x00 ∨ 0x10 ≤ op.toNat) →
    s.busy = true → s.req = reqWord op arg rom → s.tape = .master :: rest →
    exec (.unassigned op) s = step s ∧
    step s = .next (s.answeredWith rest ⟨.illegalCommand, 0, 0⟩)

/-! ### Rules of the whole machine -/

/-- 10_state.md R26: once 1, `lastDeviceFlag` stays 1 until CLRSTATE, the clear with which SCAN begins, or hardware reset. -/
def Obligations.LastDeviceFlagStays : Prop :=
  ∀ (i : Instr) (s t : State), s.live → exec i s = .next t → s.lastDeviceFlag = true →
    t.lastDeviceFlag = true ∨ i = .clrstate ∨ (isScan i = true ∧ s.point = .start)

/-- 10_state.md R27: `hasMoreDevices` is set only by a search pass that validates a code while `deviceCount = MAX_DEVICES`, and cleared
only by CLRSTATE, SCAN's initial clear, and hardware reset. -/
def Obligations.HasMoreDevicesRule : Prop :=
  ∀ (i : Instr) (s t : State), StateInv s → s.live → exec i s = .next t →
    (s.hasMoreDevices = false → t.hasMoreDevices = true →
      (i = .asearch ∨ (∃ alarm, i = .search alarm) ∨ isScan i = true ∧ s.point = .scanLoop) ∧
        s.deviceCount.toNat = s.cfg.maxDevices ∧ romValid t.scratch = true) ∧
    (s.hasMoreDevices = true → t.hasMoreDevices = false → i = .clrstate ∨ (isScan i = true ∧ s.point = .start))

/-- 10_state.md R28: `deviceCount` grows by one with a pass that appends, to a valid code at the old count, is set to 0 by a pass that finds
no presence and by CLRSTATE, and never exceeds `MAX_DEVICES`. SCAN's first pass starts from 0. -/
def Obligations.DeviceCountRule : Prop :=
  ∀ (i : Instr) (s t : State), StateInv s → s.live → exec i s = .next t →
    t.deviceCount.toNat ≤ s.cfg.maxDevices ∧
    (t.deviceCount = s.deviceCount ∨
      (t.deviceCount = s.deviceCount + 1 ∧ s.deviceCount.toNat < s.cfg.maxDevices ∧
        t.entry s.deviceCount.toNat = t.scratch ∧ romValid t.scratch = true ∧
        (i = .asearch ∨ (∃ alarm, i = .search alarm) ∨ isScan i = true ∧ s.point = .scanLoop)) ∨
      (t.deviceCount = 0 ∧ (i = .clrstate ∨ i = .asearch ∨ (∃ alarm, i = .search alarm) ∨ isScan i = true)) ∨
      (t.deviceCount = 1 ∧ isScan i = true ∧ s.point = .start))

/-- 10_state.md R21, R22, 20_memory.md R58: `echoBuffer` is the last byte deposited; no instruction but CLRSTATE and SCAN's clear writes it
otherwise, and the flag is set only together with a deposit. -/
def Obligations.MailboxHoldsTheLastDeposit : Prop :=
  ∀ (i : Instr) (s t : State), s.live → exec i s = .next t → i ≠ .clrstate → ¬ (isScan i = true ∧ s.point = .start) →
    ∃ new, deposited t.trace = new ++ deposited s.trace ∧ t.echoBuffer = new.headD s.echoBuffer ∧
      (t.echoReady = true → s.echoReady = true ∨ new ≠ [])

/-- 30_encoding.md R100: no byte other than `RESET_BYTE`, `PROBE_BYTE`, 0x00 and 0xFF is ever transmitted. -/
def Obligations.OnlySlotSymbolsAreSent : Prop :=
  ∀ (i : Instr) (s t : State), exec i s = .next t →
    ∃ new, sent t.trace = new ++ sent s.trace ∧ ∀ b ∈ new, b = s.cfg.resetByte ∨ b = s.cfg.probeByte ∨ b = 0x00 ∨ b = 0xFF

/-- 70_reset_and_hazards.md R243: a request leaves a channel at `BAUD_SLOT` there; one that contains a `Reset` leaves it there whatever the
rate was; no other request, and no search pass that is exhausted, changes the rate. -/
def Obligations.SlotRateStays : Prop :=
  ∀ (i : Instr) (s t : State), isRequest i = true → s.live → exec i s = .next t →
    (t.baud = s.baud ∨ t.baud = some .slot) ∧
    ((i = .reset ∨ i = .skiprom ∨ i = .readrom ∨ (∃ r, i = .matchrom r) ∨ (isScan i = true ∧ s.point = .start) ∨
        (s.lastDeviceFlag = false ∧ (isScan i = true ∨ i = .asearch ∨ ∃ alarm, i = .search alarm))) →
      t.baud = some .slot) ∧
    ((i = .rdbit ∨ i = .rdbyte ∨ i = .wr0 ∨ i = .wr1 ∨ (∃ b, i = .wrbit b) ∨ (∃ b, i = .wrbyte b) ∨ i = .clrstate ∨
        i = .getstate ∨ i = .getscr ∨ (∃ k, i = .getdev k) ∨ (∃ r, i = .crc8 r) ∨ (∃ op, i = .unassigned op) ∨
        (s.lastDeviceFlag = true ∧ (i = .asearch ∨ (∃ alarm, i = .search alarm) ∨ isScan i = true ∧ s.point = .scanLoop))) →
      t.baud = s.baud)

/-- 70_reset_and_hazards.md R257, 42_rom_search.md R172: how many bytes a command answered OK has transmitted, in any environment. -/
def Obligations.TransmitCounts : Prop :=
  ∀ (i : Instr) (s t : State) (r : Response), s.live → exec i s = .next t → Responded s r t → r.res = .ok →
    (i = .reset → (sent t.trace).length = (sent s.trace).length + 2) ∧
    ((i = .rdbit ∨ ∃ b, i = .wrbit b) → (sent t.trace).length = (sent s.trace).length + 1) ∧
    ((i = .rdbyte ∨ ∃ b, i = .wrbyte b) → (sent t.trace).length = (sent s.trace).length + 8) ∧
    ((∃ alarm, i = .search alarm) → (sent t.trace).length = (sent s.trace).length + 202) ∧
    ((∃ rom, i = .matchrom rom) → (sent t.trace).length = (sent s.trace).length + 74) ∧
    (i = .skiprom → (sent t.trace).length = (sent s.trace).length + 10) ∧
    (i = .readrom → (sent t.trace).length = (sent s.trace).length + 74) ∧
    ((i = .clrstate ∨ i = .getstate ∨ i = .getscr ∨ (∃ k, i = .getdev k) ∨ ∃ rom, i = .crc8 rom) →
      sent t.trace = sent s.trace)

end
end

