-- ==== Sys2Proof/Laws/State.lean ====
section
/-! SUPPORT. What each named update of the state does to each field: one lemma a field, true by rfl. -/

namespace Sys2Proof.Machine

section
variable (s : State)

/-! #### deposit -/

@[simp] theorem State.deposit_cfg (v : Byte) : (s.deposit v).cfg = s.cfg := rfl
@[simp] theorem State.deposit_echoBuffer (v : Byte) : (s.deposit v).echoBuffer = v := rfl
@[simp] theorem State.deposit_echoReady (v : Byte) : (s.deposit v).echoReady = true := rfl
@[simp] theorem State.deposit_lastDiscrepancy (v : Byte) : (s.deposit v).lastDiscrepancy = s.lastDiscrepancy := rfl
@[simp] theorem State.deposit_lastFamilyDiscrepancy (v : Byte) : (s.deposit v).lastFamilyDiscrepancy = s.lastFamilyDiscrepancy := rfl
@[simp] theorem State.deposit_lastDeviceFlag (v : Byte) : (s.deposit v).lastDeviceFlag = s.lastDeviceFlag := rfl
@[simp] theorem State.deposit_hasMoreDevices (v : Byte) : (s.deposit v).hasMoreDevices = s.hasMoreDevices := rfl
@[simp] theorem State.deposit_deviceCount (v : Byte) : (s.deposit v).deviceCount = s.deviceCount := rfl
@[simp] theorem State.deposit_store (v : Byte) : (s.deposit v).store = s.store := rfl
@[simp] theorem State.deposit_busy (v : Byte) : (s.deposit v).busy = s.busy := rfl
@[simp] theorem State.deposit_req (v : Byte) : (s.deposit v).req = s.req := rfl
@[simp] theorem State.deposit_point (v : Byte) : (s.deposit v).point = s.point := rfl
@[simp] theorem State.deposit_slot (v : Byte) : (s.deposit v).slot = s.slot := rfl
@[simp] theorem State.deposit_baud (v : Byte) : (s.deposit v).baud = s.baud := rfl
@[simp] theorem State.deposit_inFlight (v : Byte) : (s.deposit v).inFlight = s.inFlight := rfl
@[simp] theorem State.deposit_sim (v : Byte) : (s.deposit v).sim = s.sim := rfl
@[simp] theorem State.deposit_tape (v : Byte) : (s.deposit v).tape = s.tape := rfl
@[simp] theorem State.deposit_draws (v : Byte) : (s.deposit v).draws = s.draws := rfl
@[simp] theorem State.deposit_pending (v : Byte) : (s.deposit v).pending = s.pending := rfl
@[simp] theorem State.deposit_trace (v : Byte) : (s.deposit v).trace = .echo v :: s.trace := rfl

/-! #### dropEcho -/

@[simp] theorem State.dropEcho_cfg : (s.dropEcho).cfg = s.cfg := rfl
@[simp] theorem State.dropEcho_echoBuffer : (s.dropEcho).echoBuffer = s.echoBuffer := rfl
@[simp] theorem State.dropEcho_echoReady : (s.dropEcho).echoReady = s.echoReady := rfl
@[simp] theorem State.dropEcho_lastDiscrepancy : (s.dropEcho).lastDiscrepancy = s.lastDiscrepancy := rfl
@[simp] theorem State.dropEcho_lastFamilyDiscrepancy : (s.dropEcho).lastFamilyDiscrepancy = s.lastFamilyDiscrepancy := rfl
@[simp] theorem State.dropEcho_lastDeviceFlag : (s.dropEcho).lastDeviceFlag = s.lastDeviceFlag := rfl
@[simp] theorem State.dropEcho_hasMoreDevices : (s.dropEcho).hasMoreDevices = s.hasMoreDevices := rfl
@[simp] theorem State.dropEcho_deviceCount : (s.dropEcho).deviceCount = s.deviceCount := rfl
@[simp] theorem State.dropEcho_store : (s.dropEcho).store = s.store := rfl
@[simp] theorem State.dropEcho_busy : (s.dropEcho).busy = s.busy := rfl
@[simp] theorem State.dropEcho_req : (s.dropEcho).req = s.req := rfl
@[simp] theorem State.dropEcho_point : (s.dropEcho).point = s.point := rfl
@[simp] theorem State.dropEcho_slot : (s.dropEcho).slot = s.slot := rfl
@[simp] theorem State.dropEcho_baud : (s.dropEcho).baud = s.baud := rfl
@[simp] theorem State.dropEcho_inFlight : (s.dropEcho).inFlight = s.inFlight.tail := rfl
@[simp] theorem State.dropEcho_sim : (s.dropEcho).sim = s.sim := rfl
@[simp] theorem State.dropEcho_tape : (s.dropEcho).tape = s.tape := rfl
@[simp] theorem State.dropEcho_draws : (s.dropEcho).draws = s.draws := rfl
@[simp] theorem State.dropEcho_pending : (s.dropEcho).pending = s.pending := rfl
@[simp] theorem State.dropEcho_trace : (s.dropEcho).trace = s.trace := rfl

/-! #### emptyFlight -/

@[simp] theorem State.emptyFlight_cfg : (s.emptyFlight).cfg = s.cfg := rfl
@[simp] theorem State.emptyFlight_echoBuffer : (s.emptyFlight).echoBuffer = s.echoBuffer := rfl
@[simp] theorem State.emptyFlight_echoReady : (s.emptyFlight).echoReady = s.echoReady := rfl
@[simp] theorem State.emptyFlight_lastDiscrepancy : (s.emptyFlight).lastDiscrepancy = s.lastDiscrepancy := rfl
@[simp] theorem State.emptyFlight_lastFamilyDiscrepancy : (s.emptyFlight).lastFamilyDiscrepancy = s.lastFamilyDiscrepancy := rfl
@[simp] theorem State.emptyFlight_lastDeviceFlag : (s.emptyFlight).lastDeviceFlag = s.lastDeviceFlag := rfl
@[simp] theorem State.emptyFlight_hasMoreDevices : (s.emptyFlight).hasMoreDevices = s.hasMoreDevices := rfl
@[simp] theorem State.emptyFlight_deviceCount : (s.emptyFlight).deviceCount = s.deviceCount := rfl
@[simp] theorem State.emptyFlight_store : (s.emptyFlight).store = s.store := rfl
@[simp] theorem State.emptyFlight_busy : (s.emptyFlight).busy = s.busy := rfl
@[simp] theorem State.emptyFlight_req : (s.emptyFlight).req = s.req := rfl
@[simp] theorem State.emptyFlight_point : (s.emptyFlight).point = s.point := rfl
@[simp] theorem State.emptyFlight_slot : (s.emptyFlight).slot = s.slot := rfl
@[simp] theorem State.emptyFlight_baud : (s.emptyFlight).baud = s.baud := rfl
@[simp] theorem State.emptyFlight_inFlight : (s.emptyFlight).inFlight = [] := rfl
@[simp] theorem State.emptyFlight_sim : (s.emptyFlight).sim = s.sim := rfl
@[simp] theorem State.emptyFlight_tape : (s.emptyFlight).tape = s.tape := rfl
@[simp] theorem State.emptyFlight_draws : (s.emptyFlight).draws = s.draws := rfl
@[simp] theorem State.emptyFlight_pending : (s.emptyFlight).pending = s.pending := rfl
@[simp] theorem State.emptyFlight_trace : (s.emptyFlight).trace = s.trace := rfl

/-! #### setTape -/

@[simp] theorem State.setTape_cfg (t : List Move) : (s.setTape t).cfg = s.cfg := rfl
@[simp] theorem State.setTape_echoBuffer (t : List Move) : (s.setTape t).echoBuffer = s.echoBuffer := rfl
@[simp] theorem State.setTape_echoReady (t : List Move) : (s.setTape t).echoReady = s.echoReady := rfl
@[simp] theorem State.setTape_lastDiscrepancy (t : List Move) : (s.setTape t).lastDiscrepancy = s.lastDiscrepancy := rfl
@[simp] theorem State.setTape_lastFamilyDiscrepancy (t : List Move) : (s.setTape t).lastFamilyDiscrepancy = s.lastFamilyDiscrepancy := rfl
@[simp] theorem State.setTape_lastDeviceFlag (t : List Move) : (s.setTape t).lastDeviceFlag = s.lastDeviceFlag := rfl
@[simp] theorem State.setTape_hasMoreDevices (t : List Move) : (s.setTape t).hasMoreDevices = s.hasMoreDevices := rfl
@[simp] theorem State.setTape_deviceCount (t : List Move) : (s.setTape t).deviceCount = s.deviceCount := rfl
@[simp] theorem State.setTape_store (t : List Move) : (s.setTape t).store = s.store := rfl
@[simp] theorem State.setTape_busy (t : List Move) : (s.setTape t).busy = s.busy := rfl
@[simp] theorem State.setTape_req (t : List Move) : (s.setTape t).req = s.req := rfl
@[simp] theorem State.setTape_point (t : List Move) : (s.setTape t).point = s.point := rfl
@[simp] theorem State.setTape_slot (t : List Move) : (s.setTape t).slot = s.slot := rfl
@[simp] theorem State.setTape_baud (t : List Move) : (s.setTape t).baud = s.baud := rfl
@[simp] theorem State.setTape_inFlight (t : List Move) : (s.setTape t).inFlight = s.inFlight := rfl
@[simp] theorem State.setTape_sim (t : List Move) : (s.setTape t).sim = s.sim := rfl
@[simp] theorem State.setTape_tape (t : List Move) : (s.setTape t).tape = t := rfl
@[simp] theorem State.setTape_draws (t : List Move) : (s.setTape t).draws = s.draws := rfl
@[simp] theorem State.setTape_pending (t : List Move) : (s.setTape t).pending = s.pending := rfl
@[simp] theorem State.setTape_trace (t : List Move) : (s.setTape t).trace = s.trace := rfl

/-! #### draw -/

@[simp] theorem State.draw_cfg : (s.draw).cfg = s.cfg := rfl
@[simp] theorem State.draw_echoBuffer : (s.draw).echoBuffer = s.echoBuffer := rfl
@[simp] theorem State.draw_echoReady : (s.draw).echoReady = s.echoReady := rfl
@[simp] theorem State.draw_lastDiscrepancy : (s.draw).lastDiscrepancy = s.lastDiscrepancy := rfl
@[simp] theorem State.draw_lastFamilyDiscrepancy : (s.draw).lastFamilyDiscrepancy = s.lastFamilyDiscrepancy := rfl
@[simp] theorem State.draw_lastDeviceFlag : (s.draw).lastDeviceFlag = s.lastDeviceFlag := rfl
@[simp] theorem State.draw_hasMoreDevices : (s.draw).hasMoreDevices = s.hasMoreDevices := rfl
@[simp] theorem State.draw_deviceCount : (s.draw).deviceCount = s.deviceCount := rfl
@[simp] theorem State.draw_store : (s.draw).store = s.store := rfl
@[simp] theorem State.draw_busy : (s.draw).busy = s.busy := rfl
@[simp] theorem State.draw_req : (s.draw).req = s.req := rfl
@[simp] theorem State.draw_point : (s.draw).point = s.point := rfl
@[simp] theorem State.draw_slot : (s.draw).slot = s.slot := rfl
@[simp] theorem State.draw_baud : (s.draw).baud = s.baud := rfl
@[simp] theorem State.draw_inFlight : (s.draw).inFlight = s.inFlight := rfl
@[simp] theorem State.draw_sim : (s.draw).sim = s.sim := rfl
@[simp] theorem State.draw_tape : (s.draw).tape = s.tape := rfl
@[simp] theorem State.draw_draws : (s.draw).draws = s.draws + 1 := rfl
@[simp] theorem State.draw_pending : (s.draw).pending = s.pending := rfl
@[simp] theorem State.draw_trace : (s.draw).trace = s.trace := rfl

/-! #### setBaud -/

@[simp] theorem State.setBaud_cfg (r : Baud) : (s.setBaud r).cfg = s.cfg := rfl
@[simp] theorem State.setBaud_echoBuffer (r : Baud) : (s.setBaud r).echoBuffer = s.echoBuffer := rfl
@[simp] theorem State.setBaud_echoReady (r : Baud) : (s.setBaud r).echoReady = s.echoReady := rfl
@[simp] theorem State.setBaud_lastDiscrepancy (r : Baud) : (s.setBaud r).lastDiscrepancy = s.lastDiscrepancy := rfl
@[simp] theorem State.setBaud_lastFamilyDiscrepancy (r : Baud) : (s.setBaud r).lastFamilyDiscrepancy = s.lastFamilyDiscrepancy := rfl
@[simp] theorem State.setBaud_lastDeviceFlag (r : Baud) : (s.setBaud r).lastDeviceFlag = s.lastDeviceFlag := rfl
@[simp] theorem State.setBaud_hasMoreDevices (r : Baud) : (s.setBaud r).hasMoreDevices = s.hasMoreDevices := rfl
@[simp] theorem State.setBaud_deviceCount (r : Baud) : (s.setBaud r).deviceCount = s.deviceCount := rfl
@[simp] theorem State.setBaud_store (r : Baud) : (s.setBaud r).store = s.store := rfl
@[simp] theorem State.setBaud_busy (r : Baud) : (s.setBaud r).busy = s.busy := rfl
@[simp] theorem State.setBaud_req (r : Baud) : (s.setBaud r).req = s.req := rfl
@[simp] theorem State.setBaud_point (r : Baud) : (s.setBaud r).point = s.point := rfl
@[simp] theorem State.setBaud_slot (r : Baud) : (s.setBaud r).slot = s.slot := rfl
@[simp] theorem State.setBaud_baud (r : Baud) : (s.setBaud r).baud = some r := rfl
@[simp] theorem State.setBaud_inFlight (r : Baud) : (s.setBaud r).inFlight = s.inFlight := rfl
@[simp] theorem State.setBaud_sim (r : Baud) : (s.setBaud r).sim = s.sim := rfl
@[simp] theorem State.setBaud_tape (r : Baud) : (s.setBaud r).tape = s.tape := rfl
@[simp] theorem State.setBaud_draws (r : Baud) : (s.setBaud r).draws = s.draws := rfl
@[simp] theorem State.setBaud_pending (r : Baud) : (s.setBaud r).pending = s.pending := rfl
@[simp] theorem State.setBaud_trace (r : Baud) : (s.setBaud r).trace = .baud r :: s.trace := rfl

/-! #### sendByte -/

@[simp] theorem State.sendByte_cfg (b : Byte) : (s.sendByte b).cfg = s.cfg := rfl
@[simp] theorem State.sendByte_echoBuffer (b : Byte) : (s.sendByte b).echoBuffer = s.echoBuffer := rfl
@[simp] theorem State.sendByte_echoReady (b : Byte) : (s.sendByte b).echoReady = false := rfl
@[simp] theorem State.sendByte_lastDiscrepancy (b : Byte) : (s.sendByte b).lastDiscrepancy = s.lastDiscrepancy := rfl
@[simp] theorem State.sendByte_lastFamilyDiscrepancy (b : Byte) : (s.sendByte b).lastFamilyDiscrepancy = s.lastFamilyDiscrepancy := rfl
@[simp] theorem State.sendByte_lastDeviceFlag (b : Byte) : (s.sendByte b).lastDeviceFlag = s.lastDeviceFlag := rfl
@[simp] theorem State.sendByte_hasMoreDevices (b : Byte) : (s.sendByte b).hasMoreDevices = s.hasMoreDevices := rfl
@[simp] theorem State.sendByte_deviceCount (b : Byte) : (s.sendByte b).deviceCount = s.deviceCount := rfl
@[simp] theorem State.sendByte_store (b : Byte) : (s.sendByte b).store = s.store := rfl
@[simp] theorem State.sendByte_busy (b : Byte) : (s.sendByte b).busy = s.busy := rfl
@[simp] theorem State.sendByte_req (b : Byte) : (s.sendByte b).req = s.req := rfl
@[simp] theorem State.sendByte_point (b : Byte) : (s.sendByte b).point = s.point := rfl
@[simp] theorem State.sendByte_slot (b : Byte) : (s.sendByte b).slot = s.slot := rfl
@[simp] theorem State.sendByte_baud (b : Byte) : (s.sendByte b).baud = s.baud := rfl
@[simp] theorem State.sendByte_inFlight (b : Byte) : (s.sendByte b).inFlight = s.inFlight := rfl
@[simp] theorem State.sendByte_sim (b : Byte) : (s.sendByte b).sim = s.sim := rfl
@[simp] theorem State.sendByte_tape (b : Byte) : (s.sendByte b).tape = s.tape := rfl
@[simp] theorem State.sendByte_draws (b : Byte) : (s.sendByte b).draws = s.draws := rfl
@[simp] theorem State.sendByte_pending (b : Byte) : (s.sendByte b).pending = s.pending := rfl
@[simp] theorem State.sendByte_trace (b : Byte) : (s.sendByte b).trace = .tx b :: s.trace := rfl

/-! #### putEcho -/

@[simp] theorem State.putEcho_cfg (sb : SimBus) (e : Byte) : (s.putEcho sb e).cfg = s.cfg := rfl
@[simp] theorem State.putEcho_echoBuffer (sb : SimBus) (e : Byte) : (s.putEcho sb e).echoBuffer = s.echoBuffer := rfl
@[simp] theorem State.putEcho_echoReady (sb : SimBus) (e : Byte) : (s.putEcho sb e).echoReady = s.echoReady := rfl
@[simp] theorem State.putEcho_lastDiscrepancy (sb : SimBus) (e : Byte) : (s.putEcho sb e).lastDiscrepancy = s.lastDiscrepancy := rfl
@[simp] theorem State.putEcho_lastFamilyDiscrepancy (sb : SimBus) (e : Byte) : (s.putEcho sb e).lastFamilyDiscrepancy = s.lastFamilyDiscrepancy := rfl
@[simp] theorem State.putEcho_lastDeviceFlag (sb : SimBus) (e : Byte) : (s.putEcho sb e).lastDeviceFlag = s.lastDeviceFlag := rfl
@[simp] theorem State.putEcho_hasMoreDevices (sb : SimBus) (e : Byte) : (s.putEcho sb e).hasMoreDevices = s.hasMoreDevices := rfl
@[simp] theorem State.putEcho_deviceCount (sb : SimBus) (e : Byte) : (s.putEcho sb e).deviceCount = s.deviceCount := rfl
@[simp] theorem State.putEcho_store (sb : SimBus) (e : Byte) : (s.putEcho sb e).store = s.store := rfl
@[simp] theorem State.putEcho_busy (sb : SimBus) (e : Byte) : (s.putEcho sb e).busy = s.busy := rfl
@[simp] theorem State.putEcho_req (sb : SimBus) (e : Byte) : (s.putEcho sb e).req = s.req := rfl
@[simp] theorem State.putEcho_point (sb : SimBus) (e : Byte) : (s.putEcho sb e).point = s.point := rfl
@[simp] theorem State.putEcho_slot (sb : SimBus) (e : Byte) : (s.putEcho sb e).slot = s.slot := rfl
@[simp] theorem State.putEcho_baud (sb : SimBus) (e : Byte) : (s.putEcho sb e).baud = s.baud := rfl
@[simp] theorem State.putEcho_inFlight (sb : SimBus) (e : Byte) : (s.putEcho sb e).inFlight = s.inFlight ++ [e] := rfl
@[simp] theorem State.putEcho_sim (sb : SimBus) (e : Byte) : (s.putEcho sb e).sim = some sb := rfl
@[simp] theorem State.putEcho_tape (sb : SimBus) (e : Byte) : (s.putEcho sb e).tape = s.tape := rfl
@[simp] theorem State.putEcho_draws (sb : SimBus) (e : Byte) : (s.putEcho sb e).draws = s.draws := rfl
@[simp] theorem State.putEcho_pending (sb : SimBus) (e : Byte) : (s.putEcho sb e).pending = s.pending := rfl
@[simp] theorem State.putEcho_trace (sb : SimBus) (e : Byte) : (s.putEcho sb e).trace = s.trace := rfl

/-! #### freeEcho -/

@[simp] theorem State.freeEcho_cfg (sb : SimBus) : (s.freeEcho sb).cfg = s.cfg := rfl
@[simp] theorem State.freeEcho_echoBuffer (sb : SimBus) : (s.freeEcho sb).echoBuffer = s.echoBuffer := rfl
@[simp] theorem State.freeEcho_echoReady (sb : SimBus) : (s.freeEcho sb).echoReady = s.echoReady := rfl
@[simp] theorem State.freeEcho_lastDiscrepancy (sb : SimBus) : (s.freeEcho sb).lastDiscrepancy = s.lastDiscrepancy := rfl
@[simp] theorem State.freeEcho_lastFamilyDiscrepancy (sb : SimBus) : (s.freeEcho sb).lastFamilyDiscrepancy = s.lastFamilyDiscrepancy := rfl
@[simp] theorem State.freeEcho_lastDeviceFlag (sb : SimBus) : (s.freeEcho sb).lastDeviceFlag = s.lastDeviceFlag := rfl
@[simp] theorem State.freeEcho_hasMoreDevices (sb : SimBus) : (s.freeEcho sb).hasMoreDevices = s.hasMoreDevices := rfl
@[simp] theorem State.freeEcho_deviceCount (sb : SimBus) : (s.freeEcho sb).deviceCount = s.deviceCount := rfl
@[simp] theorem State.freeEcho_store (sb : SimBus) : (s.freeEcho sb).store = s.store := rfl
@[simp] theorem State.freeEcho_busy (sb : SimBus) : (s.freeEcho sb).busy = s.busy := rfl
@[simp] theorem State.freeEcho_req (sb : SimBus) : (s.freeEcho sb).req = s.req := rfl
@[simp] theorem State.freeEcho_point (sb : SimBus) : (s.freeEcho sb).point = s.point := rfl
@[simp] theorem State.freeEcho_slot (sb : SimBus) : (s.freeEcho sb).slot = s.slot := rfl
@[simp] theorem State.freeEcho_baud (sb : SimBus) : (s.freeEcho sb).baud = s.baud := rfl
@[simp] theorem State.freeEcho_inFlight (sb : SimBus) : (s.freeEcho sb).inFlight = s.inFlight ++ (Config.freeDeposit s.draws).toList := rfl
@[simp] theorem State.freeEcho_sim (sb : SimBus) : (s.freeEcho sb).sim = some ⟨sb.devs, .outside, sb.pull⟩ := rfl
@[simp] theorem State.freeEcho_tape (sb : SimBus) : (s.freeEcho sb).tape = s.tape := rfl
@[simp] theorem State.freeEcho_draws (sb : SimBus) : (s.freeEcho sb).draws = s.draws + 1 := rfl
@[simp] theorem State.freeEcho_pending (sb : SimBus) : (s.freeEcho sb).pending = s.pending := rfl
@[simp] theorem State.freeEcho_trace (sb : SimBus) : (s.freeEcho sb).trace = s.trace := rfl

/-! #### attach -/

@[simp] theorem State.attach_cfg (devs : List Device) (pull : Byte) : (s.attach devs pull).cfg = s.cfg := rfl
@[simp] theorem State.attach_echoBuffer (devs : List Device) (pull : Byte) : (s.attach devs pull).echoBuffer = s.echoBuffer := rfl
@[simp] theorem State.attach_echoReady (devs : List Device) (pull : Byte) : (s.attach devs pull).echoReady = s.echoReady := rfl
@[simp] theorem State.attach_lastDiscrepancy (devs : List Device) (pull : Byte) : (s.attach devs pull).lastDiscrepancy = s.lastDiscrepancy := rfl
@[simp] theorem State.attach_lastFamilyDiscrepancy (devs : List Device) (pull : Byte) : (s.attach devs pull).lastFamilyDiscrepancy = s.lastFamilyDiscrepancy := rfl
@[simp] theorem State.attach_lastDeviceFlag (devs : List Device) (pull : Byte) : (s.attach devs pull).lastDeviceFlag = s.lastDeviceFlag := rfl
@[simp] theorem State.attach_hasMoreDevices (devs : List Device) (pull : Byte) : (s.attach devs pull).hasMoreDevices = s.hasMoreDevices := rfl
@[simp] theorem State.attach_deviceCount (devs : List Device) (pull : Byte) : (s.attach devs pull).deviceCount = s.deviceCount := rfl
@[simp] theorem State.attach_store (devs : List Device) (pull : Byte) : (s.attach devs pull).store = s.store := rfl
@[simp] theorem State.attach_busy (devs : List Device) (pull : Byte) : (s.attach devs pull).busy = s.busy := rfl
@[simp] theorem State.attach_req (devs : List Device) (pull : Byte) : (s.attach devs pull).req = s.req := rfl
@[simp] theorem State.attach_point (devs : List Device) (pull : Byte) : (s.attach devs pull).point = s.point := rfl
@[simp] theorem State.attach_slot (devs : List Device) (pull : Byte) : (s.attach devs pull).slot = s.slot := rfl
@[simp] theorem State.attach_baud (devs : List Device) (pull : Byte) : (s.attach devs pull).baud = s.baud := rfl
@[simp] theorem State.attach_inFlight (devs : List Device) (pull : Byte) : (s.attach devs pull).inFlight = s.inFlight := rfl
@[simp] theorem State.attach_sim (devs : List Device) (pull : Byte) : (s.attach devs pull).sim = some (SimBus.initial devs pull) := rfl
@[simp] theorem State.attach_tape (devs : List Device) (pull : Byte) : (s.attach devs pull).tape = s.tape := rfl
@[simp] theorem State.attach_draws (devs : List Device) (pull : Byte) : (s.attach devs pull).draws = s.draws := rfl
@[simp] theorem State.attach_pending (devs : List Device) (pull : Byte) : (s.attach devs pull).pending = s.pending := rfl
@[simp] theorem State.attach_trace (devs : List Device) (pull : Byte) : (s.attach devs pull).trace = s.trace := rfl

/-! #### consume -/

@[simp] theorem State.consume_cfg : (s.consume).cfg = s.cfg := rfl
@[simp] theorem State.consume_echoBuffer : (s.consume).echoBuffer = s.echoBuffer := rfl
@[simp] theorem State.consume_echoReady : (s.consume).echoReady = false := rfl
@[simp] theorem State.consume_lastDiscrepancy : (s.consume).lastDiscrepancy = s.lastDiscrepancy := rfl
@[simp] theorem State.consume_lastFamilyDiscrepancy : (s.consume).lastFamilyDiscrepancy = s.lastFamilyDiscrepancy := rfl
@[simp] theorem State.consume_lastDeviceFlag : (s.consume).lastDeviceFlag = s.lastDeviceFlag := rfl
@[simp] theorem State.consume_hasMoreDevices : (s.consume).hasMoreDevices = s.hasMoreDevices := rfl
@[simp] theorem State.consume_deviceCount : (s.consume).deviceCount = s.deviceCount := rfl
@[simp] theorem State.consume_store : (s.consume).store = s.store := rfl
@[simp] theorem State.consume_busy : (s.consume).busy = s.busy := rfl
@[simp] theorem State.consume_req : (s.consume).req = s.req := rfl
@[simp] theorem State.consume_point : (s.consume).point = s.point := rfl
@[simp] theorem State.consume_slot : (s.consume).slot = s.slot := rfl
@[simp] theorem State.consume_baud : (s.consume).baud = s.baud := rfl
@[simp] theorem State.consume_inFlight : (s.consume).inFlight = s.inFlight := rfl
@[simp] theorem State.consume_sim : (s.consume).sim = s.sim := rfl
@[simp] theorem State.consume_tape : (s.consume).tape = s.tape := rfl
@[simp] theorem State.consume_draws : (s.consume).draws = s.draws := rfl
@[simp] theorem State.consume_pending : (s.consume).pending = s.pending := rfl
@[simp] theorem State.consume_trace : (s.consume).trace = s.trace := rfl

/-! #### setCount -/

@[simp] theorem State.setCount_cfg (n : Byte) : (s.setCount n).cfg = s.cfg := rfl
@[simp] theorem State.setCount_echoBuffer (n : Byte) : (s.setCount n).echoBuffer = s.echoBuffer := rfl
@[simp] theorem State.setCount_echoReady (n : Byte) : (s.setCount n).echoReady = s.echoReady := rfl
@[simp] theorem State.setCount_lastDiscrepancy (n : Byte) : (s.setCount n).lastDiscrepancy = s.lastDiscrepancy := rfl
@[simp] theorem State.setCount_lastFamilyDiscrepancy (n : Byte) : (s.setCount n).lastFamilyDiscrepancy = s.lastFamilyDiscrepancy := rfl
@[simp] theorem State.setCount_lastDeviceFlag (n : Byte) : (s.setCount n).lastDeviceFlag = s.lastDeviceFlag := rfl
@[simp] theorem State.setCount_hasMoreDevices (n : Byte) : (s.setCount n).hasMoreDevices = s.hasMoreDevices := rfl
@[simp] theorem State.setCount_deviceCount (n : Byte) : (s.setCount n).deviceCount = n := rfl
@[simp] theorem State.setCount_store (n : Byte) : (s.setCount n).store = s.store := rfl
@[simp] theorem State.setCount_busy (n : Byte) : (s.setCount n).busy = s.busy := rfl
@[simp] theorem State.setCount_req (n : Byte) : (s.setCount n).req = s.req := rfl
@[simp] theorem State.setCount_point (n : Byte) : (s.setCount n).point = s.point := rfl
@[simp] theorem State.setCount_slot (n : Byte) : (s.setCount n).slot = s.slot := rfl
@[simp] theorem State.setCount_baud (n : Byte) : (s.setCount n).baud = s.baud := rfl
@[simp] theorem State.setCount_inFlight (n : Byte) : (s.setCount n).inFlight = s.inFlight := rfl
@[simp] theorem State.setCount_sim (n : Byte) : (s.setCount n).sim = s.sim := rfl
@[simp] theorem State.setCount_tape (n : Byte) : (s.setCount n).tape = s.tape := rfl
@[simp] theorem State.setCount_draws (n : Byte) : (s.setCount n).draws = s.draws := rfl
@[simp] theorem State.setCount_pending (n : Byte) : (s.setCount n).pending = s.pending := rfl
@[simp] theorem State.setCount_trace (n : Byte) : (s.setCount n).trace = s.trace := rfl

/-! #### setSearch -/

@[simp] theorem State.setSearch_cfg (ld : BitVec 7) (lfd : BitVec 4) (ldf : Bool) : (s.setSearch ld lfd ldf).cfg = s.cfg := rfl
@[simp] theorem State.setSearch_echoBuffer (ld : BitVec 7) (lfd : BitVec 4) (ldf : Bool) : (s.setSearch ld lfd ldf).echoBuffer = s.echoBuffer := rfl
@[simp] theorem State.setSearch_echoReady (ld : BitVec 7) (lfd : BitVec 4) (ldf : Bool) : (s.setSearch ld lfd ldf).echoReady = s.echoReady := rfl
@[simp] theorem State.setSearch_lastDiscrepancy (ld : BitVec 7) (lfd : BitVec 4) (ldf : Bool) : (s.setSearch ld lfd ldf).lastDiscrepancy = ld := rfl
@[simp] theorem State.setSearch_lastFamilyDiscrepancy (ld : BitVec 7) (lfd : BitVec 4) (ldf : Bool) : (s.setSearch ld lfd ldf).lastFamilyDiscrepancy = lfd := rfl
@[simp] theorem State.setSearch_lastDeviceFlag (ld : BitVec 7) (lfd : BitVec 4) (ldf : Bool) : (s.setSearch ld lfd ldf).lastDeviceFlag = ldf := rfl
@[simp] theorem State.setSearch_hasMoreDevices (ld : BitVec 7) (lfd : BitVec 4) (ldf : Bool) : (s.setSearch ld lfd ldf).hasMoreDevices = s.hasMoreDevices := rfl
@[simp] theorem State.setSearch_deviceCount (ld : BitVec 7) (lfd : BitVec 4) (ldf : Bool) : (s.setSearch ld lfd ldf).deviceCount = s.deviceCount := rfl
@[simp] theorem State.setSearch_store (ld : BitVec 7) (lfd : BitVec 4) (ldf : Bool) : (s.setSearch ld lfd ldf).store = s.store := rfl
@[simp] theorem State.setSearch_busy (ld : BitVec 7) (lfd : BitVec 4) (ldf : Bool) : (s.setSearch ld lfd ldf).busy = s.busy := rfl
@[simp] theorem State.setSearch_req (ld : BitVec 7) (lfd : BitVec 4) (ldf : Bool) : (s.setSearch ld lfd ldf).req = s.req := rfl
@[simp] theorem State.setSearch_point (ld : BitVec 7) (lfd : BitVec 4) (ldf : Bool) : (s.setSearch ld lfd ldf).point = s.point := rfl
@[simp] theorem State.setSearch_slot (ld : BitVec 7) (lfd : BitVec 4) (ldf : Bool) : (s.setSearch ld lfd ldf).slot = s.slot := rfl
@[simp] theorem State.setSearch_baud (ld : BitVec 7) (lfd : BitVec 4) (ldf : Bool) : (s.setSearch ld lfd ldf).baud = s.baud := rfl
@[simp] theorem State.setSearch_inFlight (ld : BitVec 7) (lfd : BitVec 4) (ldf : Bool) : (s.setSearch ld lfd ldf).inFlight = s.inFlight := rfl
@[simp] theorem State.setSearch_sim (ld : BitVec 7) (lfd : BitVec 4) (ldf : Bool) : (s.setSearch ld lfd ldf).sim = s.sim := rfl
@[simp] theorem State.setSearch_tape (ld : BitVec 7) (lfd : BitVec 4) (ldf : Bool) : (s.setSearch ld lfd ldf).tape = s.tape := rfl
@[simp] theorem State.setSearch_draws (ld : BitVec 7) (lfd : BitVec 4) (ldf : Bool) : (s.setSearch ld lfd ldf).draws = s.draws := rfl
@[simp] theorem State.setSearch_pending (ld : BitVec 7) (lfd : BitVec 4) (ldf : Bool) : (s.setSearch ld lfd ldf).pending = s.pending := rfl
@[simp] theorem State.setSearch_trace (ld : BitVec 7) (lfd : BitVec 4) (ldf : Bool) : (s.setSearch ld lfd ldf).trace = s.trace := rfl

/-! #### append -/

@[simp] theorem State.append_cfg (r : Rom) : (s.append r).cfg = s.cfg := rfl
@[simp] theorem State.append_echoBuffer (r : Rom) : (s.append r).echoBuffer = s.echoBuffer := rfl
@[simp] theorem State.append_echoReady (r : Rom) : (s.append r).echoReady = s.echoReady := rfl
@[simp] theorem State.append_lastDiscrepancy (r : Rom) : (s.append r).lastDiscrepancy = s.lastDiscrepancy := rfl
@[simp] theorem State.append_lastFamilyDiscrepancy (r : Rom) : (s.append r).lastFamilyDiscrepancy = s.lastFamilyDiscrepancy := rfl
@[simp] theorem State.append_lastDeviceFlag (r : Rom) : (s.append r).lastDeviceFlag = s.lastDeviceFlag := rfl
@[simp] theorem State.append_hasMoreDevices (r : Rom) : (s.append r).hasMoreDevices = s.hasMoreDevices := rfl
@[simp] theorem State.append_deviceCount (r : Rom) : (s.append r).deviceCount = s.deviceCount + 1 := rfl
@[simp] theorem State.append_store (r : Rom) : (s.append r).store = writeRomAt s.store (entryAddr s.deviceCount.toNat) r := rfl
@[simp] theorem State.append_busy (r : Rom) : (s.append r).busy = s.busy := rfl
@[simp] theorem State.append_req (r : Rom) : (s.append r).req = s.req := rfl
@[simp] theorem State.append_point (r : Rom) : (s.append r).point = s.point := rfl
@[simp] theorem State.append_slot (r : Rom) : (s.append r).slot = s.slot := rfl
@[simp] theorem State.append_baud (r : Rom) : (s.append r).baud = s.baud := rfl
@[simp] theorem State.append_inFlight (r : Rom) : (s.append r).inFlight = s.inFlight := rfl
@[simp] theorem State.append_sim (r : Rom) : (s.append r).sim = s.sim := rfl
@[simp] theorem State.append_tape (r : Rom) : (s.append r).tape = s.tape := rfl
@[simp] theorem State.append_draws (r : Rom) : (s.append r).draws = s.draws := rfl
@[simp] theorem State.append_pending (r : Rom) : (s.append r).pending = s.pending := rfl
@[simp] theorem State.append_trace (r : Rom) : (s.append r).trace = s.trace := rfl

/-! #### setMore -/

@[simp] theorem State.setMore_cfg : (s.setMore).cfg = s.cfg := rfl
@[simp] theorem State.setMore_echoBuffer : (s.setMore).echoBuffer = s.echoBuffer := rfl
@[simp] theorem State.setMore_echoReady : (s.setMore).echoReady = s.echoReady := rfl
@[simp] theorem State.setMore_lastDiscrepancy : (s.setMore).lastDiscrepancy = s.lastDiscrepancy := rfl
@[simp] theorem State.setMore_lastFamilyDiscrepancy : (s.setMore).lastFamilyDiscrepancy = s.lastFamilyDiscrepancy := rfl
@[simp] theorem State.setMore_lastDeviceFlag : (s.setMore).lastDeviceFlag = s.lastDeviceFlag := rfl
@[simp] theorem State.setMore_hasMoreDevices : (s.setMore).hasMoreDevices = true := rfl
@[simp] theorem State.setMore_deviceCount : (s.setMore).deviceCount = s.deviceCount := rfl
@[simp] theorem State.setMore_store : (s.setMore).store = s.store := rfl
@[simp] theorem State.setMore_busy : (s.setMore).busy = s.busy := rfl
@[simp] theorem State.setMore_req : (s.setMore).req = s.req := rfl
@[simp] theorem State.setMore_point : (s.setMore).point = s.point := rfl
@[simp] theorem State.setMore_slot : (s.setMore).slot = s.slot := rfl
@[simp] theorem State.setMore_baud : (s.setMore).baud = s.baud := rfl
@[simp] theorem State.setMore_inFlight : (s.setMore).inFlight = s.inFlight := rfl
@[simp] theorem State.setMore_sim : (s.setMore).sim = s.sim := rfl
@[simp] theorem State.setMore_tape : (s.setMore).tape = s.tape := rfl
@[simp] theorem State.setMore_draws : (s.setMore).draws = s.draws := rfl
@[simp] theorem State.setMore_pending : (s.setMore).pending = s.pending := rfl
@[simp] theorem State.setMore_trace : (s.setMore).trace = s.trace := rfl

/-! #### setPoint -/

@[simp] theorem State.setPoint_cfg (p : Point) : (s.setPoint p).cfg = s.cfg := rfl
@[simp] theorem State.setPoint_echoBuffer (p : Point) : (s.setPoint p).echoBuffer = s.echoBuffer := rfl
@[simp] theorem State.setPoint_echoReady (p : Point) : (s.setPoint p).echoReady = s.echoReady := rfl
@[simp] theorem State.setPoint_lastDiscrepancy (p : Point) : (s.setPoint p).lastDiscrepancy = s.lastDiscrepancy := rfl
@[simp] theorem State.setPoint_lastFamilyDiscrepancy (p : Point) : (s.setPoint p).lastFamilyDiscrepancy = s.lastFamilyDiscrepancy := rfl
@[simp] theorem State.setPoint_lastDeviceFlag (p : Point) : (s.setPoint p).lastDeviceFlag = s.lastDeviceFlag := rfl
@[simp] theorem State.setPoint_hasMoreDevices (p : Point) : (s.setPoint p).hasMoreDevices = s.hasMoreDevices := rfl
@[simp] theorem State.setPoint_deviceCount (p : Point) : (s.setPoint p).deviceCount = s.deviceCount := rfl
@[simp] theorem State.setPoint_store (p : Point) : (s.setPoint p).store = s.store := rfl
@[simp] theorem State.setPoint_busy (p : Point) : (s.setPoint p).busy = s.busy := rfl
@[simp] theorem State.setPoint_req (p : Point) : (s.setPoint p).req = s.req := rfl
@[simp] theorem State.setPoint_point (p : Point) : (s.setPoint p).point = p := rfl
@[simp] theorem State.setPoint_slot (p : Point) : (s.setPoint p).slot = s.slot := rfl
@[simp] theorem State.setPoint_baud (p : Point) : (s.setPoint p).baud = s.baud := rfl
@[simp] theorem State.setPoint_inFlight (p : Point) : (s.setPoint p).inFlight = s.inFlight := rfl
@[simp] theorem State.setPoint_sim (p : Point) : (s.setPoint p).sim = s.sim := rfl
@[simp] theorem State.setPoint_tape (p : Point) : (s.setPoint p).tape = s.tape := rfl
@[simp] theorem State.setPoint_draws (p : Point) : (s.setPoint p).draws = s.draws := rfl
@[simp] theorem State.setPoint_pending (p : Point) : (s.setPoint p).pending = s.pending := rfl
@[simp] theorem State.setPoint_trace (p : Point) : (s.setPoint p).trace = s.trace := rfl

/-! #### setSlot -/

@[simp] theorem State.setSlot_cfg (r : SlotResult) : (s.setSlot r).cfg = s.cfg := rfl
@[simp] theorem State.setSlot_echoBuffer (r : SlotResult) : (s.setSlot r).echoBuffer = s.echoBuffer := rfl
@[simp] theorem State.setSlot_echoReady (r : SlotResult) : (s.setSlot r).echoReady = s.echoReady := rfl
@[simp] theorem State.setSlot_lastDiscrepancy (r : SlotResult) : (s.setSlot r).lastDiscrepancy = s.lastDiscrepancy := rfl
@[simp] theorem State.setSlot_lastFamilyDiscrepancy (r : SlotResult) : (s.setSlot r).lastFamilyDiscrepancy = s.lastFamilyDiscrepancy := rfl
@[simp] theorem State.setSlot_lastDeviceFlag (r : SlotResult) : (s.setSlot r).lastDeviceFlag = s.lastDeviceFlag := rfl
@[simp] theorem State.setSlot_hasMoreDevices (r : SlotResult) : (s.setSlot r).hasMoreDevices = s.hasMoreDevices := rfl
@[simp] theorem State.setSlot_deviceCount (r : SlotResult) : (s.setSlot r).deviceCount = s.deviceCount := rfl
@[simp] theorem State.setSlot_store (r : SlotResult) : (s.setSlot r).store = s.store := rfl
@[simp] theorem State.setSlot_busy (r : SlotResult) : (s.setSlot r).busy = s.busy := rfl
@[simp] theorem State.setSlot_req (r : SlotResult) : (s.setSlot r).req = s.req := rfl
@[simp] theorem State.setSlot_point (r : SlotResult) : (s.setSlot r).point = s.point := rfl
@[simp] theorem State.setSlot_slot (r : SlotResult) : (s.setSlot r).slot = r := rfl
@[simp] theorem State.setSlot_baud (r : SlotResult) : (s.setSlot r).baud = s.baud := rfl
@[simp] theorem State.setSlot_inFlight (r : SlotResult) : (s.setSlot r).inFlight = s.inFlight := rfl
@[simp] theorem State.setSlot_sim (r : SlotResult) : (s.setSlot r).sim = s.sim := rfl
@[simp] theorem State.setSlot_tape (r : SlotResult) : (s.setSlot r).tape = s.tape := rfl
@[simp] theorem State.setSlot_draws (r : SlotResult) : (s.setSlot r).draws = s.draws := rfl
@[simp] theorem State.setSlot_pending (r : SlotResult) : (s.setSlot r).pending = s.pending := rfl
@[simp] theorem State.setSlot_trace (r : SlotResult) : (s.setSlot r).trace = s.trace := rfl

/-! #### storeScratchBit -/

@[simp] theorem State.storeScratchBit_cfg (p : Nat) (d : Bool) : (s.storeScratchBit p d).cfg = s.cfg := rfl
@[simp] theorem State.storeScratchBit_echoBuffer (p : Nat) (d : Bool) : (s.storeScratchBit p d).echoBuffer = s.echoBuffer := rfl
@[simp] theorem State.storeScratchBit_echoReady (p : Nat) (d : Bool) : (s.storeScratchBit p d).echoReady = s.echoReady := rfl
@[simp] theorem State.storeScratchBit_lastDiscrepancy (p : Nat) (d : Bool) : (s.storeScratchBit p d).lastDiscrepancy = s.lastDiscrepancy := rfl
@[simp] theorem State.storeScratchBit_lastFamilyDiscrepancy (p : Nat) (d : Bool) : (s.storeScratchBit p d).lastFamilyDiscrepancy = s.lastFamilyDiscrepancy := rfl
@[simp] theorem State.storeScratchBit_lastDeviceFlag (p : Nat) (d : Bool) : (s.storeScratchBit p d).lastDeviceFlag = s.lastDeviceFlag := rfl
@[simp] theorem State.storeScratchBit_hasMoreDevices (p : Nat) (d : Bool) : (s.storeScratchBit p d).hasMoreDevices = s.hasMoreDevices := rfl
@[simp] theorem State.storeScratchBit_deviceCount (p : Nat) (d : Bool) : (s.storeScratchBit p d).deviceCount = s.deviceCount := rfl
@[simp] theorem State.storeScratchBit_store (p : Nat) (d : Bool) : (s.storeScratchBit p d).store = writeByteAt s.store (p / 8) (setBit (readByteAt s.store (p / 8)) (p % 8) d) := rfl
@[simp] theorem State.storeScratchBit_busy (p : Nat) (d : Bool) : (s.storeScratchBit p d).busy = s.busy := rfl
@[simp] theorem State.storeScratchBit_req (p : Nat) (d : Bool) : (s.storeScratchBit p d).req = s.req := rfl
@[simp] theorem State.storeScratchBit_point (p : Nat) (d : Bool) : (s.storeScratchBit p d).point = s.point := rfl
@[simp] theorem State.storeScratchBit_slot (p : Nat) (d : Bool) : (s.storeScratchBit p d).slot = s.slot := rfl
@[simp] theorem State.storeScratchBit_baud (p : Nat) (d : Bool) : (s.storeScratchBit p d).baud = s.baud := rfl
@[simp] theorem State.storeScratchBit_inFlight (p : Nat) (d : Bool) : (s.storeScratchBit p d).inFlight = s.inFlight := rfl
@[simp] theorem State.storeScratchBit_sim (p : Nat) (d : Bool) : (s.storeScratchBit p d).sim = s.sim := rfl
@[simp] theorem State.storeScratchBit_tape (p : Nat) (d : Bool) : (s.storeScratchBit p d).tape = s.tape := rfl
@[simp] theorem State.storeScratchBit_draws (p : Nat) (d : Bool) : (s.storeScratchBit p d).draws = s.draws := rfl
@[simp] theorem State.storeScratchBit_pending (p : Nat) (d : Bool) : (s.storeScratchBit p d).pending = s.pending := rfl
@[simp] theorem State.storeScratchBit_trace (p : Nat) (d : Bool) : (s.storeScratchBit p d).trace = s.trace := rfl

/-! #### clear -/

@[simp] theorem State.clear_cfg : (s.clear).cfg = s.cfg := rfl
@[simp] theorem State.clear_echoBuffer : (s.clear).echoBuffer = 0 := rfl
@[simp] theorem State.clear_echoReady : (s.clear).echoReady = false := rfl
@[simp] theorem State.clear_lastDiscrepancy : (s.clear).lastDiscrepancy = 0 := rfl
@[simp] theorem State.clear_lastFamilyDiscrepancy : (s.clear).lastFamilyDiscrepancy = 0 := rfl
@[simp] theorem State.clear_lastDeviceFlag : (s.clear).lastDeviceFlag = false := rfl
@[simp] theorem State.clear_hasMoreDevices : (s.clear).hasMoreDevices = false := rfl
@[simp] theorem State.clear_deviceCount : (s.clear).deviceCount = 0 := rfl
@[simp] theorem State.clear_store : (s.clear).store = clearStore s.cfg s.store := rfl
@[simp] theorem State.clear_busy : (s.clear).busy = s.busy := rfl
@[simp] theorem State.clear_req : (s.clear).req = s.req := rfl
@[simp] theorem State.clear_point : (s.clear).point = s.point := rfl
@[simp] theorem State.clear_slot : (s.clear).slot = s.slot := rfl
@[simp] theorem State.clear_baud : (s.clear).baud = s.baud := rfl
@[simp] theorem State.clear_inFlight : (s.clear).inFlight = s.inFlight := rfl
@[simp] theorem State.clear_sim : (s.clear).sim = s.sim := rfl
@[simp] theorem State.clear_tape : (s.clear).tape = s.tape := rfl
@[simp] theorem State.clear_draws : (s.clear).draws = s.draws := rfl
@[simp] theorem State.clear_pending : (s.clear).pending = s.pending := rfl
@[simp] theorem State.clear_trace : (s.clear).trace = s.trace := rfl

/-! #### hardReset -/

@[simp] theorem State.hardReset_cfg : (s.hardReset).cfg = s.cfg := rfl
@[simp] theorem State.hardReset_echoBuffer : (s.hardReset).echoBuffer = 0 := rfl
@[simp] theorem State.hardReset_echoReady : (s.hardReset).echoReady = false := rfl
@[simp] theorem State.hardReset_lastDiscrepancy : (s.hardReset).lastDiscrepancy = 0 := rfl
@[simp] theorem State.hardReset_lastFamilyDiscrepancy : (s.hardReset).lastFamilyDiscrepancy = 0 := rfl
@[simp] theorem State.hardReset_lastDeviceFlag : (s.hardReset).lastDeviceFlag = false := rfl
@[simp] theorem State.hardReset_hasMoreDevices : (s.hardReset).hasMoreDevices = false := rfl
@[simp] theorem State.hardReset_deviceCount : (s.hardReset).deviceCount = 0 := rfl
@[simp] theorem State.hardReset_store : (s.hardReset).store = [] := rfl
@[simp] theorem State.hardReset_busy : (s.hardReset).busy = false := rfl
@[simp] theorem State.hardReset_req : (s.hardReset).req = 0 := rfl
@[simp] theorem State.hardReset_point : (s.hardReset).point = .start := rfl
@[simp] theorem State.hardReset_slot : (s.hardReset).slot = .nothing := rfl
@[simp] theorem State.hardReset_baud : (s.hardReset).baud = s.baud := rfl
@[simp] theorem State.hardReset_inFlight : (s.hardReset).inFlight = s.inFlight := rfl
@[simp] theorem State.hardReset_sim : (s.hardReset).sim = s.sim := rfl
@[simp] theorem State.hardReset_tape : (s.hardReset).tape = s.tape := rfl
@[simp] theorem State.hardReset_draws : (s.hardReset).draws = s.draws := rfl
@[simp] theorem State.hardReset_pending : (s.hardReset).pending = s.pending := rfl
@[simp] theorem State.hardReset_trace : (s.hardReset).trace = s.trace := rfl

/-! #### accept -/

@[simp] theorem State.accept_cfg (w : HostWord) (rest : List HostWord) : (s.accept w rest).cfg = s.cfg := rfl
@[simp] theorem State.accept_echoBuffer (w : HostWord) (rest : List HostWord) : (s.accept w rest).echoBuffer = s.echoBuffer := rfl
@[simp] theorem State.accept_echoReady (w : HostWord) (rest : List HostWord) : (s.accept w rest).echoReady = s.echoReady := rfl
@[simp] theorem State.accept_lastDiscrepancy (w : HostWord) (rest : List HostWord) : (s.accept w rest).lastDiscrepancy = s.lastDiscrepancy := rfl
@[simp] theorem State.accept_lastFamilyDiscrepancy (w : HostWord) (rest : List HostWord) : (s.accept w rest).lastFamilyDiscrepancy = s.lastFamilyDiscrepancy := rfl
@[simp] theorem State.accept_lastDeviceFlag (w : HostWord) (rest : List HostWord) : (s.accept w rest).lastDeviceFlag = s.lastDeviceFlag := rfl
@[simp] theorem State.accept_hasMoreDevices (w : HostWord) (rest : List HostWord) : (s.accept w rest).hasMoreDevices = s.hasMoreDevices := rfl
@[simp] theorem State.accept_deviceCount (w : HostWord) (rest : List HostWord) : (s.accept w rest).deviceCount = s.deviceCount := rfl
@[simp] theorem State.accept_store (w : HostWord) (rest : List HostWord) : (s.accept w rest).store = s.store := rfl
@[simp] theorem State.accept_busy (w : HostWord) (rest : List HostWord) : (s.accept w rest).busy = true := rfl
@[simp] theorem State.accept_req (w : HostWord) (rest : List HostWord) : (s.accept w rest).req = w := rfl
@[simp] theorem State.accept_point (w : HostWord) (rest : List HostWord) : (s.accept w rest).point = .start := rfl
@[simp] theorem State.accept_slot (w : HostWord) (rest : List HostWord) : (s.accept w rest).slot = s.slot := rfl
@[simp] theorem State.accept_baud (w : HostWord) (rest : List HostWord) : (s.accept w rest).baud = s.baud := rfl
@[simp] theorem State.accept_inFlight (w : HostWord) (rest : List HostWord) : (s.accept w rest).inFlight = s.inFlight := rfl
@[simp] theorem State.accept_sim (w : HostWord) (rest : List HostWord) : (s.accept w rest).sim = s.sim := rfl
@[simp] theorem State.accept_tape (w : HostWord) (rest : List HostWord) : (s.accept w rest).tape = s.tape := rfl
@[simp] theorem State.accept_draws (w : HostWord) (rest : List HostWord) : (s.accept w rest).draws = s.draws := rfl
@[simp] theorem State.accept_pending (w : HostWord) (rest : List HostWord) : (s.accept w rest).pending = rest := rfl
@[simp] theorem State.accept_trace (w : HostWord) (rest : List HostWord) : (s.accept w rest).trace = s.trace := rfl

/-! #### respond -/

@[simp] theorem State.respond_cfg (r : Response) : (s.respond r).cfg = s.cfg := rfl
@[simp] theorem State.respond_echoBuffer (r : Response) : (s.respond r).echoBuffer = s.echoBuffer := rfl
@[simp] theorem State.respond_echoReady (r : Response) : (s.respond r).echoReady = s.echoReady := rfl
@[simp] theorem State.respond_lastDiscrepancy (r : Response) : (s.respond r).lastDiscrepancy = s.lastDiscrepancy := rfl
@[simp] theorem State.respond_lastFamilyDiscrepancy (r : Response) : (s.respond r).lastFamilyDiscrepancy = s.lastFamilyDiscrepancy := rfl
@[simp] theorem State.respond_lastDeviceFlag (r : Response) : (s.respond r).lastDeviceFlag = s.lastDeviceFlag := rfl
@[simp] theorem State.respond_hasMoreDevices (r : Response) : (s.respond r).hasMoreDevices = s.hasMoreDevices := rfl
@[simp] theorem State.respond_deviceCount (r : Response) : (s.respond r).deviceCount = s.deviceCount := rfl
@[simp] theorem State.respond_store (r : Response) : (s.respond r).store = s.store := rfl
@[simp] theorem State.respond_busy (r : Response) : (s.respond r).busy = false := rfl
@[simp] theorem State.respond_req (r : Response) : (s.respond r).req = s.req := rfl
@[simp] theorem State.respond_point (r : Response) : (s.respond r).point = .start := rfl
@[simp] theorem State.respond_slot (r : Response) : (s.respond r).slot = s.slot := rfl
@[simp] theorem State.respond_baud (r : Response) : (s.respond r).baud = s.baud := rfl
@[simp] theorem State.respond_inFlight (r : Response) : (s.respond r).inFlight = s.inFlight := rfl
@[simp] theorem State.respond_sim (r : Response) : (s.respond r).sim = s.sim := rfl
@[simp] theorem State.respond_tape (r : Response) : (s.respond r).tape = s.tape := rfl
@[simp] theorem State.respond_draws (r : Response) : (s.respond r).draws = s.draws := rfl
@[simp] theorem State.respond_pending (r : Response) : (s.respond r).pending = s.pending := rfl
@[simp] theorem State.respond_trace (r : Response) : (s.respond r).trace = .rsp r.word :: s.trace := rfl

end

/-! ### What is sent -/

@[simp] theorem Sent.byte_write (w : Bool) : (Sent.write w).byte = slotByte w := rfl
@[simp] theorem Sent.byte_read : Sent.read.byte = 0xFF := rfl
@[simp] theorem Sent.byte_other (b : Byte) : (Sent.other b).byte = b := rfl
@[simp] theorem Sent.written_write (w : Bool) : (Sent.write w).written = some w := rfl
@[simp] theorem Sent.written_read : Sent.read.written = none := rfl

end Sys2Proof.Machine
end

