-- ==== Sys2Proof/Laws/Monad.lean ====
section
/-! SUPPORT. How the computations of Machine/Ops.lean run: their building blocks applied to a state, the inversion of a
sequence, and one closure lemma for predicates that every atomic step keeps. -/

namespace Sys2Proof.Machine

variable {α β : Type}

/-! ### Building blocks -/

@[simp] theorem pure_run (a : α) (s : State) : (pure a : M α) s = .ok a s := rfl

@[simp] theorem look_run (s : State) : look s = .ok s s := rfl

@[simp] theorem update_run (f : State → State) (s : State) : update f s = .ok () (f s) := rfl

@[simp] theorem raiseTimeout_run (s : State) : (raiseTimeout : M α) s = .error .timeout s := rfl

/-- A sequence runs its first part, then its second from the state the first left. -/
theorem bind_run (m : M α) (f : α → M β) (s : State) :
    (m >>= f) s = match m s with
      | .ok a t => f a t
      | .error e t => .error e t := by
  show EStateM.bind m f s = _
  unfold EStateM.bind
  cases m s <;> rfl

theorem bind_run_ok {m : M α} {s t : State} {a : α} (h : m s = .ok a t) (f : α → M β) :
    (m >>= f) s = f a t := by
  rw [bind_run, h]

theorem bind_run_error {m : M α} {s t : State} {e : Stop} (h : m s = .error e t) (f : α → M β) :
    (m >>= f) s = .error e t := by
  rw [bind_run, h]

/-- A sequence that ends normally: both parts did. -/
theorem bind_eq_ok {m : M α} {f : α → M β} {s u : State} {b : β} :
    (m >>= f) s = .ok b u ↔ ∃ a t, m s = .ok a t ∧ f a t = .ok b u := by
  rw [bind_run]
  cases hm : m s with
  | ok a t => simp
  | error e t => simp

/-- A sequence that ends early: its first part did, or its second. -/
theorem bind_eq_error {m : M α} {f : α → M β} {s u : State} {e : Stop} :
    (m >>= f) s = .error e u ↔
      m s = .error e u ∨ ∃ a t, m s = .ok a t ∧ f a t = .error e u := by
  rw [bind_run]
  cases hm : m s with
  | ok a t => simp
  | error e' t => simp

@[simp] theorem look_bind (f : State → M β) (s : State) : (look >>= f) s = f s s := rfl

@[simp] theorem update_bind (g : State → State) (f : Unit → M β) (s : State) :
    (update g >>= f) s = f () (g s) := rfl

@[simp] theorem pure_bind_run (a : α) (f : α → M β) (s : State) : ((pure a : M α) >>= f) s = f a s := rfl

/-! ### Predicates on how a computation ends -/

/-- The end of a computation begun in `s` is one that `Q` allows: `Q start how end`, the how being `none` for a normal end. -/
def Goes (Q : State → Option Stop → State → Prop) (s : State) : EStateM.Result Stop State α → Prop
  | .ok _ t => Q s none t
  | .error e t => Q s (some e) t

/-- From every state `m` ends as `Q` allows. -/
def Ends (Q : State → Option Stop → State → Prop) (m : M α) : Prop := ∀ s, Goes Q s (m s)

/-- What makes `Q` closed under sequencing. -/
structure Composes (Q : State → Option Stop → State → Prop) : Prop where
  refl : ∀ s, Q s none s
  timeout : ∀ s, Q s (some .timeout) s
  trans : ∀ {s t u h}, Q s none t → Q t h u → Q s h u

section
variable {Q : State → Option Stop → State → Prop}

theorem Ends.of_ok {m : M α} {s t : State} {a : α} (h : Ends Q m) (hm : m s = .ok a t) : Q s none t := by
  have := h s
  rwa [hm] at this

theorem Ends.of_error {m : M α} {s t : State} {e : Stop} (h : Ends Q m) (hm : m s = .error e t) :
    Q s (some e) t := by
  have := h s
  rwa [hm] at this

theorem Goes.trans (hQ : Composes Q) {s t : State} {r : EStateM.Result Stop State α} (h : Q s none t)
    (hr : Goes Q t r) : Goes Q s r := by
  cases r with
  | ok a u => exact hQ.trans h hr
  | error e u => exact hQ.trans h hr

/-- A sequence at one state: its first part, then the rest from whatever the first part leaves. -/
theorem Goes.bind (hQ : Composes Q) {m : M α} {f : α → M β} {s : State} (hm : Goes Q s (m s))
    (hf : ∀ a t, m s = .ok a t → Goes Q t (f a t)) : Goes Q s ((m >>= f) s) := by
  rw [bind_run]
  cases h : m s with
  | ok a t =>
    rw [h] at hm
    exact Goes.trans hQ hm (hf a t h)
  | error e t =>
    rw [h] at hm
    exact hm

theorem Ends.bind (hQ : Composes Q) {m : M α} {f : α → M β} (hm : Ends Q m) (hf : ∀ a, Ends Q (f a)) :
    Ends Q (m >>= f) := fun s => Goes.bind hQ (hm s) fun a t _ => hf a t

theorem Ends.pure (hQ : Composes Q) (a : α) : Ends Q (pure a : M α) := fun s => hQ.refl s

theorem Ends.look (hQ : Composes Q) : Ends Q look := fun s => hQ.refl s

theorem Ends.raise (hQ : Composes Q) : Ends Q (raiseTimeout : M α) := fun s => hQ.timeout s

theorem Ends.update {f : State → State} (h : ∀ s, Q s none (f s)) : Ends Q (update f) := fun s => h s

end

/-- What the atomic steps of the channel primitives do, in terms of a `Q`. -/
structure ChannelSteps (Q : State → Option Stop → State → Prop) : Prop extends Composes Q where
  tick : Ends Q tick
  baud : ∀ s r, Q s none (s.setBaud r)
  transmit : ∀ s x, x.byte ∈ symbolBytes s.cfg → Q s none (s.transmit x)
  consume : ∀ s, Q s none s.consume
  /-- the parameters stay as they are -/
  cfg : ∀ {s t}, Q s none t → t.cfg = s.cfg

section
variable {Q : State → Option Stop → State → Prop} (hQ : ChannelSteps Q)
include hQ

theorem Ends.configureBaud (r : Baud) : Ends Q (configureBaud r) :=
  Ends.bind hQ.toComposes hQ.tick fun _ => Ends.update fun s => hQ.baud s r

theorem Ends.poll : Ends Q poll :=
  Ends.bind hQ.toComposes hQ.tick fun _ => Ends.bind hQ.toComposes (Ends.look hQ.toComposes) fun s => by
    split
    · exact Ends.bind hQ.toComposes (Ends.update hQ.consume) fun _ => Ends.pure hQ.toComposes _
    · exact Ends.pure hQ.toComposes _

theorem Ends.awaitLoop : ∀ k, Ends Q (awaitLoop k)
  | 0 => Ends.pure hQ.toComposes _
  | k + 1 => Ends.bind hQ.toComposes (Ends.poll hQ) fun
    | some v => Ends.pure hQ.toComposes (Wait.echo v)
    | none => Ends.awaitLoop k

theorem Ends.awaitEcho : Ends Q awaitEcho :=
  Ends.bind hQ.toComposes (Ends.look hQ.toComposes) fun _ => Ends.awaitLoop hQ _

/-- A transmit of a byte that is a symbol byte under the state's parameters. -/
theorem Goes.xfer {x : Sent} {s : State} (hx : x.byte ∈ symbolBytes s.cfg) : Goes Q s (xfer x s) :=
  Goes.bind hQ.toComposes (hQ.tick s) fun a t ht => by
    rw [update_bind]
    refine Goes.trans hQ.toComposes (hQ.transmit t x ?_) (Ends.awaitEcho hQ _)
    rw [hQ.cfg (hQ.tick.of_ok ht)]
    exact hx

theorem Ends.xfer_write (w : Bool) : Ends Q (xfer (.write w)) := fun _ =>
  Goes.xfer hQ (by cases w <;> simp [slotByte, symbolBytes])

theorem Ends.xfer_read : Ends Q (xfer .read) := fun _ => Goes.xfer hQ (by simp [symbolBytes])

theorem Ends.writeBit (w : Bool) : Ends Q (writeBit w) :=
  Ends.bind hQ.toComposes (Ends.xfer_write hQ w) fun _ => Ends.pure hQ.toComposes _

theorem Ends.readBit : Ends Q readBit :=
  Ends.bind hQ.toComposes (Ends.xfer_read hQ) fun
    | .echo _ => Ends.pure hQ.toComposes _
    | .timedOut => Ends.raise hQ.toComposes

theorem Ends.writeBits : ∀ ws, Ends Q (writeBits ws)
  | [] => Ends.pure hQ.toComposes _
  | w :: ws => Ends.bind hQ.toComposes (Ends.writeBit hQ w) fun _ => Ends.writeBits ws

theorem Ends.writeByte (c : Byte) : Ends Q (writeByte c) := Ends.writeBits hQ _

theorem Ends.writeBytes : ∀ cs, Ends Q (writeBytes cs)
  | [] => Ends.pure hQ.toComposes _
  | c :: cs => Ends.bind hQ.toComposes (Ends.writeByte hQ c) fun _ => Ends.writeBytes cs

theorem Ends.readBits : ∀ n, Ends Q (readBits n)
  | 0 => Ends.pure hQ.toComposes _
  | n + 1 => Ends.bind hQ.toComposes (Ends.readBit hQ) fun _ =>
      Ends.bind hQ.toComposes (Ends.readBits n) fun _ => Ends.pure hQ.toComposes _

theorem Ends.readByte : Ends Q readByte :=
  Ends.bind hQ.toComposes (Ends.readBits hQ 8) fun _ => Ends.pure hQ.toComposes _

theorem Ends.readBytes : ∀ n, Ends Q (readBytes n)
  | 0 => Ends.pure hQ.toComposes _
  | n + 1 => Ends.bind hQ.toComposes (Ends.readByte hQ) fun _ =>
      Ends.bind hQ.toComposes (Ends.readBytes n) fun _ => Ends.pure hQ.toComposes _

theorem Ends.resetBus : Ends Q resetBus := fun s =>
  Goes.bind hQ.toComposes (Ends.configureBaud hQ .reset s) fun _ t ht => by
    rw [look_bind]
    refine Goes.bind hQ.toComposes (Goes.xfer hQ (by simp [symbolBytes])) fun w u hu => ?_
    have hcu : u.cfg = t.cfg := by
      have h := Goes.xfer hQ (s := t) (x := .other t.cfg.resetByte) (by simp [symbolBytes])
      rw [hu] at h
      exact hQ.cfg h
    refine Goes.bind hQ.toComposes (Ends.configureBaud hQ .slot u) fun _ v hv => ?_
    have hcv : v.cfg = t.cfg := (hQ.cfg ((Ends.configureBaud hQ .slot).of_ok hv)).trans hcu
    cases w with
    | timedOut => exact hQ.timeout v
    | echo x =>
      refine Goes.bind hQ.toComposes (Goes.xfer hQ (by rw [hcv]; simp [symbolBytes])) fun w' x' _ => ?_
      cases w' with
      | timedOut => exact hQ.timeout x'
      | echo y => exact hQ.refl x'

end

end Sys2Proof.Machine
end

