-- ==== Sys2Proof/Laws/Channel.lean ====
section
/-! SUPPORT. What the channel primitives can do, said once: they leave the block alone but for the mailbox, answer nobody,
and are cut short only by the reset input. -/

namespace Sys2Proof.Machine

/-! ### `Same` -/

@[simp] theorem Same.refl (s : State) : Same s s := by constructor <;> rfl

theorem Same.trans {s t u : State} (h1 : Same s t) (h2 : Same t u) : Same s u where
  cfg := h2.cfg.trans h1.cfg
  lastDiscrepancy := h2.lastDiscrepancy.trans h1.lastDiscrepancy
  lastFamilyDiscrepancy := h2.lastFamilyDiscrepancy.trans h1.lastFamilyDiscrepancy
  lastDeviceFlag := h2.lastDeviceFlag.trans h1.lastDeviceFlag
  hasMoreDevices := h2.hasMoreDevices.trans h1.hasMoreDevices
  deviceCount := h2.deviceCount.trans h1.deviceCount
  store := h2.store.trans h1.store
  busy := h2.busy.trans h1.busy
  req := h2.req.trans h1.req
  point := h2.point.trans h1.point
  slot := h2.slot.trans h1.slot
  pending := h2.pending.trans h1.pending

@[simp] theorem same_deposit (s : State) (v : Byte) : Same s (s.deposit v) := by constructor <;> rfl
@[simp] theorem same_dropEcho (s : State) : Same s s.dropEcho := by constructor <;> rfl
@[simp] theorem same_emptyFlight (s : State) : Same s s.emptyFlight := by constructor <;> rfl
@[simp] theorem same_setTape (s : State) (t : List Move) : Same s (s.setTape t) := by constructor <;> rfl
@[simp] theorem same_draw (s : State) : Same s s.draw := by constructor <;> rfl
@[simp] theorem same_setBaud (s : State) (r : Baud) : Same s (s.setBaud r) := by constructor <;> rfl
@[simp] theorem same_sendByte (s : State) (b : Byte) : Same s (s.sendByte b) := by constructor <;> rfl
@[simp] theorem same_putEcho (s : State) (sb : SimBus) (e : Byte) : Same s (s.putEcho sb e) := by
  constructor <;> rfl
@[simp] theorem same_freeEcho (s : State) (sb : SimBus) : Same s (s.freeEcho sb) := by constructor <;> rfl
@[simp] theorem same_consume (s : State) : Same s s.consume := by constructor <;> rfl

@[simp] theorem same_depositOldest (s : State) : Same s s.depositOldest := by
  unfold State.depositOldest
  split
  · exact Same.refl s
  · exact (same_dropEcho s).trans (same_deposit _ _)

@[simp] theorem same_foldl_deposit (vs : List Byte) (s : State) : Same s (vs.foldl State.deposit s) := by
  induction vs generalizing s with
  | nil => exact Same.refl s
  | cons v vs ih => exact (same_deposit s v).trans (ih _)

@[simp] theorem same_surroundings (s : State) : Same s s.surroundings := by
  unfold State.surroundings
  split
  · exact (same_foldl_deposit s.inFlight s).trans (same_emptyFlight _)
  · split
    · exact (same_draw s).trans (same_deposit _ _)
    · exact same_draw s

@[simp] theorem same_transmit (s : State) (x : Sent) : Same s (s.transmit x) := by
  unfold State.transmit
  dsimp only
  split
  · exact same_sendByte s x.byte
  · split
    · exact (same_sendByte s x.byte).trans (same_putEcho _ _ _)
    · exact (same_sendByte s x.byte).trans (same_freeEcho _ _)

/-! ### The tape and the responses along the channel's updates -/

@[simp] theorem responses_foldl_deposit (vs : List Byte) (s : State) :
    responses (vs.foldl State.deposit s).trace = responses s.trace := by
  induction vs generalizing s with
  | nil => rfl
  | cons v vs ih => simp [ih, responses]

@[simp] theorem tape_foldl_deposit (vs : List Byte) (s : State) : (vs.foldl State.deposit s).tape = s.tape := by
  induction vs generalizing s with
  | nil => rfl
  | cons v vs ih => simp [ih]

@[simp] theorem surroundings_tape (s : State) : s.surroundings.tape = s.tape := by
  unfold State.surroundings
  split
  · simp
  · split <;> simp

@[simp] theorem surroundings_responses (s : State) : responses s.surroundings.trace = responses s.trace := by
  unfold State.surroundings
  split
  · simp
  · split <;> simp [responses]

@[simp] theorem depositOldest_responses (s : State) : responses s.depositOldest.trace = responses s.trace := by
  unfold State.depositOldest
  split <;> simp [responses]

@[simp] theorem transmit_tape (s : State) (x : Sent) : (s.transmit x).tape = s.tape := by
  unfold State.transmit
  dsimp only
  split
  · simp
  · split <;> simp

@[simp] theorem transmit_responses (s : State) (x : Sent) : responses (s.transmit x).trace = responses s.trace := by
  unfold State.transmit
  dsimp only
  split
  · simp [responses]
  · split <;> simp [responses]

/-! ### What a channel primitive can do -/

/-- The block is the same but for the mailbox, nobody is answered, and an early end by the reset input leaves the reset state
of such a state; that happens only where the tape asserts the input. -/
def ChannelOnly (s : State) : Option Stop → State → Prop
  | some .killed, t => ¬ s.live ∧ ∃ u, Same s u ∧ responses u.trace = responses s.trace ∧ t = u.hardReset
  | _, t => Same s t ∧ responses t.trace = responses s.trace ∧ (s.live → t.live)

theorem channelOnly_composes : Composes ChannelOnly where
  refl s := ⟨Same.refl s, rfl, id⟩
  timeout s := ⟨Same.refl s, rfl, id⟩
  trans {s t u h} h1 h2 := by
    obtain ⟨hs, hr, hl⟩ := h1
    rcases h with _ | ⟨_ | _⟩
    · exact ⟨hs.trans h2.1, h2.2.1.trans hr, h2.2.2 ∘ hl⟩
    · exact ⟨hs.trans h2.1, h2.2.1.trans hr, h2.2.2 ∘ hl⟩
    · obtain ⟨hk, v, hv, hvr, rfl⟩ := h2
      exact ⟨fun h => hk (hl h), v, hs.trans hv, hvr.trans hr, rfl⟩

/-- The other agents' moves up to the master's next step. -/
theorem playTape_channelOnly (l : List Move) (s : State) :
    match playTape l s with
    | .ok _ t => Same s t ∧ responses t.trace = responses s.trace ∧ (Move.reset ∉ l → t.live)
    | .error e t => e = .killed ∧ Move.reset ∈ l ∧
        ∃ u, Same s u ∧ responses u.trace = responses s.trace ∧ t = u.hardReset := by
  induction l generalizing s with
  | nil =>
    refine ⟨(same_setTape s []).trans (same_surroundings _), by simp, fun _ => ?_⟩
    simp [State.live]
  | cons m l ih =>
    cases m with
    | master => exact ⟨same_setTape s l, by simp, fun h => by simp_all [State.live]⟩
    | reset => exact ⟨rfl, by simp, s.setTape l, same_setTape s l, by simp, rfl⟩
    | deposit v =>
      have h := ih (s.deposit v)
      simp only [playTape]
      cases hp : playTape l (s.deposit v) with
      | ok a t =>
        rw [hp] at h
        exact ⟨(same_deposit s v).trans h.1, by simpa [responses] using h.2.1, fun hl => h.2.2 (by simp_all)⟩
      | error e t =>
        rw [hp] at h
        obtain ⟨he, hm, u, hu, hr, rfl⟩ := h
        exact ⟨he, by simp [hm], u, (same_deposit s v).trans hu, by simpa [responses] using hr, rfl⟩
    | echo =>
      have h := ih s.depositOldest
      simp only [playTape]
      cases hp : playTape l s.depositOldest with
      | ok a t =>
        rw [hp] at h
        exact ⟨(same_depositOldest s).trans h.1, by simpa using h.2.1, fun hl => h.2.2 (by simp_all)⟩
      | error e t =>
        rw [hp] at h
        obtain ⟨he, hm, u, hu, hr, rfl⟩ := h
        exact ⟨he, by simp [hm], u, (same_depositOldest s).trans hu, by simpa using hr, rfl⟩
    | lose =>
      have h := ih s.dropEcho
      simp only [playTape]
      cases hp : playTape l s.dropEcho with
      | ok a t =>
        rw [hp] at h
        exact ⟨(same_dropEcho s).trans h.1, by simpa using h.2.1, fun hl => h.2.2 (by simp_all)⟩
      | error e t =>
        rw [hp] at h
        obtain ⟨he, hm, u, hu, hr, rfl⟩ := h
        exact ⟨he, by simp [hm], u, (same_dropEcho s).trans hu, by simpa using hr, rfl⟩

theorem tick_channelOnly : Ends ChannelOnly tick := by
  intro s
  have h := playTape_channelOnly s.tape s
  show Goes ChannelOnly s (playTape s.tape s)
  cases hp : playTape s.tape s with
  | ok a t =>
    rw [hp] at h
    exact h
  | error e t =>
    rw [hp] at h
    obtain ⟨rfl, hm, h⟩ := h
    exact ⟨fun hl => hl hm, h⟩

/-- The channel primitives, all of them, through the closure lemmas of Laws/Monad.lean. -/
theorem channelOnly_steps : ChannelSteps ChannelOnly where
  toComposes := channelOnly_composes
  tick := tick_channelOnly
  baud s r := ⟨same_setBaud s r, by simp [responses], by simp [State.live]⟩
  transmit s x _ := ⟨same_transmit s x, by simp, by simp [State.live]⟩
  consume s := ⟨same_consume s, by simp, by simp [State.live]⟩
  cfg h := h.1.cfg

/-! ### The reset input, seen from a live state -/

/-- From a live state the others' moves end normally, in a live state. -/
theorem tick_of_live {s : State} (h : s.live) :
    ∃ t, tick s = .ok () t ∧ Same s t ∧ responses t.trace = responses s.trace ∧ t.live := by
  have hc := tick_channelOnly s
  cases ht : tick s with
  | ok a t =>
    rw [ht] at hc
    exact ⟨t, rfl, hc.1, hc.2.1, hc.2.2 h⟩
  | error e t =>
    exfalso
    have hp := playTape_channelOnly s.tape s
    change playTape s.tape s = _ at ht
    rw [ht] at hp
    exact h hp.2.1

/-- The response of a live state: the event and `busy <- 0`, after the others' moves. -/
theorem deliver_of_live {s : State} (h : s.live) (r : Response) :
    ∃ t, tick s = .ok () t ∧ deliver r s = t.respond r ∧ Same s t ∧ responses t.trace = responses s.trace ∧
      t.live := by
  obtain ⟨t, ht, hs, hr, hl⟩ := tick_of_live h
  exact ⟨t, ht, by simp [deliver, ht], hs, hr, hl⟩

/-- A computation made of channel primitives never ends by the reset input from a live state. -/
theorem Ends.not_killed {α : Type} {m : M α} (hm : Ends ChannelOnly m) {s t : State} (h : s.live) :
    m s ≠ .error .killed t := by
  intro he
  exact (hm.of_error he).1 h

/-- The reset input comes before anything else. -/
theorem tick_reset {s : State} {l : List Move} (h : s.tape = .reset :: l) :
    tick s = .error .killed (s.setTape l).hardReset := by
  simp [tick, h, playTape]

theorem tick_master {s : State} {l : List Move} (h : s.tape = .master :: l) : tick s = .ok () (s.setTape l) := by
  simp [tick, h, playTape]

end Sys2Proof.Machine
end

