-- ==== Sys2Proof/Laws/Memory.lean ====
section
/-! SUPPORT. The local store: what a read gives after a write, that every operation keeps the canonical form and the bounds,
and how bytes, bits and ROM codes fit together. -/

namespace Sys2Proof

/-! ### Bits, bytes, ROM codes -/

theorem getLsbD_one_shiftLeft (i j : Nat) (hi : i < 8) : (1#8 <<< i).getLsbD j = decide (j = i) := by
  rw [BitVec.getLsbD_shiftLeft, BitVec.getLsbD_one]
  by_cases h : j = i
  · subst h; simp [hi]
  · have h2 : ¬ (¬ j < i ∧ j - i = 0) := by omega
    simp only [h, decide_false]
    by_cases h3 : j < i
    · simp [h3]
    · have h4 : ¬ j - i = 0 := by omega
      simp [h4]

theorem getLsbD_setBit (b : Byte) (i : Nat) (d : Bool) (j : Nat) (hi : i < 8) :
    (setBit b i d).getLsbD j = if j = i then d else b.getLsbD j := by
  unfold setBit
  cases d
  · rw [if_neg (by simp), BitVec.getLsbD_and, BitVec.getLsbD_not, getLsbD_one_shiftLeft i j hi]
    by_cases h : j = i
    · simp [h]
    · by_cases hj : j < 8
      · simp [h, hj]
      · simp [h, BitVec.getLsbD_of_ge b j (by omega)]
  · rw [if_pos rfl, BitVec.getLsbD_or, getLsbD_one_shiftLeft i j hi]
    by_cases h : j = i <;> simp [h]

theorem getLsbD_romByte (r : Rom) (j i : Nat) (hi : i < 8) : (romByte r j).getLsbD i = r.getLsbD (8 * j + i) := by
  simp [romByte, hi]

theorem getLsbD_byteOfBits (bs : List Bool) (i : Nat) (hi : i < 8) :
    (byteOfBits bs).getLsbD i = bs.getD i false := by
  induction bs generalizing i with
  | nil => simp [byteOfBits]
  | cons b bs ih =>
    simp only [byteOfBits, BitVec.getLsbD_or, BitVec.getLsbD_shiftLeft]
    cases i with
    | zero => cases b <;> simp
    | succ i =>
      have h2 : i + 1 - 1 = i := by omega
      cases b <;> simp [h2, ih i (by omega), hi]

theorem byteOfBits_bitsOfByte (b : Byte) : byteOfBits (bitsOfByte b) = b := by
  apply BitVec.eq_of_getLsbD_eq
  intro i hi
  rw [getLsbD_byteOfBits _ _ hi]
  simp [bitsOfByte, hi]

theorem getLsbD_romOfBytes (bs : List Byte) (i : Nat) (hi : i < 64) :
    (romOfBytes bs).getLsbD i = (bs.getD (i / 8) 0).getLsbD (i % 8) := by
  induction bs generalizing i with
  | nil => simp [romOfBytes]
  | cons b bs ih =>
    simp only [romOfBytes, BitVec.getLsbD_or, BitVec.getLsbD_shiftLeft, BitVec.getLsbD_setWidth]
    by_cases h : i < 8
    · have h0 : i / 8 = 0 := by omega
      have h1 : i % 8 = i := by omega
      simp [h, h0, h1, hi]
    · have h1 : i / 8 = (i - 8) / 8 + 1 := by omega
      have h2 : i % 8 = (i - 8) % 8 := by omega
      have h3 : b.getLsbD i = false := BitVec.getLsbD_of_ge b i (by omega)
      simp [h, h1, h2, h3, ih (i - 8) (by omega), hi]

theorem romOfBytes_romBytes (r : Rom) : romOfBytes (romBytes r) = r := by
  apply BitVec.eq_of_getLsbD_eq
  intro i hi
  rw [getLsbD_romOfBytes _ _ hi]
  have h : i / 8 < 8 := by omega
  have h2 : (romBytes r).getD (i / 8) 0 = romByte r (i / 8) := by
    simp [romBytes, List.getD_eq_getElem?_getD, h]
  rw [h2, getLsbD_romByte _ _ _ (Nat.mod_lt _ (by omega))]
  congr 1
  omega

theorem romByte_romOfBytes (bs : List Byte) (j : Nat) (hj : j < 8) :
    romByte (romOfBytes bs) j = bs.getD j 0 := by
  apply BitVec.eq_of_getLsbD_eq
  intro i hi
  rw [getLsbD_romByte _ _ _ hi, getLsbD_romOfBytes _ _ (by omega)]
  congr 2 <;> omega

theorem length_romBytes (r : Rom) : (romBytes r).length = 8 := by simp [romBytes]

end Sys2Proof

namespace Sys2Proof.Machine

/-! ### Reads after writes -/

theorem read_write_other (m : List Host.Cell) (a b : Nat) (v : Byte) (h : b ≠ a) :
    readByteAt (writeByteAt m a v) b = readByteAt m b := by
  induction m with
  | nil =>
    simp only [writeByteAt]
    split <;> simp [readByteAt, Ne.symm h]
  | cons c m ih =>
    obtain ⟨x, w⟩ := c
    simp only [writeByteAt]
    split
    · split <;> simp [readByteAt, Ne.symm h]
    · split
      · rename_i hx
        have hxb : ¬ x = b := fun h' => h (by rw [← h', hx])
        split <;> simp [readByteAt, hxb, Ne.symm h]
      · simp [readByteAt, ih]

theorem read_below (m : List Host.Cell) (lo a : Nat) (h : cellsFrom lo m = true) (ha : a < lo) :
    readByteAt m a = 0 := by
  induction m generalizing lo with
  | nil => rfl
  | cons c m ih =>
    obtain ⟨x, w⟩ := c
    simp only [cellsFrom, Bool.and_eq_true, decide_eq_true_eq] at h
    have hx : ¬ x = a := by omega
    simp only [readByteAt, hx, if_false]
    exact ih (x + 1) h.2 (by omega)

theorem read_write_same (m : List Host.Cell) (lo a : Nat) (v : Byte) (h : cellsFrom lo m = true) :
    readByteAt (writeByteAt m a v) a = v := by
  induction m generalizing lo with
  | nil =>
    simp only [writeByteAt]
    split <;> simp_all [readByteAt]
  | cons c m ih =>
    obtain ⟨x, w⟩ := c
    simp only [cellsFrom, Bool.and_eq_true, decide_eq_true_eq] at h
    simp only [writeByteAt]
    split
    · rename_i hax
      have hb := read_below m (x + 1) a h.2 (by omega)
      have hxa : ¬ x = a := by omega
      split <;> simp_all [readByteAt]
    · split
      · rename_i hax hx
        subst hx
        have hb := read_below m (a + 1) a h.2 (by omega)
        split <;> simp_all [readByteAt]
      · rename_i h1 h2
        simp [readByteAt, Ne.symm h2, ih (x + 1) h.2]

theorem read_write (m : List Host.Cell) (lo a b : Nat) (v : Byte) (h : cellsFrom lo m = true) :
    readByteAt (writeByteAt m a v) b = if b = a then v else readByteAt m b := by
  split
  · subst b
    exact read_write_same m lo a v h
  · exact read_write_other m a b v ‹_›

/-! ### The canonical form -/

theorem cellsFrom_mono (m : List Host.Cell) {lo lo' : Nat} (h : cellsFrom lo m = true) (hl : lo' ≤ lo) :
    cellsFrom lo' m = true := by
  cases m with
  | nil => rfl
  | cons c m =>
    simp only [cellsFrom, Bool.and_eq_true, decide_eq_true_eq] at h ⊢
    exact ⟨⟨by omega, h.1.2⟩, h.2⟩

theorem cellsFrom_write (m : List Host.Cell) (lo a : Nat) (v : Byte) (h : cellsFrom lo m = true) (ha : lo ≤ a) :
    cellsFrom lo (writeByteAt m a v) = true := by
  induction m generalizing lo with
  | nil =>
    simp only [writeByteAt]
    split <;> simp_all [cellsFrom]
  | cons c m ih =>
    obtain ⟨x, w⟩ := c
    simp only [cellsFrom, Bool.and_eq_true, decide_eq_true_eq] at h
    simp only [writeByteAt]
    split
    · split
      · simp_all [cellsFrom]
      · simp_all [cellsFrom]
    · split
      · split
        · exact cellsFrom_mono m h.2 (by omega)
        · simp_all [cellsFrom]
      · have h2 := ih (x + 1) h.2 (by omega)
        simp only [cellsFrom, Bool.and_eq_true, decide_eq_true_eq]
        exact ⟨h.1, h2⟩

/-- Every write keeps the canonical form. -/
theorem wf_writeByteAt (m : List Host.Cell) (a : Nat) (v : Byte) (h : Memory.wf m = true) :
    Memory.wf (writeByteAt m a v) = true := cellsFrom_write m 0 a v h (Nat.zero_le a)

theorem mem_writeByteAt {m : List Host.Cell} {a : Nat} {v : Byte} {c : Host.Cell} (h : c ∈ writeByteAt m a v) :
    c ∈ m ∨ c.1 = a := by
  induction m with
  | nil =>
    simp only [writeByteAt] at h
    split at h <;> simp_all
  | cons d m ih =>
    obtain ⟨x, w⟩ := d
    simp only [writeByteAt] at h
    split at h
    · split at h
      · exact .inl h
      · rcases List.mem_cons.1 h with rfl | h
        · exact .inr rfl
        · exact .inl h
    · split at h
      · split at h
        · exact .inl (List.mem_cons_of_mem _ h)
        · rcases List.mem_cons.1 h with rfl | h
          · exact .inr rfl
          · exact .inl (List.mem_cons_of_mem _ h)
      · rcases List.mem_cons.1 h with rfl | h
        · exact .inl List.mem_cons_self
        · rcases ih h with h | h
          · exact .inl (List.mem_cons_of_mem _ h)
          · exact .inr h

theorem wf_writeBytesAt (bs : List Byte) (m : List Host.Cell) (a : Nat) (h : Memory.wf m = true) :
    Memory.wf (writeBytesAt m a bs) = true := by
  induction bs generalizing m a with
  | nil => exact h
  | cons b bs ih => exact ih _ _ (wf_writeByteAt m a b h)

theorem wf_writeRomAt (m : List Host.Cell) (a : Nat) (r : Rom) (h : Memory.wf m = true) :
    Memory.wf (writeRomAt m a r) = true := wf_writeBytesAt _ m a h

theorem mem_writeBytesAt {bs : List Byte} {m : List Host.Cell} {a : Nat} {c : Host.Cell}
    (h : c ∈ writeBytesAt m a bs) : c ∈ m ∨ (a ≤ c.1 ∧ c.1 < a + bs.length) := by
  induction bs generalizing m a with
  | nil => exact .inl h
  | cons b bs ih =>
    rcases ih h with h | h
    · rcases mem_writeByteAt h with h | h
      · exact .inl h
      · exact .inr ⟨by omega, by simp; omega⟩
    · exact .inr ⟨by omega, by simp; omega⟩

theorem mem_writeRomAt {m : List Host.Cell} {a : Nat} {r : Rom} {c : Host.Cell} (h : c ∈ writeRomAt m a r) :
    c ∈ m ∨ (a ≤ c.1 ∧ c.1 < a + 8) := by
  have := mem_writeBytesAt h
  rwa [length_romBytes] at this

/-! ### Whole codes -/

theorem read_writeBytesAt (bs : List Byte) (m : List Host.Cell) (a b : Nat) (h : Memory.wf m = true) :
    readByteAt (writeBytesAt m a bs) b =
      if a ≤ b ∧ b < a + bs.length then bs.getD (b - a) 0 else readByteAt m b := by
  induction bs generalizing m a with
  | nil => simp [writeBytesAt]
  | cons x bs ih =>
    simp only [writeBytesAt]
    rw [ih _ _ (wf_writeByteAt m a x h), read_write m 0 a b x h]
    by_cases hb : b = a
    · subst hb; simp
    · by_cases h1 : a ≤ b
      · have h2 : b - a = b - (a + 1) + 1 := by omega
        by_cases h3 : b < a + 1 + bs.length
        · have h4 : a + 1 ≤ b := by omega
          have h5 : b < a + (x :: bs).length := by simp; omega
          rw [if_pos ⟨h4, h3⟩, if_pos ⟨h1, h5⟩, h2, List.getD_cons_succ]
        · have h5 : ¬ b < a + (x :: bs).length := by simp; omega
          simp only [h3, h5, and_false, if_false, hb]
      · have h4 : ¬ a + 1 ≤ b := by omega
        simp [h1, h4, hb]

/-- A byte after a code has been written. -/
theorem read_writeRomAt (m : List Host.Cell) (a b : Nat) (r : Rom) (h : Memory.wf m = true) :
    readByteAt (writeRomAt m a r) b = if a ≤ b ∧ b < a + 8 then romByte r (b - a) else readByteAt m b := by
  unfold writeRomAt
  rw [read_writeBytesAt _ _ _ _ h, length_romBytes]
  split
  · rename_i hb
    have : b - a < 8 := by omega
    simp [romBytes, List.getD_eq_getElem?_getD, this]
  · rfl

theorem read_writeBytesAt_other (bs : List Byte) (m : List Host.Cell) (a b : Nat)
    (h : b < a ∨ a + bs.length ≤ b) : readByteAt (writeBytesAt m a bs) b = readByteAt m b := by
  induction bs generalizing m a with
  | nil => rfl
  | cons x bs ih =>
    simp only [writeBytesAt]
    simp only [List.length_cons] at h
    rw [ih _ _ (by omega), read_write_other _ _ _ _ (by omega)]

/-- A byte outside a written code, whatever the memory. -/
theorem read_writeRomAt_other (m : List Host.Cell) (a b : Nat) (r : Rom) (h : b < a ∨ a + 8 ≤ b) :
    readByteAt (writeRomAt m a r) b = readByteAt m b :=
  read_writeBytesAt_other _ _ _ _ (by rwa [length_romBytes])

theorem getLsbD_readRomAt (m : List Host.Cell) (a p : Nat) (hp : p < 64) :
    (readRomAt m a).getLsbD p = (readByteAt m (a + p / 8)).getLsbD (p % 8) := by
  unfold readRomAt
  rw [getLsbD_romOfBytes _ _ hp]
  have h : p / 8 < 8 := by omega
  simp [List.getD_eq_getElem?_getD, h]

theorem romByte_readRomAt (m : List Host.Cell) (a j : Nat) (hj : j < 8) :
    romByte (readRomAt m a) j = readByteAt m (a + j) := by
  unfold readRomAt
  rw [romByte_romOfBytes _ _ hj]
  simp [List.getD_eq_getElem?_getD, hj]

theorem readRomAt_congr {m m' : List Host.Cell} {a a' : Nat}
    (h : ∀ j < 8, readByteAt m (a + j) = readByteAt m' (a' + j)) : readRomAt m a = readRomAt m' a' := by
  apply BitVec.eq_of_getLsbD_eq
  intro i hi
  rw [getLsbD_readRomAt _ _ _ hi, getLsbD_readRomAt _ _ _ hi, h _ (by omega)]

/-- A code reads back. -/
theorem readRomAt_writeRomAt (m : List Host.Cell) (a : Nat) (r : Rom) (h : Memory.wf m = true) :
    readRomAt (writeRomAt m a r) a = r := by
  apply BitVec.eq_of_getLsbD_eq
  intro i hi
  rw [getLsbD_readRomAt _ _ _ hi, read_writeRomAt _ _ _ _ h]
  have h1 : a ≤ a + i / 8 ∧ a + i / 8 < a + 8 := by omega
  have h2 : a + i / 8 - a = i / 8 := by omega
  rw [if_pos h1, h2, getLsbD_romByte _ _ _ (Nat.mod_lt _ (by omega))]
  congr 1
  omega

/-- Another code stays. -/
theorem readRomAt_writeRomAt_other (m : List Host.Cell) (a b : Nat) (r : Rom) (h : b + 8 ≤ a ∨ a + 8 ≤ b) :
    readRomAt (writeRomAt m a r) b = readRomAt m b :=
  readRomAt_congr fun j hj => read_writeRomAt_other _ _ _ _ (by omega)

theorem readRomAt_writeByteAt_other (m : List Host.Cell) (a b : Nat) (v : Byte) (h : a < b ∨ b + 8 ≤ a) :
    readRomAt (writeByteAt m a v) b = readRomAt m b :=
  readRomAt_congr fun j hj => read_write_other _ _ _ _ (by omega)

/-! ### The clear -/

theorem foldl_clear (as : List Nat) (m : List Host.Cell) (h : Memory.wf m = true) :
    Memory.wf (as.foldl (fun m a => writeByteAt m a 0) m) = true ∧
      ∀ b, readByteAt (as.foldl (fun m a => writeByteAt m a 0) m) b = if b ∈ as then 0 else readByteAt m b := by
  induction as generalizing m with
  | nil => exact ⟨h, fun b => by simp⟩
  | cons a as ih =>
    obtain ⟨h1, h2⟩ := ih (writeByteAt m a 0) (wf_writeByteAt m a 0 h)
    refine ⟨h1, fun b => ?_⟩
    rw [List.foldl_cons, h2 b, read_write m 0 a b 0 h]
    by_cases hb : b = a <;> simp [hb]

theorem wf_clearStore (c : Config) (m : List Host.Cell) (h : Memory.wf m = true) :
    Memory.wf (clearStore c m) = true := (foldl_clear _ m h).1

/-- Every byte of the store reads 0x00 after a clear. -/
theorem read_clearStore (c : Config) (m : List Host.Cell) (h : Memory.wf m = true) (a : Nat) :
    readByteAt (clearStore c m) a = if a < storeSize c then 0 else readByteAt m a := by
  have := (foldl_clear (List.range (storeSize c)) m h).2 a
  rw [clearStore, this]
  simp

theorem mem_of_read_ne_zero {m : List Host.Cell} {a : Nat} (h : readByteAt m a ≠ 0) :
    ∃ c ∈ m, c.1 = a := by
  induction m with
  | nil => simp [readByteAt] at h
  | cons d m ih =>
    obtain ⟨x, w⟩ := d
    simp only [readByteAt] at h
    split at h
    · exact ⟨_, List.mem_cons_self, ‹_›⟩
    · obtain ⟨c, hc, hca⟩ := ih h
      exact ⟨c, List.mem_cons_of_mem _ hc, hca⟩

/-- A canonical memory that reads 0x00 everywhere lists nothing. -/
theorem eq_nil_of_read_zero {m : List Host.Cell} {lo : Nat} (h : cellsFrom lo m = true)
    (hz : ∀ a, readByteAt m a = 0) : m = [] := by
  cases m with
  | nil => rfl
  | cons c m =>
    obtain ⟨x, w⟩ := c
    simp only [cellsFrom, Bool.and_eq_true, decide_eq_true_eq, bne_iff_ne, ne_eq] at h
    have := hz x
    simp [readByteAt] at this
    exact absurd this h.1.2

theorem mem_foldl_clear {as : List Nat} {m : List Host.Cell} {c : Host.Cell}
    (h : c ∈ as.foldl (fun m a => writeByteAt m a 0) m) : c ∈ m ∨ c.1 ∈ as := by
  induction as generalizing m with
  | nil => exact .inl h
  | cons a as ih =>
    rcases ih h with h | h
    · rcases mem_writeByteAt h with h | h
      · exact .inl h
      · exact .inr (by simp [h])
    · exact .inr (List.mem_cons_of_mem _ h)

/-- The clear of a canonical store within its bounds lists nothing. -/
theorem clearStore_eq_nil {c : Config} {m : List Host.Cell} (h : Memory.wf m = true)
    (hb : ∀ x ∈ m, x.1 < storeSize c) : clearStore c m = [] := by
  refine eq_nil_of_read_zero (wf_clearStore c m h) fun a => ?_
  rw [read_clearStore c m h]
  split
  · rfl
  · rename_i ha
    by_contra hne
    obtain ⟨x, hx, rfl⟩ := mem_of_read_ne_zero hne
    exact ha (hb x hx)

/-! ### `romScratch`, bit by bit -/

theorem scratch_getLsbD (s : State) (p : Nat) (hp : p < 64) : s.scratch.getLsbD p = s.scratchBit p := by
  unfold State.scratch State.scratchBit
  rw [getLsbD_readRomAt _ _ _ hp, Nat.zero_add]

/-- The bit stored reads back, and every other bit of `romScratch` stays. -/
theorem scratchBit_storeScratchBit (s : State) (p q : Nat) (d : Bool) (h : Memory.wf s.store = true) :
    (s.storeScratchBit p d).scratchBit q = if q = p then d else s.scratchBit q := by
  unfold State.scratchBit
  rw [State.storeScratchBit_store, read_write _ 0 _ _ _ h]
  split
  · rename_i hb
    rw [getLsbD_setBit _ _ _ _ (Nat.mod_lt _ (by omega)), hb]
    by_cases hq : q = p
    · simp [hq]
    · have : ¬ q % 8 = p % 8 := by omega
      simp [hq, this]
  · rename_i hb
    have : ¬ q = p := by rintro rfl; exact hb rfl
    simp [this]

/-- The table is not touched by a scratch bit. -/
theorem read_storeScratchBit_other (s : State) (p a : Nat) (d : Bool) (hp : p < 64) (ha : 8 ≤ a) :
    readByteAt (s.storeScratchBit p d).store a = readByteAt s.store a := by
  rw [State.storeScratchBit_store]
  exact read_write_other _ _ _ _ (by omega)

end Sys2Proof.Machine
end

