-- ==== Sys2Proof/Laws/Crc.lean ====
section
/-! SUPPORT. The CRC: its algebra (spec/41_crc8.md), and the register fed bit by bit. -/

namespace Sys2Proof.Machine

theorem crc8Bit_eq (c : Byte) (d : Bool) :
    crc8Bit c d = (c >>> 1) ^^^ (if c.getLsbD 0 ^^ d then 0x8C else 0) := by
  unfold crc8Bit
  split <;> simp

/-- One bit fed in, bit by bit of the register. -/
theorem getLsbD_crc8Bit (c : Byte) (d : Bool) (i : Nat) :
    (crc8Bit c d).getLsbD i = (c.getLsbD (i + 1) ^^ ((c.getLsbD 0 ^^ d) && (0x8C : Byte).getLsbD i)) := by
  rw [crc8Bit_eq, BitVec.getLsbD_xor, BitVec.getLsbD_ushiftRight, Nat.add_comm]
  cases c.getLsbD 0 ^^ d <;> simp

/-- Feeding a byte is feeding a zero byte into the register with the byte added. -/
theorem crc8Byte_eq_zero_iff : ∀ c b : Byte, crc8Byte c b = 0 ↔ b = c := by
  have h1 : ∀ x : Byte, crc8Byte x 0 = 0 → x = 0 := by decide +kernel
  have h2 : ∀ c b : Byte, crc8Byte c b = crc8Byte (c ^^^ b) 0 := by
    have hbit : ∀ (c x : Byte) (d e : Bool), crc8Bit (c ^^^ x) (d ^^ e) = crc8Bit c d ^^^ crc8Bit x e := by
      intro c x d e
      apply BitVec.eq_of_getLsbD_eq
      intro i hi
      simp only [getLsbD_crc8Bit, BitVec.getLsbD_xor]
      cases c.getLsbD (i + 1) <;> cases x.getLsbD (i + 1) <;> cases c.getLsbD 0 <;> cases x.getLsbD 0 <;>
        cases d <;> cases e <;> cases (0x8C : Byte).getLsbD i <;> rfl
    have hfold : ∀ (ds es : List Bool) (c x : Byte), ds.length = es.length →
        (List.zipWith Bool.xor ds es).foldl crc8Bit (c ^^^ x) = ds.foldl crc8Bit c ^^^ es.foldl crc8Bit x := by
      intro ds
      induction ds with
      | nil =>
        intro es c x h
        obtain rfl : es = [] := by simpa using h.symm
        rfl
      | cons d ds ih =>
        intro es c x h
        cases es with
        | nil => simp at h
        | cons e es =>
          simp only [List.zipWith_cons_cons, List.foldl_cons]
          rw [hbit, ih _ _ _ (by simpa using h)]
    have hlin : ∀ c x b y : Byte, crc8Byte (c ^^^ x) (b ^^^ y) = crc8Byte c b ^^^ crc8Byte x y := by
      intro c x b y
      unfold crc8Byte
      rw [← hfold _ _ _ _ (by simp [bitsOfByte])]
      congr 1
      simp [bitsOfByte, List.range_succ]
    intro c b
    have h3 : ∀ b : Byte, crc8Byte b b = 0 := by decide +kernel
    have h := hlin (c ^^^ b) b 0 b
    have hc : c ^^^ b ^^^ b = c := by rw [BitVec.xor_assoc, BitVec.xor_self, BitVec.xor_zero]
    rw [hc, h3 b, show (0 : Byte) ^^^ b = b from BitVec.zero_xor] at h
    exact h.trans BitVec.xor_zero
  intro c b
  rw [h2]
  constructor
  · intro h
    exact (BitVec.xor_eq_zero_iff.mp (h1 _ h)).symm
  · rintro rfl
    rw [BitVec.xor_self]
    decide

theorem crc8_append (B : List Byte) (b : Byte) : crc8 (B ++ [b]) = crc8Byte (crc8 B) b := by
  simp [crc8]

/-- The CRC of the first seven bytes, fed bit by bit in the order of the wire. -/
theorem romCrc_eq_foldl (r : Rom) : romCrc r = ((List.range 56).map r.getLsbD).foldl crc8Bit 0 := by
  have hb : ∀ j, bitsOfByte (romByte r j) = (List.range 8).map fun i => r.getLsbD (8 * j + i) := by
    intro j
    unfold bitsOfByte
    apply List.map_congr_left
    intro i hi
    exact getLsbD_romByte r j i (by simpa using hi)
  have hr : List.range 56 = (List.range 7).flatMap fun j => (List.range 8).map fun i => 8 * j + i := by decide
  have ht : (romBytes r).take 7 = (List.range 7).map (romByte r) := by
    unfold romBytes
    rw [← List.map_take]
    rfl
  have hf : ∀ (js : List Nat) (c : Byte), (js.map (romByte r)).foldl crc8Byte c =
      (js.flatMap fun j => (List.range 8).map fun i => r.getLsbD (8 * j + i)).foldl crc8Bit c := by
    intro js
    induction js with
    | nil => intro c; rfl
    | cons j js ih =>
      intro c
      rw [List.map_cons, List.foldl_cons, ih, List.flatMap_cons, List.foldl_append, ← hb]
      rfl
  rw [romCrc, crc8, ht, hf, hr, List.map_flatMap]
  congr 2

/-- A code is valid exactly when the CRC of all its eight bytes is 0. -/
theorem romValid_iff_residue (r : Rom) : romValid r = true ↔ crc8 (romBytes r) = 0 := by
  have h : romBytes r = (romBytes r).take 7 ++ [romByte r 7] := by
    unfold romBytes
    rw [← List.map_take]
    simp [List.range_succ]
  rw [h, crc8_append, crc8Byte_eq_zero_iff]
  simp only [romValid, romCrc, beq_iff_eq]
  exact eq_comm

end Sys2Proof.Machine
end

