-- ==== Sys2Proof/Laws/Search.lean ====
section
/-! SUPPORT. A search pass whose reads are given, in any environment: what one position does, what 64 of them do, how the
pass closes. -/

namespace Sys2Proof.Machine

/-- The block as before but for the mailbox and the local store. -/
def SameButStore (s t : State) : Prop := Same { s with store := t.store } t

theorem SameButStore.refl (s : State) : SameButStore s s := Same.refl s

theorem SameButStore.trans {s t u : State} (h1 : SameButStore s t) (h2 : SameButStore t u) : SameButStore s u :=
  ⟨h2.1.trans h1.1, h2.2.trans h1.2, h2.3.trans h1.3, h2.4.trans h1.4, h2.5.trans h1.5, h2.6.trans h1.6, rfl,
    h2.8.trans h1.8, h2.9.trans h1.9, h2.10.trans h1.10, h2.11.trans h1.11, h2.12.trans h1.12⟩

theorem Same.toSameButStore {s t : State} (h : Same s t) : SameButStore s t :=
  ⟨h.1, h.2, h.3, h.4, h.5, h.6, rfl, h.8, h.9, h.10, h.11, h.12⟩

theorem sameButStore_storeScratchBit (s : State) (p : Nat) (d : Bool) : SameButStore s (s.storeScratchBit p d) := by
  constructor <;> rfl

/-- Where a pass begun in `s` stands before position `p`, having read the pairs `as` and taken the branches `r`. -/
structure Progress (s : State) (r : Rom) (as : Nat → Bool × Bool) (p : Nat) (w : Work) (t : State) : Prop where
  same : SameButStore s t
  wf : Memory.wf t.store = true
  bits : ∀ q < 64, t.scratchBit q = if q < p then r.getLsbD q else s.scratchBit q
  table : ∀ a, 8 ≤ a → readByteAt t.store a = readByteAt s.store a
  crc : w.crcAcc = ((List.range (min p 56)).map r.getLsbD).foldl crc8Bit 0
  zero : w.lastZero.toNat = lastOpen r as p
  fam : w.lastZeroFam.toNat = lastOpen r as (min p 8)

theorem progress_start (s : State) (r : Rom) (as : Nat → Bool × Bool) (h : Memory.wf s.store = true) :
    Progress s r as 0 Work.init s :=
  ⟨SameButStore.refl s, h, by simp, fun _ _ => rfl, rfl, rfl, rfl⟩

/-- A channel primitive does not move a pass on. -/
theorem Progress.same_trans {s t u : State} {r : Rom} {as : Nat → Bool × Bool} {p : Nat} {w : Work}
    (h : Progress s r as p w t) (hs : Same t u) : Progress s r as p w u where
  same := h.same.trans hs.toSameButStore
  wf := by rw [hs.store]; exact h.wf
  bits q hq := by rw [← h.bits q hq]; unfold State.scratchBit; rw [hs.store]
  table a ha := by rw [hs.store]; exact h.table a ha
  crc := h.crc
  zero := h.zero
  fam := h.fam

theorem lastOpen_le (r : Rom) (as : Nat → Bool × Bool) (k : Nat) : lastOpen r as k ≤ k := by
  induction k with
  | zero => simp [lastOpen]
  | succ k ih =>
    simp only [lastOpen]
    split <;> omega

/-- The branch the model takes is the one chosen in the state the pass began in. -/
theorem branch_eq_chosen {s t : State} {r : Rom} {as : Nat → Bool × Bool} {p : Nat} {w : Work}
    (h : Progress s r as p w t) (hp : p < 64) (a b : Bool) :
    branch t p a b = s.chosen p (a, b) := by
  unfold branch State.chosen
  have hb := h.bits p hp
  rw [if_neg (Nat.lt_irrefl p)] at hb
  have hl : t.lastDiscrepancy = s.lastDiscrepancy := h.same.lastDiscrepancy
  rw [hb, hl, scratch_getLsbD s p hp]
  rfl

/-- The update of position `p`. -/
theorem Progress.store {s t : State} {r : Rom} {as : Nat → Bool × Bool} {p : Nat} {w : Work}
    (h : Progress s r as p w t) (hp : p < 64) (a b : Bool) (ha : as p = (a, b)) (hab : (a && b) = false)
    (hr : r.getLsbD p = s.chosen p (a, b)) :
    Progress s r as (p + 1) (w.record p a b (r.getLsbD p)) (t.storeScratchBit p (r.getLsbD p)) where
  same := h.same.trans (sameButStore_storeScratchBit t p _)
  wf := wf_writeByteAt _ _ _ h.wf
  bits q hq := by
    rw [scratchBit_storeScratchBit t p q _ h.wf, h.bits q hq]
    by_cases hqp : q = p
    · subst hqp; simp
    · have : (q < p + 1) = (q < p) := by simp; omega
      simp [hqp, this]
  table a ha := (read_storeScratchBit_other t p a _ hp ha).trans (h.table a ha)
  crc := by
    simp only [Work.record]
    split
    · have h1 : min (p + 1) 56 = min p 56 + 1 := by omega
      have h2 : min p 56 = p := by omega
      rw [h.crc, h1, h2, List.range_succ, List.map_append, List.foldl_append]
      rfl
    · have : min (p + 1) 56 = min p 56 := by omega
      rw [this, h.crc]
  zero := by
    simp only [Work.record, lastOpen, ha]
    have hz := h.zero
    cases a <;> cases b <;> cases hd : r.getLsbD p <;> simp_all
    omega
  fam := by
    have hz := h.fam
    simp only [Work.record]
    by_cases h8 : p + 1 ≤ 8
    · have h1 : min (p + 1) 8 = p + 1 := by omega
      have h2 : min p 8 = p := by omega
      rw [h1]
      rw [h2] at hz
      simp only [lastOpen, ha]
      cases a <;> cases b <;> cases hd : r.getLsbD p <;> simp_all
      omega
    · have h1 : min (p + 1) 8 = min p 8 := by omega
      rw [h1]
      simp [h8, hz]

/-- One position whose slots go as given. -/
theorem searchPosition_eq {p : Nat} {w : Work} {s s1 s2 s3 : State} {a b d : Bool} (ha : readBit s = .ok a s1)
    (hb : readBit s1 = .ok b s2) (hab : (a && b) = false) (hd : branch s2 p a b = d)
    (hw : writeBit d (s2.storeScratchBit p d) = .ok () s3) :
    searchPosition p w s = .ok (some (w.record p a b d)) s3 := by
  unfold searchPosition
  rw [bind_run_ok ha, bind_run_ok hb]
  simp only [hab, Bool.false_eq_true, if_false]
  rw [look_bind, hd, update_bind, bind_run_ok hw]
  rfl

/-- A position at which both reads are 1. -/
theorem searchPosition_bus_error {p : Nat} {w : Work} {s s1 s2 : State} (ha : readBit s = .ok true s1)
    (hb : readBit s1 = .ok true s2) : searchPosition p w s = .ok none s2 := by
  unfold searchPosition
  rw [bind_run_ok ha, bind_run_ok hb]
  rfl

/-- How an environment answers the first `m` positions: `E p` says where it stands before position `p`. -/
def Answers (m : Nat) (E : Nat → State → Prop) (r : Rom) (as : Nat → Bool × Bool) : Prop :=
  ∀ p < m, ∀ s, E p s → ∃ s1 s2 s3, readBit s = .ok (as p).1 s1 ∧ Same s s1 ∧ readBit s1 = .ok (as p).2 s2 ∧ Same s1 s2 ∧
    writeBit (r.getLsbD p) (s2.storeScratchBit p (r.getLsbD p)) = .ok () s3 ∧
    Same (s2.storeScratchBit p (r.getLsbD p)) s3 ∧ E (p + 1) s3

/-- One position, in an environment that answers `as`. -/
theorem searchPosition_progress {E : Nat → State → Prop} {s t : State} {r : Rom} {as : Nat → Bool × Bool} {m p : Nat}
    {w : Work} (hE : Answers m E r as) (hm : p < m) (hp : p < 64) (hone : ((as p).1 && (as p).2) = false)
    (hch : r.getLsbD p = s.chosen p (as p)) (h : Progress s r as p w t) (he : E p t) :
    ∃ w' u, searchPosition p w t = .ok (some w') u ∧ Progress s r as (p + 1) w' u ∧ E (p + 1) u := by
  obtain ⟨s1, s2, s3, h1, e1, h2, e2, h3, e3, he'⟩ := hE p hm t he
  have hP : Progress s r as p w s2 := (h.same_trans e1).same_trans e2
  refine ⟨_, s3, searchPosition_eq h1 h2 hone ((branch_eq_chosen hP hp _ _).trans hch.symm) h3, ?_, he'⟩
  exact (hP.store hp _ _ rfl hone hch).same_trans e3

/-- The last `k` of the 64 positions. -/
theorem searchLoop_progress {E : Nat → State → Prop} {s t : State} {r : Rom} {as : Nat → Bool × Bool} {w : Work}
    (hE : Answers 64 E r as) (hone : ∀ p < 64, ((as p).1 && (as p).2) = false)
    (hch : ∀ p < 64, r.getLsbD p = s.chosen p (as p)) (k : Nat) (hk : k ≤ 64) (h : Progress s r as (64 - k) w t)
    (he : E (64 - k) t) :
    ∃ w' u, searchLoop k w t = .ok (some w') u ∧ Progress s r as 64 w' u ∧ E 64 u := by
  induction k generalizing t w with
  | zero => exact ⟨w, t, rfl, h, he⟩
  | succ k ih =>
    have hp : 63 - k < 64 := by omega
    have h64 : 64 - (k + 1) = 63 - k := by omega
    have h63 : 63 - k + 1 = 64 - k := by omega
    rw [h64] at h he
    obtain ⟨w', u, hpos, hP, hu⟩ := searchPosition_progress hE hp hp (hone _ hp) (hch _ hp) h he
    rw [h63] at hP hu
    obtain ⟨w'', v, hl, hv, hev⟩ := ih (by omega) hP hu
    refine ⟨w'', v, ?_, hv, hev⟩
    unfold searchLoop
    rw [bind_run_ok hpos]
    exact hl

/-- A loop of which the first `p` positions go well. -/
theorem searchLoop_skip {E : Nat → State → Prop} {s t : State} {r : Rom} {as : Nat → Bool × Bool} {w : Work}
    (p : Nat) (hE : Answers p E r as) (hp : p ≤ 64) (hone : ∀ q < p, ((as q).1 && (as q).2) = false)
    (hch : ∀ q < p, r.getLsbD q = s.chosen q (as q)) (h : Progress s r as 0 w t) (he : E 0 t) :
    ∃ w' u, searchLoop 64 w t = searchLoop (64 - p) w' u ∧ Progress s r as p w' u ∧ E p u := by
  induction p with
  | zero => exact ⟨w, t, rfl, h, he⟩
  | succ p ih =>
    obtain ⟨w', u, hl, hP, hu⟩ := ih (fun q hq => hE q (by omega)) (by omega) (fun q hq => hone q (by omega)) (fun q hq => hch q (by omega))
    obtain ⟨w'', v, hpos, hP', hv⟩ := searchPosition_progress hE (Nat.lt_succ_self p) (by omega) (hone p (by omega)) (hch p (by omega)) hP hu
    refine ⟨w'', v, ?_, hP', hv⟩
    have h1 : 64 - p = (63 - p) + 1 := by omega
    have h2 : 63 - (63 - p) = p := by omega
    have h3 : 64 - (p + 1) = 63 - p := by omega
    rw [hl, h1, h3]
    conv_lhs => unfold searchLoop
    rw [h2, bind_run_ok hpos]

/-! ### A pass in any environment -/

/-- What the working registers say of `romScratch` before position `p`. -/
structure WorkOk (p : Nat) (w : Work) (s : State) : Prop where
  wf : Memory.wf s.store = true
  crc : w.crcAcc = ((List.range (min p 56)).map s.scratchBit).foldl crc8Bit 0
  zero : w.lastZero.toNat ≤ p
  fam : w.lastZeroFam.toNat ≤ min p 8

theorem workOk_of_same {p : Nat} {w : Work} {s t : State} (h : WorkOk p w s) (hs : Same s t) : WorkOk p w t := by
  have hb : t.scratchBit = s.scratchBit := by
    funext q
    unfold State.scratchBit
    rw [hs.store]
  exact ⟨by rw [hs.store]; exact h.wf, by rw [hb]; exact h.crc, h.zero, h.fam⟩

theorem workOk_record {p : Nat} {w : Work} {s : State} (hp : p < 64) (a b d : Bool) (h : WorkOk p w s) :
    WorkOk (p + 1) (w.record p a b d) (s.storeScratchBit p d) where
  wf := wf_writeByteAt _ _ _ h.wf
  crc := by
    have hlt : (List.range (min p 56)).map (s.storeScratchBit p d).scratchBit =
        (List.range (min p 56)).map s.scratchBit := by
      apply List.map_congr_left
      intro q hq
      have : q < p := by
        have := List.mem_range.mp hq
        omega
      rw [scratchBit_storeScratchBit s p q d h.wf, if_neg (by omega)]
    simp only [Work.record]
    split
    · have h1 : min (p + 1) 56 = min p 56 + 1 := by omega
      have h2 : min p 56 = p := by omega
      rw [h1, List.range_succ, List.map_append, List.foldl_append, hlt, ← h.crc, h2]
      simp [scratchBit_storeScratchBit s p p d h.wf]
    · have : min (p + 1) 56 = min p 56 := by omega
      rw [this, hlt, h.crc]
  zero := by
    have := h.zero
    simp only [Work.record]
    split
    · rw [BitVec.toNat_ofNat]
      exact Nat.mod_le _ _
    · omega
  fam := by
    have hf := h.fam
    simp only [Work.record]
    split
    · rename_i hc
      have : p + 1 ≤ 8 := by simp at hc; omega
      rw [BitVec.toNat_ofNat]
      exact (Nat.mod_le _ _).trans (by omega)
    · omega

theorem searchPosition_workOk {p : Nat} {w w' : Work} {s t : State} (hp : p < 64) (h : WorkOk p w s)
    (hr : searchPosition p w s = .ok (some w') t) : WorkOk (p + 1) w' t := by
  unfold searchPosition at hr
  obtain ⟨a, s1, h1, hr⟩ := bind_eq_ok.mp hr
  obtain ⟨b, s2, h2, hr⟩ := bind_eq_ok.mp hr
  have hs2 : Same s s2 := ((Ends.readBit channelOnly_steps).of_ok h1).1.trans ((Ends.readBit channelOnly_steps).of_ok h2).1
  cases hab : a && b with
  | true => simp [hab] at hr
  | false =>
    simp only [hab, Bool.false_eq_true, if_false] at hr
    rw [look_bind, update_bind] at hr
    obtain ⟨_, s3, h3, hr⟩ := bind_eq_ok.mp hr
    have hs3 := ((Ends.writeBit channelOnly_steps _).of_ok h3).1
    simp only [pure_run, EStateM.Result.ok.injEq, Option.some.injEq] at hr
    obtain ⟨rfl, rfl⟩ := hr
    exact workOk_of_same (workOk_record hp a b _ (workOk_of_same h hs2)) hs3

theorem searchLoop_workOk {k : Nat} {w w' : Work} {s t : State} (hk : k ≤ 64) (h : WorkOk (64 - k) w s)
    (hr : searchLoop k w s = .ok (some w') t) : WorkOk 64 w' t := by
  induction k generalizing w s with
  | zero =>
    simp only [searchLoop, pure_run, EStateM.Result.ok.injEq, Option.some.injEq] at hr
    obtain ⟨rfl, rfl⟩ := hr
    exact h
  | succ k ih =>
    unfold searchLoop at hr
    obtain ⟨o, u, hpos, hr⟩ := bind_eq_ok.mp hr
    cases o with
    | none => simp at hr
    | some v =>
      have h64 : 64 - (k + 1) = 63 - k := by omega
      have h63 : 63 - k + 1 = 64 - k := by omega
      rw [h64] at h
      have := searchPosition_workOk (by omega) h hpos
      rw [h63] at this
      exact ih (by omega) this hr

/-- After 64 positions the accumulator is the CRC of `romScratch`'s first seven bytes, in any environment. -/
theorem romCrc_of_workOk {w : Work} {s : State} (h : WorkOk 64 w s) : w.crcAcc = romCrc s.scratch := by
  rw [h.crc, romCrc_eq_foldl]
  congr 1
  apply List.map_congr_left
  intro q hq
  have : q < 64 := by
    have := List.mem_range.mp hq
    omega
  exact (scratch_getLsbD s q this).symm

/-- Step 5's test, in any environment. -/
theorem crc_test_of_workOk {w : Work} {s : State} (h : WorkOk 64 w s) :
    w.crcAcc = readByteAt s.store 7 ↔ romValid s.scratch = true := by
  have h7 : readByteAt s.store 7 = romByte s.scratch 7 := by
    rw [State.scratch, romByte_readRomAt _ _ _ (by omega)]
  rw [romCrc_of_workOk h, h7]
  simp [romValid]

/-! ### The close of a pass -/

theorem scratch_of_progress {s t : State} {r : Rom} {as : Nat → Bool × Bool} {w : Work}
    (h : Progress s r as 64 w t) : t.scratch = r := by
  apply BitVec.eq_of_getLsbD_eq
  intro i hi
  rw [scratch_getLsbD t i hi, h.bits i hi, if_pos hi]

/-- Step 5's test is the validity of the code. -/
theorem crc_test_of_progress {s t : State} {r : Rom} {as : Nat → Bool × Bool} {w : Work}
    (h : Progress s r as 64 w t) : w.crcAcc = readByteAt t.store 7 ↔ romValid r = true := by
  have h7 : readByteAt t.store 7 = romByte r 7 := by
    rw [← scratch_of_progress h, State.scratch, romByte_readRomAt _ _ _ (by omega)]
  rw [h.crc, h7, show min 64 56 = 56 from rfl, ← romCrc_eq_foldl]
  simp [romValid]

theorem toNat_eq_zero {n : Nat} {x : BitVec n} : x = 0 ↔ x.toNat = 0 := by
  rw [← BitVec.toNat_inj]
  simp

/-- Steps 5 to 7, after 64 positions. -/
theorem closePass_of_progress {s t : State} {r : Rom} {as : Nat → Bool × Bool} {w : Work}
    (h : Progress s r as 64 w t) :
    (closePass w t).1 = passOutcome s r ∧ PassEffect s r as (closePass w t).2 := by
  have hs := h.same
  have hcfg : t.cfg = s.cfg := hs.cfg
  have hcnt : t.deviceCount = s.deviceCount := hs.deviceCount
  have hscr := scratch_of_progress h
  have hz := h.zero
  have hf : w.lastZeroFam.toNat = lastOpen r as 8 := h.fam
  unfold closePass passOutcome
  by_cases hv : romValid r = true
  · rw [if_neg (not_not.mpr ((crc_test_of_progress h).mpr hv)), if_pos hv]
    have hl : t.lastFamilyDiscrepancy = s.lastFamilyDiscrepancy := hs.lastFamilyDiscrepancy
    have hd : t.lastDeviceFlag = s.lastDeviceFlag := hs.lastDeviceFlag
    have hm : t.hasMoreDevices = s.hasMoreDevices := hs.hasMoreDevices
    have hscr' : (t.recordSearch w).scratch = r := hscr
    have hfam : ((t.recordSearch w).lastFamilyDiscrepancy).toNat =
        if romValid r = true ∧ lastOpen r as 8 ≠ 0 then lastOpen r as 8 else s.lastFamilyDiscrepancy.toNat := by
      simp only [State.recordSearch, State.setSearch_lastFamilyDiscrepancy]
      by_cases h0 : lastOpen r as 8 = 0
      · have : w.lastZeroFam = 0 := toNat_eq_zero.mpr (hf.trans h0)
        simp [this, h0, hl]
      · have : w.lastZeroFam ≠ 0 := fun hw => h0 (by rw [← hf, hw]; rfl)
        rw [if_pos this, if_pos ⟨hv, h0⟩]
        exact hf
    have hldf : (t.recordSearch w).lastDeviceFlag = (s.lastDeviceFlag || (romValid r && lastOpen r as 64 == 0)) := by
      simp only [State.recordSearch, State.setSearch_lastDeviceFlag]
      by_cases h0 : lastOpen r as 64 = 0
      · have : w.lastZero = 0 := toNat_eq_zero.mpr (hz.trans h0)
        simp [this, h0, hv]
      · have : w.lastZero ≠ 0 := fun hw => h0 (by rw [← hz, hw]; rfl)
        rw [if_neg this]
        simp [h0, hd]
    dsimp only
    simp only [hscr']
    by_cases hc : s.deviceCount.toNat < s.cfg.maxDevices
    · have hc' : (t.recordSearch w).deviceCount.toNat < (t.recordSearch w).cfg.maxDevices := by
        show t.deviceCount.toNat < t.cfg.maxDevices
        rwa [hcnt, hcfg]
      rw [if_pos hc', if_pos hc]
      refine ⟨rfl, ?_⟩
      have hstore : ((t.recordSearch w).append r).store = writeRomAt t.store (entryAddr s.deviceCount.toNat) r := by
        simp [State.recordSearch, hcnt]
      have hea : 8 ≤ entryAddr s.deviceCount.toNat := by unfold entryAddr; omega
      exact {
        fixed := ⟨hcfg, hs.req, hs.pending, hs.slot⟩
        scratch := by
          rw [State.scratch, hstore, readRomAt_writeRomAt_other _ _ _ _ (.inl (by omega))]
          exact hscr
        lastDiscrepancy := by rw [if_pos hv]; exact hz
        lastFamilyDiscrepancy := hfam
        lastDeviceFlag := hldf
        hasMoreDevices := by
          have : decide (s.cfg.maxDevices ≤ s.deviceCount.toNat) = false := by simp; omega
          rw [this, Bool.and_false, Bool.or_false]
          exact hm
        deviceCount := by rw [if_pos ⟨hv, hc⟩, ← hcnt]; rfl
        entry := fun _ _ => by rw [State.entry, hstore, readRomAt_writeRomAt _ _ _ h.wf]
        others := fun a ha hn => by
          rw [hstore, read_writeRomAt_other _ _ _ _ (by by_contra hcon; exact hn ⟨hv, hc, by omega, by omega⟩)]
          exact h.table a ha }
    · have hc' : ¬ (t.recordSearch w).deviceCount.toNat < (t.recordSearch w).cfg.maxDevices := by
        show ¬ t.deviceCount.toNat < t.cfg.maxDevices
        rwa [hcnt, hcfg]
      rw [if_neg hc', if_neg hc]
      refine ⟨rfl, ?_⟩
      exact {
        fixed := ⟨hcfg, hs.req, hs.pending, hs.slot⟩
        scratch := hscr
        lastDiscrepancy := by rw [if_pos hv]; exact hz
        lastFamilyDiscrepancy := hfam
        lastDeviceFlag := hldf
        hasMoreDevices := by
          have : decide (s.cfg.maxDevices ≤ s.deviceCount.toNat) = true := by simp; omega
          rw [this, hv, Bool.and_true, Bool.or_true]
          rfl
        deviceCount := by rw [if_neg (fun h => hc h.2)]; exact hcnt
        entry := fun _ h => absurd h hc
        others := fun a ha _ => h.table a ha }
  · rw [if_pos (fun hcon => hv ((crc_test_of_progress h).mp hcon)), if_neg hv]
    have hv' : romValid r = false := by simpa using hv
    refine ⟨rfl, ?_⟩
    exact {
      fixed := ⟨hcfg, hs.req, hs.pending, hs.slot⟩
      scratch := hscr
      lastDiscrepancy := by rw [if_neg hv]; exact congrArg BitVec.toNat hs.lastDiscrepancy
      lastFamilyDiscrepancy := by
        rw [if_neg (fun h => hv h.1)]; exact congrArg BitVec.toNat hs.lastFamilyDiscrepancy
      lastDeviceFlag := by simp only [hv', Bool.false_and, Bool.or_false]; exact hs.lastDeviceFlag
      hasMoreDevices := by simp only [hv', Bool.false_and, Bool.or_false]; exact hs.hasMoreDevices
      deviceCount := by rw [if_neg (fun h => hv h.1)]; exact hcnt
      entry := fun h => absurd h hv
      others := fun a ha _ => h.table a ha }

end Sys2Proof.Machine
end

