-- ==== Sys2Proof/Laws/Commands.lean ====
section
/-! SUPPORT. The commands as computations, and the closure lemmas for them: what every atomic step of a command keeps, the command
keeps. -/

namespace Sys2Proof.Machine

/-- What makes `Q` closed under the positions of a search pass. -/
structure BitSteps (Q : State → Option Stop → State → Prop) : Prop extends ChannelSteps Q where
  store : ∀ s p d, p < 64 → Q s none (s.storeScratchBit p d)

/-- What makes `Q` closed under a search pass up to its close. -/
structure LoopSteps (Q : State → Option Stop → State → Prop) : Prop extends BitSteps Q where
  noDevices : ∀ s, Q s none (s.setCount 0)

/-- What makes `Q` closed under a search pass. -/
structure PassSteps (Q : State → Option Stop → State → Prop) : Prop extends LoopSteps Q where
  close : ∀ s w, Q s none (closePass w s).2

/-- What the positions of a pass may have changed: the mailbox and `romScratch`. -/
structure Searched (s t : State) : Prop where
  same : SameButStore s t
  table : ∀ a, 8 ≤ a → readByteAt t.store a = readByteAt s.store a
  response : responses t.trace = responses s.trace

/-- `Searched`, unless the reset input has come. -/
def SearchedOnly (s : State) : Option Stop → State → Prop
  | some .killed, _ => True
  | _, t => Searched s t

theorem searchedOnly_of_channelOnly {s t : State} {h : Option Stop} (hc : ChannelOnly s h t) : SearchedOnly s h t := by
  have key : Same s t → responses t.trace = responses s.trace → Searched s t := fun h hr =>
    ⟨h.toSameButStore, fun a _ => by rw [h.store], hr⟩
  rcases h with _ | ⟨_ | _⟩
  · exact key hc.1 hc.2.1
  · exact key hc.1 hc.2.1
  · trivial

theorem searchedOnly_steps : BitSteps SearchedOnly where
  refl s := searchedOnly_of_channelOnly (h := none) (channelOnly_composes.refl s)
  timeout s := searchedOnly_of_channelOnly (h := some .timeout) (channelOnly_composes.timeout s)
  trans {s t u h} h1 h2 := by
    have key : Searched t u → Searched s u := fun h2 =>
      ⟨h1.same.trans h2.same, fun a ha => (h2.table a ha).trans (h1.table a ha), h2.response.trans h1.response⟩
    rcases h with _ | ⟨_ | _⟩
    · exact key h2
    · exact key h2
    · trivial
  tick s := by
    have hc := tick_channelOnly s
    cases h : tick s with
    | ok a t =>
      rw [h] at hc
      exact searchedOnly_of_channelOnly (h := none) hc
    | error e t =>
      rw [h] at hc
      exact searchedOnly_of_channelOnly (h := some e) hc
  baud s r := searchedOnly_of_channelOnly (h := none) (channelOnly_steps.baud s r)
  transmit s x hx := searchedOnly_of_channelOnly (h := none) (channelOnly_steps.transmit s x hx)
  consume s := searchedOnly_of_channelOnly (h := none) (channelOnly_steps.consume s)
  cfg h := h.same.cfg
  store s p d hp := ⟨sameButStore_storeScratchBit s p d, fun a ha => read_write_other _ _ _ _ (by omega), rfl⟩

/-- `R` says what has happened from a state on: what `Q` allows, or, at the end, more; the others' moves leave it so. -/
structure Followed (Q R : State → Option Stop → State → Prop) : Prop where
  of : ∀ {s h t}, Q s h t → R s h t
  tick_ok : ∀ {s t u}, R s none t → tick t = .ok () u → R s none u
  tick_error : ∀ {s t u e}, R s none t → tick t = .error e u → R s (some e) u

theorem Followed.refl {Q : State → Option Stop → State → Prop} (hQ : ChannelSteps Q) : Followed Q Q where
  of := id
  tick_ok h ht := hQ.trans h (hQ.tick.of_ok ht)
  tick_error h ht := hQ.trans h (hQ.tick.of_error ht)

section
variable {Q R : State → Option Stop → State → Prop}

theorem Ends.searchPosition (hQ : BitSteps Q) (p : Nat) (hp : p < 64) (w : Work) : Ends Q (searchPosition p w) :=
  Ends.bind hQ.toComposes (Ends.readBit hQ.toChannelSteps) fun a =>
    Ends.bind hQ.toComposes (Ends.readBit hQ.toChannelSteps) fun b => by
      cases a && b
      · exact Ends.bind hQ.toComposes (Ends.look hQ.toComposes) fun s =>
          Ends.bind hQ.toComposes (Ends.update fun t => hQ.store t p _ hp) fun _ =>
            Ends.bind hQ.toComposes (Ends.writeBit hQ.toChannelSteps _) fun _ => Ends.pure hQ.toComposes _
      · exact Ends.pure hQ.toComposes _

theorem Ends.searchLoop (hQ : BitSteps Q) : ∀ k w, Ends Q (searchLoop k w)
  | 0, _ => Ends.pure hQ.toComposes _
  | k + 1, w => Ends.bind hQ.toComposes (Ends.searchPosition hQ (63 - k) (by omega) w) fun
    | none => Ends.pure hQ.toComposes none
    | some w' => Ends.searchLoop hQ k w'

/-- A pass at one state: its close is looked at with what the pass has done so far, from the state `s` it began in through the
state `u` in which its positions began. -/
theorem Goes.passBody (hQ : LoopSteps Q) (hR : Followed Q R) (alarm : Bool) {s : State}
    (hclose : ∀ u w t, s.lastDeviceFlag = false → Same s u → Machine.searchLoop 64 Work.init u = .ok (some w) t →
      Searched s t → Q s none t → R s none (closePass w t).2) :
    Goes R s (passBody alarm s) := by
  have hP := hQ.toComposes
  have hB : BitSteps Q := hQ.toBitSteps
  unfold Machine.passBody
  rw [look_bind]
  cases hf : s.lastDeviceFlag with
  | true => exact hR.of (hP.refl s)
  | false =>
    have hreset := Ends.resetBus hQ.toChannelSteps s
    have hreset' := Ends.resetBus channelOnly_steps s
    simp only [Bool.false_eq_true, if_false, bind_run]
    cases hr : Machine.resetBus s with
    | error e t =>
      rw [hr] at hreset
      exact hR.of hreset
    | ok present t =>
      rw [hr] at hreset hreset'
      cases present with
      | false => exact hR.of (hP.trans hreset (hQ.noDevices t))
      | true =>
        have hw := Ends.writeByte hQ.toChannelSteps (searchCommand s.cfg alarm) t
        have hw' := Ends.writeByte channelOnly_steps (searchCommand s.cfg alarm) t
        simp only [if_true, bind_run]
        cases hb : Machine.writeByte (searchCommand s.cfg alarm) t with
        | error e u =>
          rw [hb] at hw
          exact hR.of (hP.trans hreset hw)
        | ok _ u =>
          rw [hb] at hw hw'
          have hs : Same s u := hreset'.1.trans hw'.1
          have hr' : responses u.trace = responses s.trace := hw'.2.1.trans hreset'.2.1
          have hsu : Q s none u := hP.trans hreset hw
          have hl := Ends.searchLoop hB 64 Work.init u
          have hl' := Ends.searchLoop searchedOnly_steps 64 Work.init u
          dsimp only
          cases hv : Machine.searchLoop 64 Work.init u with
          | error e v =>
            rw [hv] at hl
            exact hR.of (hP.trans hsu hl)
          | ok o v =>
            rw [hv] at hl hl'
            have hsv : Q s none v := hP.trans hsu hl
            cases o with
            | none => exact hR.of hsv
            | some w =>
              exact hclose u w v hf hs hv (searchedOnly_steps.trans (h := none) ⟨hs.toSameButStore, fun a _ => by rw [hs.store], hr'⟩ hl') hsv

theorem Goes.searchPass (hQ : LoopSteps Q) (hR : Followed Q R) (hT : ∀ s t, R s (some .timeout) t → R s none t)
    (alarm : Bool) {s : State}
    (hclose : ∀ u w t, s.lastDeviceFlag = false → Same s u → Machine.searchLoop 64 Work.init u = .ok (some w) t →
      Searched s t → Q s none t → R s none (closePass w t).2) :
    Goes R s (searchPass alarm s) := by
  have h := Goes.passBody hQ hR alarm hclose
  unfold Machine.searchPass
  cases hp : Machine.passBody alarm s with
  | ok o t =>
    rw [hp] at h
    exact h
  | error e t =>
    rw [hp] at h
    cases e with
    | timeout => exact hT s t h
    | killed => exact h

theorem Ends.searchPass (hQ : PassSteps Q) (hT : ∀ s t, Q s (some .timeout) t → Q s none t) (alarm : Bool) :
    Ends Q (searchPass alarm) := fun _ =>
  Goes.searchPass hQ.toLoopSteps (Followed.refl hQ.toChannelSteps) hT alarm fun _ w t _ _ _ _ h => hQ.trans h (hQ.close t w)

/-- A search pass raises no TIMEOUT: it has an outcome for it. -/
theorem searchPass_not_timeout {alarm : Bool} {s t : State} : searchPass alarm s ≠ .error .timeout t := by
  unfold searchPass
  cases passBody alarm s with
  | ok o u => simp
  | error e u => cases e <;> simp

theorem Ends.scanOpening (hQ : ChannelSteps Q) (hc : ∀ s : State, Q s none s.clear) : Ends Q scanOpening :=
  Ends.bind hQ.toComposes (Ends.look hQ.toComposes) fun s => by
    by_cases hp : s.point = .start
    · simp only [hp, if_true]
      exact Ends.bind hQ.toComposes hQ.tick fun _ => Ends.update hc
    · simp only [hp, if_false]
      exact Ends.pure hQ.toComposes _

theorem Ends.addressed (hQ : ChannelSteps Q) {body : M Response} (h : Ends Q body) : Ends Q (addressed body) :=
  Ends.bind hQ.toComposes (Ends.resetBus hQ) fun present => by
    cases present
    · exact Ends.pure hQ.toComposes _
    · exact h

end

/-! ### Each command as its computation -/

/-- The computation of a request other than SCAN at a state. -/
def commandOf (s : State) : Instr → M Response
  | .reset => do
    let present ← resetBus
    pure (if present then ⟨.ok, 1, 0⟩ else noPresenceResponse)
  | .wrbit b => wrbitCommand b
  | .rdbit => do
    let w ← readBit
    pure ⟨.ok, bitVal w, 0⟩
  | .wrbyte b => do
    writeByte b
    pure okResponse
  | .rdbyte => do
    let c ← readByte
    pure ⟨.ok, c, 0⟩
  | .search alarm => searchCommandBody alarm
  | .matchrom rom => addressed (do
    writeByte 0x55
    writeBytes (romBytes rom)
    pure okResponse)
  | .skiprom => addressed (do
    writeByte 0xCC
    pure okResponse)
  | .readrom => addressed (do
    writeByte 0x33
    let acc ← readRomBytes
    pure (readromResponse acc))
  | .clrstate => do
    tick
    update State.clear
    pure okResponse
  | .crc8 rom => pure (crc8Response rom)
  | .getstate => do
    tick
    let s ← look
    pure s.statusResponse
  | .getdev k => pure (if k.toNat < s.deviceCount.toNat then ⟨.ok, k, s.entry k.toNat⟩ else ⟨.indexRange, s.deviceCount, 0⟩)
  | .getscr => pure ⟨.ok, 0, s.scratch⟩
  | .unassigned _ => pure ⟨.illegalCommand, 0, 0⟩
  | .asearch => searchCommandBody true
  | .wr0 => wrbitCommand false
  | .wr1 => wrbitCommand true
  | .scan _ | .ascan => pure okResponse
  | .wSearchRom | .wAlarmSearch | .wSkipRom | .wReadRom | .wMatchRom => pure okResponse
  | .sResetPulse | .sProbe | .sWrite0 | .sWrite1 | .sRead => pure okResponse

theorem finish_pure (r : Response) (s : State) : finish (pure r) s = deliver r s := rfl

/-- A request other than SCAN that gives a next state gives what its computation and its response give. -/
theorem exec_eq_finish {i : Instr} {s t : State} (hi : isRequest i = true) (hs : isScan i = false)
    (h : exec i s = .next t) : t = finish (commandOf s i) s := by
  cases i with
  | getdev k =>
    simp only [exec, execGetdev] at h
    simp only [commandOf, finish_pure]
    split at h
    · rename_i hk
      split at h
      · rw [if_pos hk]; exact (Host.Outcome.next.inj h).symm
      · cases h
    · rename_i hk
      rw [if_neg hk]; exact (Host.Outcome.next.inj h).symm
  | scan alarm => cases hs
  | ascan => cases hs
  | wSearchRom => cases hi
  | wAlarmSearch => cases hi
  | wSkipRom => cases hi
  | wReadRom => cases hi
  | wMatchRom => cases hi
  | sResetPulse => cases hi
  | sProbe => cases hi
  | sWrite0 => cases hi
  | sWrite1 => cases hi
  | sRead => cases hi
  | _ => exact (Host.Outcome.next.inj h).symm

/-- The same the other way round, where GETDEV stays within the store. -/
theorem exec_eq_next {i : Instr} {s : State} (hi : isRequest i = true) (hs : isScan i = false)
    (hg : s.deviceCount.toNat ≤ s.cfg.maxDevices) : exec i s = .next (finish (commandOf s i) s) := by
  cases i with
  | getdev k =>
    simp only [exec, execGetdev, commandOf, finish_pure]
    split
    · rename_i hk
      rw [if_pos]
      unfold entryAddr storeSize
      omega
    · rfl
  | scan alarm => cases hs
  | ascan => cases hs
  | wSearchRom => cases hi
  | wAlarmSearch => cases hi
  | wSkipRom => cases hi
  | wReadRom => cases hi
  | wMatchRom => cases hi
  | sResetPulse => cases hi
  | sProbe => cases hi
  | sWrite0 => cases hi
  | sWrite1 => cases hi
  | sRead => cases hi
  | _ => rfl

/-- The computations of the commands that keep `BusState` are made of channel primitives. -/
theorem Ends.commandOf {Q : State → Option Stop → State → Prop} (hQ : ChannelSteps Q) (s : State) {i : Instr}
    (h : keepsBusState i = true) : Ends Q (commandOf s i) := by
  have hP := hQ.toComposes
  cases i <;> first
    | (cases h; done)
    | exact Ends.pure hP _
    | exact Ends.bind hP (Ends.resetBus hQ) fun _ => Ends.pure hP _
    | exact Ends.bind hP (Ends.writeBit hQ _) fun _ => Ends.pure hP _
    | exact Ends.bind hP (Ends.readBit hQ) fun _ => Ends.pure hP _
    | exact Ends.bind hP (Ends.writeByte hQ _) fun _ => Ends.pure hP _
    | exact Ends.bind hP (Ends.readByte hQ) fun _ => Ends.pure hP _
    | exact Ends.bind hP hQ.tick fun _ => Ends.bind hP (Ends.look hP) fun _ => Ends.pure hP _
    | exact Ends.addressed hQ (Ends.bind hP (Ends.writeByte hQ _) fun _ => Ends.pure hP _)
    | exact Ends.addressed hQ (Ends.bind hP (Ends.writeByte hQ _) fun _ =>
        Ends.bind hP (Ends.writeBytes hQ _) fun _ => Ends.pure hP _)
    | exact Ends.addressed hQ (Ends.bind hP (Ends.writeByte hQ _) fun _ =>
        Ends.bind hP (Ends.bind hP (Ends.readBytes hQ _) fun _ => Ends.pure hP _) fun _ => Ends.pure hP _)

/-! ### The rows of layers W and S as computations -/

/-- The computation of a row of layer W or S at a state. -/
def partOf (s : State) : Instr → M Unit
  | .wSearchRom => writeByte 0xF0
  | .wAlarmSearch => writeByte s.cfg.alarmSearchCmd
  | .wSkipRom => writeByte 0xCC
  | .wReadRom => writeByte 0x33
  | .wMatchRom => writeByte 0x55
  | .sResetPulse => keepSlot (do
    configureBaud .reset
    let r ← xfer (.other s.cfg.resetByte)
    pure (discard r))
  | .sProbe => keepSlot (do
    configureBaud .slot
    match ← xfer (.other s.cfg.probeByte) with
    | .echo v => pure (.presence (v != s.cfg.probeByte))
    | .timedOut => pure .timedOut)
  | .sWrite0 => keepSlot (do
    let r ← xfer (.write false)
    pure (discard r))
  | .sWrite1 => keepSlot (do
    let r ← xfer (.write true)
    pure (discard r))
  | .sRead => keepSlot (do
    match ← xfer .read with
    | .echo v => pure (.bit (v == 0xFF))
    | .timedOut => pure .timedOut)
  | _ => pure ()

theorem exec_eq_part {i : Instr} {s : State} (hi : isRequest i = false) : exec i s = .next (part (partOf s i) s) := by
  cases i <;> first | (cases hi; done) | rfl

/-- The rows of layer W are made of channel primitives. -/
theorem Ends.partOf_romByte {Q : State → Option Stop → State → Prop} (hQ : ChannelSteps Q) (s : State) {i : Instr}
    (h : i.layer = .romByte) : Ends Q (partOf s i) := by
  cases i <;> first | (cases h; done) | exact Ends.writeByte hQ _

/-- The rows of layer S are made of channel primitives and the keeping of their result. -/
theorem Goes.partOf_slotSymbol {Q : State → Option Stop → State → Prop} (hQ : ChannelSteps Q)
    (hslot : ∀ s r, Q s none (s.setSlot r)) (s : State) {i : Instr} (h : i.layer = .slotSymbol) :
    Goes Q s (partOf s i s) := by
  have hP := hQ.toComposes
  have hb : ∀ (r : Baud) (x : Sent) (f : Wait → M SlotResult), x.byte ∈ symbolBytes s.cfg → (∀ w, Ends Q (f w)) →
      Goes Q s ((Machine.configureBaud r >>= fun _ => Machine.xfer x >>= f) s) := fun r x f hx hf =>
    Goes.bind hP (Ends.configureBaud hQ r s) fun _ t ht =>
      Goes.bind hP (Goes.xfer hQ (by rw [hQ.cfg ((Ends.configureBaud hQ r).of_ok ht)]; exact hx)) fun w u _ => hf w u
  have hk : ∀ (m : M SlotResult), Goes Q s (m s) → Goes Q s (keepSlot m s) := fun m hm =>
    Goes.bind hP hm fun r t _ => hslot t r
  cases i with
  | sResetPulse =>
    exact hk _ (hb _ _ _ (by simp [symbolBytes]) fun _ => Ends.pure hP _)
  | sProbe =>
    refine hk _ (hb _ _ _ (by simp [symbolBytes]) fun w => ?_)
    cases w <;> exact Ends.pure hP _
  | sWrite0 => exact hk _ (Goes.bind hP (Ends.xfer_write hQ _ s) fun _ t _ => hP.refl t)
  | sWrite1 => exact hk _ (Goes.bind hP (Ends.xfer_write hQ _ s) fun _ t _ => hP.refl t)
  | sRead =>
    refine hk _ (Goes.bind hP (Ends.xfer_read hQ s) fun w t _ => ?_)
    cases w <;> exact hP.refl t
  | _ => cases h

end Sys2Proof.Machine
end

