-- ==== Sys2Proof/Laws/Requests.lean ====
section
/-! SUPPORT. How a request, or a row of layer W or S, can end: through states that a predicate closed under the atomic steps allows. A
statement about every instruction is proved by choosing the predicate. -/

namespace Sys2Proof.Machine

theorem tick_not_timeout {s t : State} : tick s ≠ .error .timeout t := by
  intro h
  have hp := playTape_channelOnly s.tape s
  change playTape s.tape s = _ at h
  rw [h] at hp
  cases hp.1

theorem scanOpening_start {s : State} (h : s.point = .start) :
    scanOpening s = (tick >>= fun _ => update State.clear) s := by
  unfold scanOpening
  rw [look_bind]
  simp only [h, if_true]

theorem scanOpening_loop {s : State} (h : s.point = .scanLoop) : scanOpening s = .ok () s := by
  unfold scanOpening
  rw [look_bind]
  simp [h]

theorem scanPass_loop {s : State} (alarm : Bool) (h : s.point = .scanLoop) : scanPass alarm s = searchPass alarm s := by
  unfold scanPass
  rw [bind_run_ok (scanOpening_loop h)]

theorem scanPass_start {s u : State} (alarm : Bool) (h : s.point = .start) (ht : tick s = .ok () u) :
    scanPass alarm s = searchPass alarm u.clear := by
  have ho : scanOpening s = .ok () u.clear := by rw [scanOpening_start h, bind_run_ok ht, update_run]
  unfold scanPass
  rw [bind_run_ok ho]

theorem scanPass_not_timeout {alarm : Bool} {s t : State} : scanPass alarm s ≠ .error .timeout t := by
  intro h
  rcases bind_eq_error.mp h with h | ⟨_, u, -, h⟩
  · cases hp : s.point with
    | start =>
      rw [scanOpening_start hp] at h
      rcases bind_eq_error.mp h with h | ⟨_, u, -, h⟩
      · exact tick_not_timeout h
      · cases h
    | scanLoop =>
      rw [scanOpening_loop hp] at h
      cases h
  · exact searchPass_not_timeout h

/-- A response is given after the others' moves, or the reset input comes first. -/
theorem deliver_cases (r : Response) (s : State) :
    (∃ u, tick s = .ok () u ∧ deliver r s = u.respond r) ∨ ∃ u, tick s = .error .killed u ∧ deliver r s = u := by
  unfold deliver
  cases h : tick s with
  | ok _ u => exact .inl ⟨u, rfl, rfl⟩
  | error e u =>
    cases e with
    | timeout => exact absurd h tick_not_timeout
    | killed => exact .inr ⟨u, rfl, rfl⟩

/-- SCAN in either spelling is a step of its loop. -/
theorem exec_scan {i : Instr} {s t : State} (hs : isScan i = true) (h : exec i s = .next t) :
    ∃ alarm, t = scanStep alarm s := by
  cases i <;> first
    | (cases hs; done)
    | exact ⟨_, (Host.Outcome.next.inj h).symm⟩

theorem exec_scan_next {i : Instr} (s : State) (hs : isScan i = true) : ∃ alarm, exec i s = .next (scanStep alarm s) := by
  cases i <;> first
    | (cases hs; done)
    | exact ⟨_, rfl⟩

section
variable {Q R : State → Option Stop → State → Prop}

/-- A request's computation at one state, from what a search pass and the clear do. -/
theorem Goes.request (hQ : ChannelSteps Q) (hR : Followed Q R) (hc : ∀ s : State, Q s none s.clear) {s : State}
    (hpass : ∀ alarm, Goes R s (Machine.searchPass alarm s)) {i : Instr} (hi : isRequest i = true)
    (hs : isScan i = false) : Goes R s (Machine.commandOf s i s) := by
  have hP := hQ.toComposes
  by_cases hk : keepsBusState i = true
  · have h := Ends.commandOf hQ s hk s
    unfold Goes at h ⊢
    revert h
    cases Machine.commandOf s i s with
    | ok r t => exact hR.of
    | error e t => exact hR.of
  · have hsearch : ∀ alarm, Goes R s (searchCommandBody alarm s) := by
      intro alarm
      have h := hpass alarm
      unfold Machine.searchCommandBody
      rw [bind_run]
      unfold Goes at h ⊢
      revert h
      cases Machine.searchPass alarm s with
      | ok o t => exact id
      | error e t => exact id
    have hclear : Goes R s (Machine.commandOf s .clrstate s) := by
      have h : Goes Q s (Machine.commandOf s .clrstate s) := Goes.bind hP (hQ.tick s) fun _ t _ => hc t
      unfold Goes at h ⊢
      revert h
      cases Machine.commandOf s .clrstate s with
      | ok r t => exact hR.of
      | error e t => exact hR.of
    cases i <;> first
      | exact absurd rfl hk
      | (cases hi; done)
      | (cases hs; done)
      | exact hsearch _
      | exact hclear

/-- A command ends with a response, or by the reset input. -/
theorem finish_cases (hR : Followed Q R) (hT : ∀ s t, R s (some .timeout) t → R s none t)
    {m : M Response} {s : State} (hm : Goes R s (m s)) :
    (∃ v r, R s none v ∧ finish m s = v.respond r) ∨ R s (some .killed) (finish m s) := by
  have key : ∀ u r, R s none u →
      (∃ v r', R s none v ∧ deliver r u = v.respond r') ∨ R s (some .killed) (deliver r u) := by
    intro u r hu
    rcases deliver_cases r u with ⟨v, hv, hd⟩ | ⟨v, hv, hd⟩
    · exact .inl ⟨v, r, hR.tick_ok hu hv, hd⟩
    · exact .inr (by rw [hd]; exact hR.tick_error hu hv)
  unfold finish
  cases h : m s with
  | ok r u =>
    rw [h] at hm
    exact key u r hm
  | error e u =>
    rw [h] at hm
    cases e with
    | timeout => exact key u _ (hT _ _ hm)
    | killed => exact .inr hm

/-- A step of SCAN from the state its opening leaves: it ends with a response, or goes on, or ends by the reset input. -/
theorem scan_cases_of_opening (hR : Followed Q R) {alarm : Bool} {s u : State}
    (ho : scanOpening s = .ok () u) (hm : Goes R u (searchPass alarm u)) :
    (∃ v r, R u none v ∧ scanStep alarm s = v.respond r) ∨
      (∃ v, R u none v ∧ scanStep alarm s = v.setPoint .scanLoop) ∨ R u (some .killed) (scanStep alarm s) := by
  have hp : scanPass alarm s = searchPass alarm u := by
    unfold scanPass
    rw [bind_run_ok ho]
  unfold scanStep
  rw [hp]
  cases h : searchPass alarm u with
  | ok o t =>
    rw [h] at hm
    dsimp only
    cases scanResponse t.deviceCount o with
    | none => exact .inr (.inl ⟨t, hm, rfl⟩)
    | some r =>
      dsimp only
      rcases deliver_cases r t with ⟨v, hv, hd⟩ | ⟨v, hv, hd⟩
      · exact .inl ⟨v, r, hR.tick_ok hm hv, hd⟩
      · exact .inr (.inr (by rw [hd]; exact hR.tick_error hm hv))
  | error e t =>
    rw [h] at hm
    cases e with
    | timeout => exact absurd h searchPass_not_timeout
    | killed => exact .inr (.inr hm)

/-- The opening of SCAN: nothing at the head of its loop, else the others' moves and the clear, or the reset input. -/
theorem scanOpening_cases (s : State) :
    (s.point = .scanLoop ∧ scanOpening s = .ok () s) ∨
      (s.point = .start ∧ ∃ u, tick s = .ok () u ∧ scanOpening s = .ok () u.clear) ∨
      (s.point = .start ∧ ∃ u, tick s = .error .killed u ∧ ∀ alarm, scanStep alarm s = u) := by
  cases hp : s.point with
  | scanLoop => exact .inl ⟨rfl, scanOpening_loop hp⟩
  | start =>
    refine .inr ?_
    cases ht : tick s with
    | ok _ u => exact .inl ⟨rfl, u, rfl, by rw [scanOpening_start hp, bind_run_ok ht, update_run]⟩
    | error e u =>
      cases e with
      | timeout => exact absurd ht tick_not_timeout
      | killed =>
        refine .inr ⟨rfl, u, rfl, fun alarm => ?_⟩
        unfold scanStep scanPass
        rw [bind_run_error (by rw [scanOpening_start hp, bind_run_error ht])]

/-- A step of SCAN, for a predicate that the clear keeps as well. -/
theorem scan_cases (hQ : ChannelSteps Q) (hc : ∀ s : State, Q s none s.clear) {s : State}
    (hpass : ∀ alarm u, Q s none u → Goes Q u (searchPass alarm u)) (alarm : Bool) :
    (∃ v r, Q s none v ∧ scanStep alarm s = v.respond r) ∨
      (∃ v, Q s none v ∧ scanStep alarm s = v.setPoint .scanLoop) ∨ Q s (some .killed) (scanStep alarm s) := by
  have hP := hQ.toComposes
  have key : ∀ u, Q s none u → scanOpening s = .ok () u → _ := fun u hu ho =>
    scan_cases_of_opening (Followed.refl hQ) ho (hpass alarm u hu)
  have lift : ∀ u, Q s none u → scanOpening s = .ok () u →
      (∃ v r, Q s none v ∧ scanStep alarm s = v.respond r) ∨
      (∃ v, Q s none v ∧ scanStep alarm s = v.setPoint .scanLoop) ∨ Q s (some .killed) (scanStep alarm s) := by
    intro u hu ho
    rcases key u hu ho with ⟨v, r, hv, h⟩ | ⟨v, hv, h⟩ | h
    · exact .inl ⟨v, r, hP.trans hu hv, h⟩
    · exact .inr (.inl ⟨v, hP.trans hu hv, h⟩)
    · exact .inr (.inr (hP.trans hu h))
  rcases scanOpening_cases s with ⟨-, ho⟩ | ⟨-, u, ht, ho⟩ | ⟨-, u, ht, hk⟩
  · exact lift s (hP.refl s) ho
  · exact lift _ (hP.trans (hQ.tick.of_ok ht) (hc u)) ho
  · exact .inr (.inr (by rw [hk]; exact hQ.tick.of_error ht))

/-- Every request, from what a search pass does: a response, SCAN going on, or the reset input. -/
theorem request_cases_of_pass (hQ : ChannelSteps Q) (hT : ∀ s t, Q s (some .timeout) t → Q s none t)
    (hc : ∀ s : State, Q s none s.clear) {i : Instr} {s t : State}
    (hpass : ∀ alarm u, Q s none u → Goes Q u (searchPass alarm u)) (hi : isRequest i = true)
    (h : exec i s = .next t) :
    (∃ v r, Q s none v ∧ t = v.respond r) ∨
      (isScan i = true ∧ ∃ v, Q s none v ∧ t = v.setPoint .scanLoop) ∨ Q s (some .killed) t := by
  by_cases hs : isScan i = true
  · obtain ⟨alarm, rfl⟩ := exec_scan hs h
    rcases scan_cases hQ hc hpass alarm with h | h | h
    · exact .inl h
    · exact .inr (.inl ⟨hs, h⟩)
    · exact .inr (.inr h)
  · have hs' : isScan i = false := by simpa using hs
    rw [exec_eq_finish hi hs' h]
    have hR := Followed.refl hQ
    rcases finish_cases hR hT
      (Goes.request hQ hR hc (fun alarm => hpass alarm s (hQ.refl s)) hi hs') with h | h
    · exact .inl h
    · exact .inr (.inr h)

/-- Every request, for a predicate that every step of a pass keeps. -/
theorem request_cases (hQ : PassSteps Q) (hT : ∀ s t, Q s (some .timeout) t → Q s none t)
    (hc : ∀ s : State, Q s none s.clear) {i : Instr} {s t : State} (hi : isRequest i = true) (h : exec i s = .next t) :
    (∃ v r, Q s none v ∧ t = v.respond r) ∨
      (isScan i = true ∧ ∃ v, Q s none v ∧ t = v.setPoint .scanLoop) ∨ Q s (some .killed) t :=
  request_cases_of_pass hQ.toChannelSteps hT hc (fun alarm u _ => Ends.searchPass hQ hT alarm u) hi h

/-- Every request that keeps `BusState`. -/
theorem keeping_request_cases (hQ : ChannelSteps Q) (hT : ∀ s t, Q s (some .timeout) t → Q s none t) {i : Instr}
    {s t : State} (hk : keepsBusState i = true) (h : exec i s = .next t) :
    (∃ v r, Q s none v ∧ t = v.respond r) ∨ Q s (some .killed) t := by
  have hi : isRequest i = true := by
    cases i <;> first
      | rfl
      | cases hk
  have hs : isScan i = false := by
    cases i <;> first
      | rfl
      | cases hk
  rw [exec_eq_finish hi hs h]
  exact finish_cases (Followed.refl hQ) hT (Ends.commandOf hQ s hk s)

/-- Every row of layers W and S. -/
theorem row_cases (hQ : ChannelSteps Q) (hT : ∀ s t, Q s (some .timeout) t → Q s none t)
    (hslot : ∀ s r, Q s none (s.setSlot r)) {i : Instr} {s t : State} (hi : isRequest i = false)
    (h : exec i s = .next t) : Q s none t ∨ Q s (some .killed) t := by
  rw [exec_eq_part hi] at h
  obtain rfl := Host.Outcome.next.inj h
  have hg : Goes Q s (partOf s i s) := by
    cases hl : i.layer with
    | host => simp [isRequest, hl] at hi
    | pseudo => simp [isRequest, hl] at hi
    | romByte => exact Ends.partOf_romByte hQ s hl s
    | slotSymbol => exact Goes.partOf_slotSymbol hQ hslot s hl
  unfold part
  cases hp : partOf s i s with
  | ok _ u =>
    rw [hp] at hg
    exact .inl hg
  | error e u =>
    rw [hp] at hg
    cases e with
    | timeout => exact .inl (hT _ _ hg)
    | killed => exact .inr hg

end

end Sys2Proof.Machine
end

