-- ==== Sys2Proof/Laws/Commute.lean ====
section
/-! SUPPORT. Updates of the state that a computation neither sees nor disturbs: computing after the update is updating after the
computation. -/

namespace Sys2Proof.Machine

variable {α β : Type}

/-- The update made in the state a computation leaves. -/
def lift (f : State → State) : EStateM.Result Stop State α → EStateM.Result Stop State α
  | .ok a t => .ok a (f t)
  | .error e t => .error e (f t)

/-- `f` neither reads nor writes what the channel's primitives and the others' moves touch. -/
structure OffChannel (f : State → State) : Prop where
  cfg : ∀ s, (f s).cfg = s.cfg
  echoReady : ∀ s, (f s).echoReady = s.echoReady
  echoBuffer : ∀ s, (f s).echoBuffer = s.echoBuffer
  inFlight : ∀ s, (f s).inFlight = s.inFlight
  sim : ∀ s, (f s).sim = s.sim
  draws : ∀ s, (f s).draws = s.draws
  tape : ∀ s, (f s).tape = s.tape
  baud : ∀ s, (f s).baud = s.baud
  deposit : ∀ s v, (f s).deposit v = f (s.deposit v)
  dropEcho : ∀ s, (f s).dropEcho = f s.dropEcho
  emptyFlight : ∀ s, (f s).emptyFlight = f s.emptyFlight
  setTape : ∀ s l, (f s).setTape l = f (s.setTape l)
  draw : ∀ s, (f s).draw = f s.draw
  setBaud : ∀ s r, (f s).setBaud r = f (s.setBaud r)
  sendByte : ∀ s b, (f s).sendByte b = f (s.sendByte b)
  putEcho : ∀ s sb e, (f s).putEcho sb e = f (s.putEcho sb e)
  freeEcho : ∀ s sb, (f s).freeEcho sb = f (s.freeEcho sb)
  consume : ∀ s, (f s).consume = f s.consume
  respond : ∀ s r, (f s).respond r = f (s.respond r)

/-- Hardware reset leaves what `f` writes alone as well, or it does not come. -/
def Spared (f : State → State) (s : State) : Prop := (∀ t : State, (f t).hardReset = f t.hardReset) ∨ s.live

theorem Spared.of_tape {f : State → State} {s t : State} (h : Spared f s) (ht : t.tape = s.tape) : Spared f t :=
  h.imp id fun h => by
    show Move.reset ∉ t.tape
    rw [ht]
    exact h

/-- A state in which the command may go on. -/
def Kept (f : State → State) : EStateM.Result Stop State α → Prop
  | .ok _ t => Spared f t
  | .error .timeout t => Spared f t
  | .error .killed _ => True

/-- The computation does not see `f`. -/
def Commutes (f : State → State) (m : M α) : Prop := ∀ s, Spared f s → m (f s) = lift f (m s) ∧ Kept f (m s)

variable {f : State → State}

theorem Commutes.pure (a : α) : Commutes f (pure a : M α) := fun _ h => ⟨rfl, h⟩

theorem Commutes.raise : Commutes f (raiseTimeout : M α) := fun _ h => ⟨rfl, h⟩

theorem Commutes.bind {m : M α} {g : α → M β} (hm : Commutes f m) (hg : ∀ a, Commutes f (g a)) :
    Commutes f (m >>= g) := by
  intro s hs
  obtain ⟨h1, h2⟩ := hm s hs
  rw [bind_run, bind_run, h1]
  cases h : m s with
  | ok a t =>
    rw [h] at h2
    exact hg a t h2
  | error e t =>
    rw [h] at h2
    cases e
    · exact ⟨rfl, h2⟩
    · exact ⟨rfl, trivial⟩

/-- What is made of a look does not depend on what `f` writes. -/
theorem Commutes.look {g : State → M β} (hf : ∀ s, g (f s) = g s) (hg : ∀ s, Commutes f (g s)) :
    Commutes f (look >>= g) := by
  intro s hs
  rw [look_bind, look_bind, hf]
  exact hg s s hs

theorem Commutes.update {g : State → State} (h : ∀ s, g (f s) = f (g s)) (ht : ∀ s, (g s).tape = s.tape) :
    Commutes f (update g) := by
  intro s hs
  refine ⟨?_, hs.of_tape (ht s)⟩
  rw [update_run, update_run, h]
  rfl

theorem OffChannel.surroundings (hf : OffChannel f) (s : State) : (f s).surroundings = f s.surroundings := by
  have hfold : ∀ (vs : List Byte) (s : State), vs.foldl State.deposit (f s) = f (vs.foldl State.deposit s) := by
    intro vs
    induction vs with
    | nil => intro s; rfl
    | cons v vs ih => intro s; rw [List.foldl_cons, hf.deposit, ih]; rfl
  unfold State.surroundings
  rw [hf.sim, hf.inFlight, hf.draws]
  cases s.sim with
  | some sb => simp only [hfold, hf.emptyFlight]
  | none => cases Config.freeDeposit s.draws <;> simp only [hf.draw, hf.deposit]

theorem OffChannel.depositOldest (hf : OffChannel f) (s : State) : (f s).depositOldest = f s.depositOldest := by
  unfold State.depositOldest
  rw [hf.inFlight]
  cases s.inFlight <;> simp only [hf.dropEcho, hf.deposit]

theorem OffChannel.transmit (hf : OffChannel f) (s : State) (x : Sent) : (f s).transmit x = f (s.transmit x) := by
  unfold State.transmit
  simp only [hf.sendByte, hf.sim, hf.cfg, hf.baud]
  cases (s.sendByte x.byte).sim with
  | none => rfl
  | some sb =>
    dsimp only
    cases sb.answer (s.sendByte x.byte).cfg (s.sendByte x.byte).baud x <;> simp only [hf.putEcho, hf.freeEcho]

theorem OffChannel.playTape (hf : OffChannel f) (l : List Move) (s : State)
    (h : (∀ t : State, (f t).hardReset = f t.hardReset) ∨ Move.reset ∉ l) :
    Machine.playTape l (f s) = lift f (Machine.playTape l s) := by
  induction l generalizing s with
  | nil => simp only [Machine.playTape, hf.setTape, hf.surroundings]; rfl
  | cons m l ih =>
    have h' := h.imp id fun h => fun hm => h (List.mem_cons_of_mem m hm)
    cases m with
    | master => simp only [Machine.playTape, hf.setTape]; rfl
    | deposit v => simp only [Machine.playTape, hf.deposit]; exact ih _ h'
    | echo => simp only [Machine.playTape, hf.depositOldest]; exact ih _ h'
    | lose => simp only [Machine.playTape, hf.dropEcho]; exact ih _ h'
    | reset =>
      rcases h with h | h
      · simp only [Machine.playTape, hf.setTape, h]; rfl
      · exact absurd (List.mem_cons_self ..) h

theorem OffChannel.tick (hf : OffChannel f) : Commutes f tick := by
  intro s hs
  refine ⟨?_, ?_⟩
  · show Machine.playTape (f s).tape (f s) = _
    rw [hf.tape]
    exact hf.playTape _ _ hs
  · cases ht : Machine.tick s with
    | ok a t =>
      refine hs.imp id fun hl => ?_
      obtain ⟨u, hu, _, _, hlive⟩ := tick_of_live hl
      rw [ht] at hu
      cases hu
      exact hlive
    | error e t =>
      cases e
      · exact absurd ht tick_not_timeout
      · trivial

section
variable (hf : OffChannel f)
include hf

theorem Commutes.configureBaud (r : Baud) : Commutes f (configureBaud r) :=
  Commutes.bind hf.tick fun _ => Commutes.update (fun s => hf.setBaud s r) fun _ => rfl

theorem Commutes.poll : Commutes f poll :=
  Commutes.bind hf.tick fun _ => Commutes.look (fun s => by simp only [hf.echoReady, hf.echoBuffer]) fun s => by
    by_cases h : s.echoReady = true
    · simp only [h, if_true]
      exact Commutes.bind (Commutes.update hf.consume fun _ => rfl) fun _ => Commutes.pure _
    · simp only [h]
      exact Commutes.pure _

theorem Commutes.awaitLoop : ∀ k, Commutes f (awaitLoop k)
  | 0 => Commutes.pure _
  | k + 1 => Commutes.bind (Commutes.poll hf) fun
    | some _ => Commutes.pure _
    | none => Commutes.awaitLoop k

theorem Commutes.awaitEcho : Commutes f awaitEcho :=
  Commutes.look (fun s => by rw [hf.cfg]) fun _ => Commutes.awaitLoop hf _

theorem Commutes.xfer (x : Sent) : Commutes f (xfer x) :=
  Commutes.bind hf.tick fun _ => Commutes.bind
    (Commutes.update (fun s => hf.transmit s x) fun s => transmit_tape s x) fun _ => Commutes.awaitEcho hf

theorem Commutes.resetBus : Commutes f resetBus :=
  Commutes.bind (Commutes.configureBaud hf _) fun _ => Commutes.look (fun s => by simp only [hf.cfg]) fun _ =>
    Commutes.bind (Commutes.xfer hf _) fun r => Commutes.bind (Commutes.configureBaud hf _) fun _ => by
      cases r with
      | timedOut => exact Commutes.raise
      | echo v =>
        exact Commutes.bind (Commutes.xfer hf _) fun
          | .timedOut => Commutes.raise
          | .echo _ => Commutes.pure _

theorem Commutes.writeBit (w : Bool) : Commutes f (writeBit w) :=
  Commutes.bind (Commutes.xfer hf _) fun _ => Commutes.pure _

theorem Commutes.readBit : Commutes f readBit :=
  Commutes.bind (Commutes.xfer hf _) fun
    | .timedOut => Commutes.raise
    | .echo _ => Commutes.pure _

theorem Commutes.writeBits : ∀ ws, Commutes f (writeBits ws)
  | [] => Commutes.pure _
  | _ :: ws => Commutes.bind (Commutes.writeBit hf _) fun _ => Commutes.writeBits ws

theorem Commutes.writeByte (c : Byte) : Commutes f (writeByte c) := Commutes.writeBits hf _

theorem Commutes.writeBytes : ∀ cs, Commutes f (writeBytes cs)
  | [] => Commutes.pure _
  | _ :: cs => Commutes.bind (Commutes.writeByte hf _) fun _ => Commutes.writeBytes cs

theorem Commutes.readBits : ∀ n, Commutes f (readBits n)
  | 0 => Commutes.pure _
  | n + 1 => Commutes.bind (Commutes.readBit hf) fun _ => Commutes.bind (Commutes.readBits n) fun _ => Commutes.pure _

theorem Commutes.readByte : Commutes f readByte := Commutes.bind (Commutes.readBits hf _) fun _ => Commutes.pure _

theorem Commutes.readBytes : ∀ n, Commutes f (readBytes n)
  | 0 => Commutes.pure _
  | n + 1 => Commutes.bind (Commutes.readByte hf) fun _ => Commutes.bind (Commutes.readBytes n) fun _ => Commutes.pure _

theorem Commutes.addressed {body : M Response} (h : Commutes f body) : Commutes f (addressed body) :=
  Commutes.bind (Commutes.resetBus hf) fun present => by
    cases present
    · exact Commutes.pure _
    · exact h

/-- The response, after the others' moves. -/
theorem deliver_commutes (r : Response) (s : State) (h : Spared f s) : deliver r (f s) = f (deliver r s) := by
  unfold deliver
  rw [(hf.tick s h).1]
  cases Machine.tick s with
  | ok a t => exact hf.respond t r
  | error e t => rfl

/-- A whole command that does not see `f`. -/
theorem finish_commutes {m : M Response} (hm : Commutes f m) (s : State) (h : Spared f s) :
    finish m (f s) = f (finish m s) := by
  obtain ⟨h1, h2⟩ := hm s h
  unfold finish
  rw [h1]
  cases hr : m s with
  | ok r t =>
    rw [hr] at h2
    exact deliver_commutes hf r t h2
  | error e t =>
    rw [hr] at h2
    cases e with
    | timeout => exact deliver_commutes hf _ t h2
    | killed => rfl

end

end Sys2Proof.Machine
end

