-- ==== Sys2Proof/Laws/Draws.lean ====
section
/-! SUPPORT. The channel primitives when the tape says how each wait goes (Safety.lean, `Draw`): one lemma a primitive. -/

namespace Sys2Proof.Machine

theorem poll_master {s : State} {l : List Move} (h : s.tape = .master :: l) (hr : s.echoReady = false) :
    poll s = .ok none (s.setTape l) := by
  unfold poll
  rw [bind_run_ok (tick_master h), look_bind]
  simp [hr]

theorem poll_deposit {s : State} {l : List Move} {v : Byte} (h : s.tape = .deposit v :: .master :: l) :
    poll s = .ok (some v) ((s.deposit v).setTape l).consume := by
  unfold poll
  have ht : tick s = .ok () ((s.deposit v).setTape l) := by simp [tick, h, playTape]
  rw [bind_run_ok ht, look_bind]
  simp

theorem awaitLoop_none (k n : Nat) (s : State) (l : List Move)
    (h : s.tape = List.replicate k .master ++ l) (hr : s.echoReady = false) :
    awaitLoop (k + n) s = awaitLoop n (s.setTape l) := by
  induction k generalizing s with
  | zero =>
    have : s.setTape l = s := by
      simp only [List.replicate_zero, List.nil_append] at h
      subst h
      rfl
    rw [Nat.zero_add, this]
  | succ k ih =>
    have hk : k + 1 + n = (k + n) + 1 := by omega
    rw [hk]
    rw [List.replicate_succ, List.cons_append] at h
    conv_lhs => unfold awaitLoop
    rw [bind_run_ok (poll_master h hr)]
    exact ih (s.setTape _) rfl hr

/-- A wait of which the tape says that `k` polls find nothing and that `v` comes then. -/
theorem awaitEcho_echo {s : State} {k : Nat} {v : Byte} {l : List Move} (hk : k < s.cfg.readTimeout)
    (h : s.tape = List.replicate k .master ++ .deposit v :: .master :: l) (hr : s.echoReady = false) :
    awaitEcho s = .ok (.echo v) ((s.deposit v).setTape l).consume := by
  have hT : s.cfg.readTimeout = k + ((s.cfg.readTimeout - k - 1) + 1) := by omega
  unfold awaitEcho
  rw [look_bind, hT, awaitLoop_none k _ s _ h hr]
  unfold awaitLoop
  rw [bind_run_ok (poll_deposit (l := l) (v := v) (by simp))]
  rfl

/-- A wait of which the tape says that every poll finds nothing: the mailbox is left as it is. -/
theorem awaitEcho_expired {s : State} {l : List Move}
    (h : s.tape = List.replicate s.cfg.readTimeout .master ++ l) (hr : s.echoReady = false) :
    awaitEcho s = .ok .timedOut (s.setTape l) := by
  unfold awaitEcho
  rw [look_bind]
  exact awaitLoop_none s.cfg.readTimeout 0 s l h hr

@[simp] theorem transmit_echoReady (s : State) (x : Sent) : (s.transmit x).echoReady = false := by
  unfold State.transmit
  dsimp only
  split
  · simp
  · split <;> simp

@[simp] theorem transmit_echoBuffer (s : State) (x : Sent) : (s.transmit x).echoBuffer = s.echoBuffer := by
  unfold State.transmit
  dsimp only
  split
  · simp
  · split <;> simp

@[simp] theorem transmit_trace (s : State) (x : Sent) : (s.transmit x).trace = .tx x.byte :: s.trace := by
  unfold State.transmit
  dsimp only
  split
  · simp
  · split <;> simp

@[simp] theorem transmit_cfg (s : State) (x : Sent) : (s.transmit x).cfg = s.cfg := (same_transmit s x).cfg

@[simp] theorem transmit_baud (s : State) (x : Sent) : (s.transmit x).baud = s.baud := by
  unfold State.transmit
  dsimp only
  split
  · simp
  · split <;> simp

/-- One transmit and its wait, as the tape decides. -/
theorem xfer_draw {s : State} {d : Draw} {rest : List Move} (x : Sent) (hd : d.admits s.cfg.readTimeout)
    (h : s.tape = d.moves s.cfg.readTimeout ++ rest) :
    ∃ t, xfer x s = .ok d.wait t ∧ Drawn s rest (d.events x.byte s.trace) s.baud t := by
  have hx : ∀ l, s.tape = .master :: l → xfer x s = awaitEcho ((s.setTape l).transmit x) := by
    intro l hl
    unfold xfer
    rw [bind_run_ok (tick_master hl), update_bind]
  cases d with
  | echo k v =>
    simp only [Draw.moves, List.cons_append, List.append_assoc, List.nil_append] at h
    have ha := awaitEcho_echo (s := (s.setTape (List.replicate k .master ++ .deposit v :: .master :: rest)).transmit x)
      (k := k) (v := v) (l := rest) (by simpa [Draw.admits] using hd) (by simp) (by simp)
    exact ⟨_, (hx _ h).trans ha, (same_setTape s _).trans ((same_transmit _ x).trans ((same_deposit _ v).trans
      ((same_setTape _ rest).trans (same_consume _)))), by simp, by simp, by simp [Draw.events], by simp⟩
  | expired =>
    simp only [Draw.moves, List.cons_append] at h
    have ha := awaitEcho_expired (s := (s.setTape (List.replicate s.cfg.readTimeout .master ++ rest)).transmit x)
      (l := rest) (by simp) (by simp)
    exact ⟨_, (hx _ h).trans ha, (same_setTape s _).trans ((same_transmit _ x).trans (same_setTape _ rest)), by simp, by simp,
      by simp [Draw.events], by simp⟩

theorem Drawn.trans {s t u : State} {r1 r2 : List Move} {tr1 tr2 : List Action} {b1 b2 : Option Baud}
    (h1 : Drawn s r1 tr1 b1 t) (h2 : Drawn t r2 tr2 b2 u) : Drawn s r2 tr2 b2 u :=
  ⟨h1.same.trans h2.same, h2.baud, h2.tape, h2.trace, h2.ready⟩

/-- One write slot: the result of the wait does not matter. -/
theorem writeBit_draw {s : State} {d : Draw} {rest : List Move} (w : Bool) (hd : d.admits s.cfg.readTimeout)
    (h : s.tape = d.moves s.cfg.readTimeout ++ rest) :
    ∃ t, writeBit w s = .ok () t ∧ Drawn s rest (d.events (slotByte w) s.trace) s.baud t := by
  obtain ⟨t, ht, hD⟩ := xfer_draw (.write w) hd h
  exact ⟨t, by unfold writeBit; rw [bind_run_ok ht]; rfl, hD⟩

/-- Write slots in a row. -/
theorem writeBits_draws (ws : List Bool) (ds : List Draw) (s : State) (rest : List Move)
    (hl : ds.length = ws.length) (hd : ∀ d ∈ ds, d.admits s.cfg.readTimeout)
    (h : s.tape = drawMoves s.cfg.readTimeout ds ++ rest) (hr : ws = [] → s.echoReady = false) :
    ∃ t, writeBits ws s = .ok () t ∧
      Drawn s rest (writeEvents ws ds s.trace) s.baud t := by
  induction ws generalizing ds s with
  | nil =>
    obtain rfl : ds = [] := by simpa using hl
    exact ⟨s, rfl, Same.refl s, rfl, by simpa [drawMoves] using h, rfl, hr rfl⟩
  | cons w ws ih =>
    cases ds with
    | nil => simp at hl
    | cons d ds =>
      simp only [drawMoves, List.flatMap_cons, List.append_assoc] at h
      obtain ⟨t, ht, hD⟩ := writeBit_draw w (hd d (by simp)) h
      have hc := hD.same.cfg
      obtain ⟨u, hu, hU⟩ := ih ds t (by simpa using hl) (fun e he => by rw [hc]; exact hd e (by simp [he]))
        (by rw [hc]; exact hD.tape) (fun _ => hD.ready)
      refine ⟨u, ?_, ?_⟩
      · unfold writeBits
        rw [bind_run_ok ht, hu]
      · have := hD.trans hU
        rw [hD.trace, hD.baud] at this
        exact this

/-- `WriteByte` in eight decided waits. -/
theorem writeByte_draws (c : Byte) (ds : List Draw) (s : State) (rest : List Move)
    (hl : ds.length = 8) (hd : ∀ d ∈ ds, d.admits s.cfg.readTimeout)
    (h : s.tape = drawMoves s.cfg.readTimeout ds ++ rest) :
    ∃ t, writeByte c s = .ok () t ∧
      Drawn s rest (writeEvents (bitsOfByte c) ds s.trace) s.baud t :=
  writeBits_draws _ ds s rest (by simpa [bitsOfByte] using hl) hd h (by simp [bitsOfByte, List.range_succ])

/-- One read slot whose echo comes. -/
theorem readBit_draw {s : State} {k : Nat} {v : Byte} {rest : List Move} (hk : k < s.cfg.readTimeout)
    (h : s.tape = (Draw.echo k v).moves s.cfg.readTimeout ++ rest) :
    ∃ t, readBit s = .ok (v == 0xFF) t ∧ Drawn s rest ((Draw.echo k v).events 0xFF s.trace) s.baud t := by
  obtain ⟨t, ht, hD⟩ := xfer_draw (d := .echo k v) .read hk h
  exact ⟨t, by unfold readBit; rw [bind_run_ok ht]; rfl, hD⟩

/-- One read slot whose wait expires. -/
theorem readBit_expired {s : State} {rest : List Move}
    (h : s.tape = Draw.expired.moves s.cfg.readTimeout ++ rest) :
    ∃ t, readBit s = .error .timeout t ∧ Drawn s rest (Draw.expired.events 0xFF s.trace) s.baud t := by
  obtain ⟨t, ht, hD⟩ := xfer_draw (d := .expired) .read trivial h
  exact ⟨t, by unfold readBit; rw [bind_run_ok ht]; rfl, hD⟩

/-- The bus reset, as the tape decides its two waits. -/
theorem resetBus_draws {s : State} {d1 d2 : Draw} {rest : List Move} (h1 : d1.admits s.cfg.readTimeout)
    (h2 : d2.admits s.cfg.readTimeout) (h : s.tape = resetMoves s.cfg.readTimeout d1 d2 ++ rest) :
    ∃ t, resetBus s = (match resetResult s.cfg d1 d2 with
        | some p => .ok p t
        | none => .error .timeout t) ∧
      Drawn s rest (resetEvents s.cfg d1 d2 s.trace) (some .slot) t := by
  simp only [resetMoves, List.cons_append, List.append_assoc] at h
  have hc : ∀ (r : Baud) (u : State) (l : List Move), u.tape = .master :: l →
      configureBaud r u = .ok () ((u.setTape l).setBaud r) := by
    intro r u l hu
    unfold configureBaud
    rw [bind_run_ok (tick_master hu), update_run]
  cases d1 with
  | expired =>
    obtain ⟨t, ht, hD⟩ := xfer_draw (s := (s.setTape (Draw.expired.moves s.cfg.readTimeout ++ .master :: rest)).setBaud .reset)
      (d := .expired) (rest := .master :: rest) (.other s.cfg.resetByte) trivial (by simp)
    refine ⟨(t.setTape rest).setBaud .slot, ?_, (same_setTape s _).trans ((same_setBaud _ _).trans (hD.same.trans
      ((same_setTape _ _).trans (same_setBaud _ _)))), by simp, by simp, by simp [resetEvents, hD.trace], by simpa using hD.ready⟩
    unfold resetBus
    rw [bind_run_ok (hc .reset s _ h), look_bind]
    simp only [State.setBaud_cfg, State.setTape_cfg, List.nil_append]
    rw [bind_run_ok ht, bind_run_ok (hc .slot t _ hD.tape)]
    rfl
  | echo k1 v1 =>
    obtain ⟨t, ht, hD⟩ := xfer_draw (s := (s.setTape ((Draw.echo k1 v1).moves s.cfg.readTimeout ++
        .master :: (d2.moves s.cfg.readTimeout ++ rest))).setBaud .reset)
      (d := .echo k1 v1) (rest := .master :: (d2.moves s.cfg.readTimeout ++ rest)) (.other s.cfg.resetByte) h1 (by simp)
    have hct : t.cfg = s.cfg := hD.same.cfg
    obtain ⟨u, hu, hU⟩ := xfer_draw (s := (t.setTape (d2.moves s.cfg.readTimeout ++ rest)).setBaud .slot) (d := d2)
      (rest := rest) (.other s.cfg.probeByte) (by simpa [hct] using h2) (by simp [hct])
    refine ⟨u, ?_, (same_setTape s _).trans ((same_setBaud _ _).trans (hD.same.trans ((same_setTape _ _).trans
        ((same_setBaud _ _).trans hU.same)))), by simpa using hU.baud, hU.tape, ?_, hU.ready⟩
    · unfold resetBus
      rw [bind_run_ok (hc .reset s _ h), look_bind]
      simp only [State.setBaud_cfg, State.setTape_cfg]
      rw [bind_run_ok ht, bind_run_ok (hc .slot t _ hD.tape)]
      simp only [Draw.wait]
      rw [bind_run_ok hu]
      cases d2 <;> rfl
    · rw [hU.trace]
      simp [resetEvents, hD.trace]

/-! ### Bytes as bits -/

theorem writeBits_append (as bs : List Bool) (s : State) :
    writeBits (as ++ bs) s = (writeBits as >>= fun _ => writeBits bs) s := by
  induction as generalizing s with
  | nil => rfl
  | cons a as ih =>
    simp only [List.cons_append, writeBits]
    rw [bind_run, bind_run, bind_run]
    cases writeBit a s with
    | ok x t => exact (ih t).trans (bind_run _ _ t)
    | error e t => rfl

/-- Bytes written are their bits written. -/
theorem writeBytes_eq (cs : List Byte) (s : State) : writeBytes cs s = writeBits (cs.flatMap bitsOfByte) s := by
  induction cs generalizing s with
  | nil => rfl
  | cons c cs ih =>
    rw [List.flatMap_cons, writeBits_append]
    simp only [writeBytes, writeByte]
    rw [bind_run, bind_run]
    cases writeBits (bitsOfByte c) s with
    | ok x t => exact ih t
    | error e t => rfl

/-- The bytes whose bits came in order. -/
def bytesOfBits : Nat → List Bool → List Byte
  | 0, _ => []
  | n + 1, bs => byteOfBits (bs.take 8) :: bytesOfBits n (bs.drop 8)

theorem readBits_add (m n : Nat) (s : State) :
    readBits (m + n) s = (readBits m >>= fun as => readBits n >>= fun bs => pure (as ++ bs)) s := by
  induction m generalizing s with
  | zero =>
    rw [Nat.zero_add, bind_run]
    show _ = (readBits n >>= fun bs => pure ([] ++ bs)) s
    rw [bind_run]
    cases readBits n s <;> rfl
  | succ m ih =>
    rw [Nat.succ_add]
    simp only [readBits]
    rw [bind_run, bind_run, bind_run]
    cases readBit s with
    | error e t => rfl
    | ok b t =>
      simp only
      rw [bind_run, ih t, bind_run, bind_run]
      cases readBits m t with
      | error e u => rfl
      | ok bs u =>
        simp only [pure_run]
        rw [bind_run, bind_run]
        cases readBits n u <;> rfl

theorem length_of_readBits (n : Nat) (s t : State) (bs : List Bool) (h : readBits n s = .ok bs t) : bs.length = n := by
  induction n generalizing s t bs with
  | zero =>
    obtain ⟨rfl, rfl⟩ : [] = bs ∧ s = t := by simpa [readBits] using h
    rfl
  | succ n ih =>
    simp only [readBits] at h
    obtain ⟨b, u, -, h⟩ := bind_eq_ok.mp h
    obtain ⟨cs, v, hc, h⟩ := bind_eq_ok.mp h
    obtain ⟨rfl, rfl⟩ : b :: cs = bs ∧ v = t := by simpa using h
    simp [ih u v cs hc]

/-- Bytes read are their bits read. -/
theorem readBytes_eq (n : Nat) (s : State) :
    readBytes n s = (readBits (8 * n) >>= fun bs => pure (bytesOfBits n bs)) s := by
  induction n generalizing s with
  | zero => rfl
  | succ n ih =>
    have h8 : 8 * (n + 1) = 8 + 8 * n := by omega
    simp only [readBytes, readByte]
    rw [h8, bind_run, bind_run, bind_run, readBits_add, bind_run]
    cases h : readBits 8 s with
    | error e t => rfl
    | ok bs t =>
      have hl := length_of_readBits 8 s t bs h
      simp only [pure_run]
      rw [bind_run, ih t, bind_run, bind_run]
      cases readBits (8 * n) t with
      | error e u => rfl
      | ok cs u =>
        simp only [pure_run, bytesOfBits]
        rw [← hl, List.take_left, List.drop_left]

theorem getD_bytesOfBits (n : Nat) (bs : List Bool) (j : Nat) (hj : j < n) :
    (bytesOfBits n bs).getD j 0 = byteOfBits ((bs.drop (8 * j)).take 8) := by
  induction n generalizing bs j with
  | zero => omega
  | succ n ih =>
    cases j with
    | zero => simp [bytesOfBits]
    | succ j =>
      have h := ih (bs.drop 8) j (by omega)
      rw [List.drop_drop] at h
      rw [bytesOfBits, List.getD_cons_succ, h, show 8 + 8 * j = 8 * (j + 1) by omega]

/-- The code whose 64 bits came in order. -/
theorem getLsbD_romOfBytes_bytesOfBits (bs : List Bool) (p : Nat) (hp : p < 64) :
    (romOfBytes (bytesOfBits 8 bs)).getLsbD p = bs.getD p false := by
  rw [getLsbD_romOfBytes _ _ hp, getD_bytesOfBits _ _ _ (by omega), getLsbD_byteOfBits _ _ (Nat.mod_lt _ (by omega))]
  simp only [List.getD_eq_getElem?_getD]
  rw [List.getElem?_take_of_lt (Nat.mod_lt _ (by omega)), List.getElem?_drop, show 8 * (p / 8) + p % 8 = p by omega]

/-! ### Reads in a row -/

/-- Read slots whose echoes all come. -/
theorem readBits_draws (kv : List (Nat × Byte)) (s : State) (rest : List Move)
    (hk : ∀ x ∈ kv, x.1 < s.cfg.readTimeout) (h : s.tape = drawMoves s.cfg.readTimeout (echoDraws kv) ++ rest)
    (hr : kv = [] → s.echoReady = false) :
    ∃ t, readBits kv.length s = .ok (kv.map fun x => x.2 == 0xFF) t ∧
      Drawn s rest (readEvents (echoDraws kv) s.trace) s.baud t := by
  induction kv generalizing s with
  | nil => exact ⟨s, rfl, Same.refl s, rfl, by simpa [drawMoves, echoDraws] using h, rfl, hr rfl⟩
  | cons x kv ih =>
    simp only [echoDraws, List.map_cons, drawMoves, List.flatMap_cons, List.append_assoc] at h
    obtain ⟨t, ht, hD⟩ := readBit_draw (hk x (by simp)) h
    have hc := hD.same.cfg
    obtain ⟨u, hu, hU⟩ := ih t (fun y hy => by rw [hc]; exact hk y (by simp [hy])) (by rw [hc]; exact hD.tape) (fun _ => hD.ready)
    refine ⟨u, ?_, ?_⟩
    · simp only [List.length_cons, readBits]
      rw [bind_run_ok ht, bind_run_ok hu]
      rfl
    · have := hD.trans hU
      rw [hD.trace, hD.baud] at this
      exact this

/-- Read slots of which the echo of one does not come. -/
theorem readBits_expired (kv : List (Nat × Byte)) (n : Nat) (s : State) (rest : List Move) (hn : kv.length < n)
    (hk : ∀ x ∈ kv, x.1 < s.cfg.readTimeout)
    (h : s.tape = drawMoves s.cfg.readTimeout (echoDraws kv ++ [.expired]) ++ rest) :
    ∃ t, readBits n s = .error .timeout t ∧
      Drawn s rest (readEvents (echoDraws kv ++ [.expired]) s.trace) s.baud t := by
  induction kv generalizing s n with
  | nil =>
    obtain ⟨n, rfl⟩ : ∃ m, n = m + 1 := ⟨n - 1, by simp at hn; omega⟩
    simp only [echoDraws, List.map_nil, List.nil_append, drawMoves, List.flatMap_cons, List.flatMap_nil,
      List.append_nil] at h
    obtain ⟨t, ht, hD⟩ := readBit_expired h
    exact ⟨t, by simp only [readBits]; rw [bind_run_error ht], hD⟩
  | cons x kv ih =>
    obtain ⟨n, rfl⟩ : ∃ m, n = m + 1 := ⟨n - 1, by simp at hn; omega⟩
    simp only [echoDraws, List.map_cons, drawMoves, List.cons_append, List.flatMap_cons, List.append_assoc] at h
    obtain ⟨t, ht, hD⟩ := readBit_draw (hk x (by simp)) h
    have hc := hD.same.cfg
    obtain ⟨u, hu, hU⟩ := ih n t (by simpa using hn) (fun y hy => by rw [hc]; exact hk y (by simp [hy]))
      (by rw [hc]; exact hD.tape)
    refine ⟨u, ?_, ?_⟩
    · simp only [readBits]
      rw [bind_run_ok ht, bind_run_error hu]
    · have := hD.trans hU
      rw [hD.trace, hD.baud] at this
      exact this

/-! ### The response -/

/-- The response after channel events the tape decided. -/
theorem answered_of_drawn {s t : State} {rest : List Move} {tr : List Action} {b : Option Baud} (r : Response)
    (h : Drawn s (.master :: rest) tr b t) : Answered s rest tr b r (deliver r t) := by
  have hd : deliver r t = (t.setTape rest).respond r := by simp [deliver, tick_master h.tape]
  rw [hd]
  have hs := h.same
  exact {
    same := ⟨hs.cfg, hs.lastDiscrepancy, hs.lastFamilyDiscrepancy, hs.lastDeviceFlag, hs.hasMoreDevices, hs.deviceCount,
      hs.store, hs.req, hs.pending⟩
    slot := hs.slot
    idle := rfl
    baud := h.baud
    tape := rfl
    trace := by simp [h.trace]
    ready := h.ready }

/-- The response when the tape lets the master answer next. -/
theorem deliver_master {s : State} {rest : List Move} (r : Response) (h : s.tape = .master :: rest) :
    deliver r s = (s.setTape rest).respond r := by
  simp [deliver, tick_master h]

/-! ### How a command ends, by how its computation ends -/

theorem finish_ok {m : M Response} {s t : State} {r : Response} (h : m s = .ok r t) : finish m s = deliver r t := by
  simp [finish, h]

theorem finish_timeout {m : M Response} {s t : State} (h : m s = .error .timeout t) :
    finish m s = deliver timeoutResponse t := by
  simp [finish, h]

theorem finish_killed {m : M Response} {s t : State} (h : m s = .error .killed t) : finish m s = t := by
  simp [finish, h]

end Sys2Proof.Machine
end

