-- ==== Sys2Proof/Laws/Encoding.lean ====
section
/-! SUPPORT. Request and response words bit by bit, and words as bytes. -/

namespace Sys2Proof

/-- The bits of a word made of a code, a byte and a byte. -/
theorem getLsbD_fields (rom : Rom) (b a : Byte) (i : Nat) :
    BitVec.getLsbD (w := 80) (rom ++ b ++ a) i =
      if i < 8 then a.getLsbD i else if i < 16 then b.getLsbD (i - 8) else rom.getLsbD (i - 16) := by
  have h1 := BitVec.getLsbD_append (x := rom ++ b) (y := a) (i := i)
  have h2 := BitVec.getLsbD_append (x := rom) (y := b) (i := i - 8)
  refine h1.trans ?_
  rw [h2]
  by_cases h8 : i < 8
  · simp [h8]
  · by_cases h16 : i < 16
    · have : i - 8 < 8 := by omega
      simp [h8, h16, this]
    · have h3 : ¬ i - 8 < 8 := by omega
      have h4 : i - 8 - 8 = i - 16 := by omega
      simp [h8, h16, h3, h4]

theorem getLsbD_reqWord (op arg : Byte) (rom : Rom) (i : Nat) :
    (reqWord op arg rom).getLsbD i =
      if i < 8 then op.getLsbD i else if i < 16 then arg.getLsbD (i - 8) else rom.getLsbD (i - 16) :=
  getLsbD_fields rom arg op i

theorem reqOp_reqWord (op arg : Byte) (rom : Rom) : reqOp (reqWord op arg rom) = op := by
  apply BitVec.eq_of_getLsbD_eq
  intro i hi
  rw [reqOp, BitVec.getLsbD_extractLsb', getLsbD_reqWord, Nat.zero_add]
  simp [hi]

theorem reqArg_reqWord (op arg : Byte) (rom : Rom) : reqArg (reqWord op arg rom) = arg := by
  apply BitVec.eq_of_getLsbD_eq
  intro i hi
  have h1 : ¬ 8 + i < 8 := by omega
  have h2 : 8 + i < 16 := by omega
  rw [reqArg, BitVec.getLsbD_extractLsb', getLsbD_reqWord, if_neg h1, if_pos h2, Nat.add_sub_cancel_left]
  simp [hi]

theorem reqRom_reqWord (op arg : Byte) (rom : Rom) : reqRom (reqWord op arg rom) = rom := by
  apply BitVec.eq_of_getLsbD_eq
  intro i hi
  have h1 : ¬ 16 + i < 8 := by omega
  have h2 : ¬ 16 + i < 16 := by omega
  rw [reqRom, BitVec.getLsbD_extractLsb', getLsbD_reqWord, if_neg h1, if_neg h2, Nat.add_sub_cancel_left]
  simp [hi]

theorem reqWord_fields (w : HostWord) : reqWord (reqOp w) (reqArg w) (reqRom w) = w := by
  apply BitVec.eq_of_getLsbD_eq
  intro i hi
  rw [getLsbD_reqWord, reqOp, reqArg, reqRom]
  simp only [BitVec.getLsbD_extractLsb']
  split
  · simp [*]
  · split
    · have h1 : 8 + (i - 8) = i := by omega
      have h2 : i - 8 < 8 := by omega
      simp [h1, h2]
    · have h1 : 16 + (i - 16) = i := by omega
      have h2 : i - 16 < 64 := by omega
      simp [h1, h2]

theorem getLsbD_wordOfBytes (bs : List Byte) (i : Nat) (hi : i < 80) :
    (wordOfBytes bs).getLsbD i = (bs.getD (i / 8) 0).getLsbD (i % 8) := by
  induction bs generalizing i with
  | nil => simp [wordOfBytes]
  | cons b bs ih =>
    rw [wordOfBytes, BitVec.getLsbD_or, BitVec.getLsbD_shiftLeft, BitVec.getLsbD_setWidth]
    by_cases h8 : i < 8
    · have h1 : i / 8 = 0 := by omega
      have h2 : i % 8 = i := by omega
      simp [h8, hi, h1, h2]
    · have h1 : i / 8 = (i - 8) / 8 + 1 := by omega
      have h2 : i % 8 = (i - 8) % 8 := by omega
      have hb : b.getLsbD i = false := BitVec.getLsbD_of_ge b i (by omega)
      rw [h1, h2, List.getD_cons_succ, ← ih (i - 8) (by omega)]
      simp [h8, hi, hb]

/-- A word laid out in bytes is read back. -/
theorem wordOfBytes_tableBytes (w : HostWord) : wordOfBytes (tableBytes 80 w.toNat) = w := by
  apply BitVec.eq_of_getLsbD_eq
  intro i hi
  rw [getLsbD_wordOfBytes _ _ hi]
  have h10 : i / 8 < 10 := by omega
  have hm := Nat.mod_lt i (show 0 < 8 by omega)
  have hj : (tableBytes 80 w.toNat).getD (i / 8) 0 = BitVec.ofNat 8 ((w.toNat % 2 ^ 80) >>> (8 * (i / 8))) := by
    simp [tableBytes, List.getD_eq_getElem?_getD, h10]
  rw [hj, Nat.mod_eq_of_lt w.isLt, BitVec.getLsbD_ofNat, Nat.testBit_shiftRight,
    show 8 * (i / 8) + i % 8 = i by omega]
  simp [hm, BitVec.testBit_toNat]

theorem length_tableBytes_80 (w : Nat) : (tableBytes 80 w).length = 10 := by simp [tableBytes]

/-- The decoder on a word of 80 bits given as a number. -/
theorem decodeTableWord_80 (w : HostWord) : decodeTableWord 80 w.toNat = some (decode w) := by
  simp [decodeTableWord, decodeBytes, length_tableBytes_80, wordOfBytes_tableBytes]

end Sys2Proof
end

