-- ==== Sys2Proof/Laws/Order.lean ====
section
/-! SUPPORT. The order of enumeration (spec/42_rom_search.md R175): what the master reads where it follows the code of a device that
takes part, and which position it leaves open. -/

namespace Sys2Proof.Machine

/-! ### The order of codes -/

theorem codeBefore_irrefl (a : Rom) : ¬ codeBefore a a := fun ⟨p, _, _, h1, h2⟩ => by
  rw [h1] at h2
  cases h2

theorem codeBefore_asymm {a b : Rom} (h : codeBefore a b) : ¬ codeBefore b a := by
  obtain ⟨p, hp, h1, h2, h3⟩ := h
  rintro ⟨q, hq, g1, g2, g3⟩
  rcases Nat.lt_trichotomy p q with h | h | h
  · have := g1 p h
    rw [h2, h3] at this
    cases this
  · subst h
    rw [h2] at g3
    cases g3
  · have := h1 q h
    rw [g2, g3] at this
    cases this

theorem codeBefore_trans {a b c : Rom} (h : codeBefore a b) (g : codeBefore b c) : codeBefore a c := by
  obtain ⟨p, hp, h1, h2, h3⟩ := h
  obtain ⟨q, hq, g1, g2, g3⟩ := g
  rcases Nat.lt_trichotomy p q with h | h | h
  · exact ⟨p, hp, fun x hx => (h1 x hx).trans (g1 x (by omega)), h2, by rw [← g1 p h]; exact h3⟩
  · subst h
    rw [h3] at g2
    cases g2
  · exact ⟨q, hq, fun x hx => (h1 x (by omega)).trans (g1 x hx), by rw [h1 q h]; exact g2, g3⟩

/-! ### What is read -/

theorem agrees_iff (d : Device) (r : Rom) (p : Nat) :
    d.agrees r p = true ↔ ∀ q < p, d.rom.getLsbD q = r.getLsbD q := by
  unfold Device.agrees
  rw [List.all_eq_true]
  constructor
  · intro h q hq
    simpa [Device.bit] using h q (List.mem_range.mpr hq)
  · intro h q hq
    simpa [Device.bit] using h q (List.mem_range.mp hq)

theorem mem_remaining (P : List Device) (r : Rom) (p : Nat) (d : Device) :
    d ∈ remaining P r p ↔ d ∈ P ∧ ∀ q < p, d.rom.getLsbD q = r.getLsbD q := by
  unfold remaining
  rw [List.mem_filter, agrees_iff]

theorem remaining_zero (P : List Device) (r : Rom) : remaining P r 0 = P := by simp [remaining, Device.agrees]

/-- What is read at `p` depends on the branches before `p` only. -/
theorem simReads_congr {P : List Device} {a b : Rom} {p : Nat} (h : ∀ q < p, a.getLsbD q = b.getLsbD q) :
    simReads P a p = simReads P b p := by
  have hr : remaining P a p = remaining P b p := by
    unfold remaining
    congr 1
    funext d
    rw [Bool.eq_iff_iff, agrees_iff, agrees_iff]
    exact ⟨fun g q hq => (g q hq).trans (h q hq), fun g q hq => (g q hq).trans (h q hq).symm⟩
  unfold simReads
  rw [hr]

/-- Where the branches are the code of a device that takes part: its bit and the complement where all that remain agree, 0 and 0
where one disagrees. -/
theorem simReads_of_mem {P : List Device} {r : Rom} (hr : ∃ d ∈ P, d.rom = r) (p : Nat) :
    (simReads P r p = (r.getLsbD p, !r.getLsbD p) ∧
      ∀ d ∈ P, (∀ q < p, d.rom.getLsbD q = r.getLsbD q) → d.rom.getLsbD p = r.getLsbD p) ∨
    (simReads P r p = (false, false) ∧
      ∃ d ∈ P, (∀ q < p, d.rom.getLsbD q = r.getLsbD q) ∧ d.rom.getLsbD p = !r.getLsbD p) := by
  obtain ⟨d0, hd0, rfl⟩ := hr
  have m0 : d0 ∈ remaining P d0.rom p := (mem_remaining _ _ _ _).mpr ⟨hd0, fun _ _ => rfl⟩
  by_cases h : ∃ d ∈ P, (∀ q < p, d.rom.getLsbD q = d0.rom.getLsbD q) ∧ d.rom.getLsbD p = !d0.rom.getLsbD p
  · right
    refine ⟨?_, h⟩
    obtain ⟨d, hd, hag, hb⟩ := h
    have m1 : d ∈ remaining P d0.rom p := (mem_remaining _ _ _ _).mpr ⟨hd, hag⟩
    have key : ∀ f : Device → Bool, (∃ d ∈ remaining P d0.rom p, f d = false) → (remaining P d0.rom p).all f = false := by
      intro f ⟨d, hd, hf⟩
      rw [List.all_eq_false]
      exact ⟨d, hd, by simp [hf]⟩
    unfold simReads
    refine Prod.ext (key _ ?_) (key _ ?_)
    · cases hbit : d0.rom.getLsbD p
      · exact ⟨d0, m0, hbit⟩
      · exact ⟨d, m1, by rw [Device.bit, hb, hbit]; rfl⟩
    · cases hbit : d0.rom.getLsbD p
      · exact ⟨d, m1, by rw [Device.bit, hb, hbit]; rfl⟩
      · exact ⟨d0, m0, by rw [Device.bit, hbit]; rfl⟩
  · left
    have hall : ∀ d ∈ P, (∀ q < p, d.rom.getLsbD q = d0.rom.getLsbD q) → d.rom.getLsbD p = d0.rom.getLsbD p := by
      intro d hd hag
      by_contra hne
      refine h ⟨d, hd, hag, ?_⟩
      revert hne
      cases d.rom.getLsbD p <;> cases d0.rom.getLsbD p <;> simp
    refine ⟨?_, hall⟩
    have hbits : ∀ d ∈ remaining P d0.rom p, d.bit p = d0.rom.getLsbD p := fun d hd => by
      obtain ⟨h1, h2⟩ := (mem_remaining _ _ _ _).mp hd
      exact hall d h1 h2
    unfold simReads
    refine Prod.ext ?_ ?_
    · rw [Bool.eq_iff_iff, List.all_eq_true]
      exact ⟨fun h => h d0 m0, fun h d hd => by rw [hbits d hd]; exact h⟩
    · rw [Bool.eq_iff_iff, List.all_eq_true]
      exact ⟨fun h => h d0 m0, fun h d hd => by rw [hbits d hd]; exact h⟩

/-! ### The open position -/

/-- `lastOpen` is 0 and no position is open, or it is one more than the highest open position. -/
theorem lastOpen_spec (r : Rom) (as : Nat → Bool × Bool) (k : Nat) :
    (lastOpen r as k = 0 ∧ ∀ p < k, ¬ (as p = (false, false) ∧ r.getLsbD p = false)) ∨
    (∃ p < k, lastOpen r as k = p + 1 ∧ (as p = (false, false) ∧ r.getLsbD p = false) ∧
      ∀ q, p < q → q < k → ¬ (as q = (false, false) ∧ r.getLsbD q = false)) := by
  induction k with
  | zero => exact .inl ⟨rfl, fun p hp => absurd hp (Nat.not_lt_zero _)⟩
  | succ k ih =>
    unfold lastOpen
    by_cases h : as k = (false, false) ∧ r.getLsbD k = false
    · right
      rw [if_pos h]
      exact ⟨k, by omega, rfl, h, fun q h1 h2 => by omega⟩
    · rw [if_neg h]
      have hk : ∀ q, q < k + 1 → (q < k → ¬ (as q = (false, false) ∧ r.getLsbD q = false)) →
          ¬ (as q = (false, false) ∧ r.getLsbD q = false) := by
        intro q hq hlt
        by_cases hqk : q = k
        · rw [hqk]
          exact h
        · exact hlt (by omega)
      rcases ih with ⟨h0, hn⟩ | ⟨p, hp, h1, h2, h3⟩
      · exact .inl ⟨h0, fun p hp => hk p hp (hn p)⟩
      · exact .inr ⟨p, by omega, h1, h2, fun q hq1 hq2 => hk q hq2 (h3 q hq1)⟩

/-- Nothing is left open exactly where no code of a device that takes part comes later. -/
theorem lastOpen_zero_iff {P : List Device} {r : Rom} (hr : ∃ d ∈ P, d.rom = r) :
    lastOpen r (simReads P r) 64 = 0 ↔ ∀ d ∈ P, ¬ codeBefore r d.rom := by
  constructor
  · intro h0 d hd ⟨p, hp, h1, h2, h3⟩
    rcases lastOpen_spec r (simReads P r) 64 with ⟨-, hn⟩ | ⟨q, hq, h, -⟩
    · refine hn p hp ⟨?_, h2⟩
      rcases simReads_of_mem hr p with ⟨-, hall⟩ | ⟨h, -⟩
      · have := hall d hd (fun q hq => (h1 q hq).symm)
        rw [h2, h3] at this
        cases this
      · exact h
    · omega
  · intro hn
    rcases lastOpen_spec r (simReads P r) 64 with ⟨h, -⟩ | ⟨q, hq, h, ⟨h1, h2⟩, -⟩
    · exact h
    · exfalso
      rcases simReads_of_mem hr q with ⟨h, -⟩ | ⟨-, d, hd, hag, hb⟩
      · rw [h, h2] at h1
        cases h1
      · exact hn d hd ⟨q, hq, fun x hx => (hag x hx).symm, h2, by rw [hb, h2]; rfl⟩

/-! ### The branches taken -/

/-- At a position at which the device that is followed agrees with all that remain, the branch is its bit. -/
theorem chosen_agreed (s : State) (p : Nat) (b : Bool) : s.chosen p (b, !b) = b := by
  unfold State.chosen
  cases b <;> rfl

/-- Whatever the search registers are, the branches taken are those of the code of some device that takes part. -/
theorem exists_chosen (s : State) (P : List Device) (hP : P ≠ []) (k : Nat) (hk : k ≤ 64) :
    ∃ d ∈ P, ∀ p < k, d.rom.getLsbD p = s.chosen p (simReads P d.rom p) := by
  induction k with
  | zero =>
    cases P with
    | nil => exact absurd rfl hP
    | cons d P => exact ⟨d, by simp, fun p hp => absurd hp (Nat.not_lt_zero _)⟩
  | succ k ih =>
    obtain ⟨d, hd, hb⟩ := ih (by omega)
    have hlast : ∀ p, p < k + 1 → ¬ p < k → p = k := fun p h1 h2 => by omega
    rcases simReads_of_mem (P := P) ⟨d, hd, rfl⟩ k with ⟨h, -⟩ | ⟨h, e, he, hag, heb⟩
    · refine ⟨d, hd, fun p hp => ?_⟩
      by_cases hpk : p < k
      · exact hb p hpk
      · rw [hlast p hp hpk, h, chosen_agreed]
    · by_cases hc : d.rom.getLsbD k = s.chosen k (false, false)
      · refine ⟨d, hd, fun p hp => ?_⟩
        by_cases hpk : p < k
        · exact hb p hpk
        · rw [hlast p hp hpk, h]
          exact hc
      · refine ⟨e, he, fun p hp => ?_⟩
        by_cases hpk : p < k
        · rw [simReads_congr (b := d.rom) fun q hq => hag q (by omega), hag p hpk]
          exact hb p hpk
        · rw [hlast p hp hpk, simReads_congr (b := d.rom) hag, h, heb]
          revert hc
          cases d.rom.getLsbD k <;> cases s.chosen k (false, false) <;> simp

end Sys2Proof.Machine
end

