-- ==== Sys2Proof/Laws/Sim.lean ====
section
/-! SUPPORT. The channel primitives with SimBus as the environment, prompt (spec/20_memory.md R60, R70): every wait ends with
the echo SimBus gives. -/

namespace Sys2Proof.Machine

/-- SimBus is the environment, nothing is on the tape or in flight, and a wait makes at least one poll. -/
structure SimAt (s : State) (sb : SimBus) : Prop where
  sim_eq : s.sim = some sb
  tape_nil : s.tape = []
  none_in_flight : s.inFlight = []
  polls : 1 ≤ s.cfg.readTimeout

theorem setTape_self {s : State} {l : List Move} (h : s.tape = l) : s.setTape l = s := by
  subst h
  rfl

theorem emptyFlight_self {s : State} (h : s.inFlight = []) : s.emptyFlight = s := by
  cases s
  simp only at h
  subst h
  rfl

theorem tick_sim {s : State} {sb : SimBus} (h : SimAt s sb) : tick s = .ok () s := by
  unfold tick
  rw [h.tape_nil]
  simp only [playTape, setTape_self h.tape_nil]
  unfold State.surroundings
  simp only [h.sim_eq, h.none_in_flight, List.foldl_nil, emptyFlight_self h.none_in_flight]

/-- After one transmit of `b` that SimBus echoes as `e`. -/
structure Echoed (s : State) (b e : Byte) (sb' : SimBus) (t : State) : Prop where
  same : Same s t
  at_ : SimAt t sb'
  baud : t.baud = s.baud
  trace : t.trace = .echo e :: .tx b :: s.trace
  ready : t.echoReady = false

theorem xfer_sim {s : State} {sb : SimBus} {x : Sent} {e : Byte} {ph : Phase} (h : SimAt s sb)
    (ha : sb.answer s.cfg s.baud x = .echo e ph) :
    ∃ t, xfer x s = .ok (.echo e) t ∧ Echoed s x.byte e { sb with phase := ph } t := by
  have ht : s.transmit x = (s.sendByte x.byte).putEcho { sb with phase := ph } e := by
    unfold State.transmit
    simp [h.sim_eq, ha]
  have hk : tick (s.transmit x) = .ok () ((s.transmit x).deposit e).emptyFlight := by
    unfold tick
    rw [transmit_tape, h.tape_nil]
    have hn : (s.transmit x).tape = [] := (transmit_tape s x).trans h.tape_nil
    simp only [playTape, setTape_self hn]
    unfold State.surroundings
    simp [ht, h.none_in_flight]
  obtain ⟨k, hkT⟩ : ∃ k, s.cfg.readTimeout = k + 1 := ⟨s.cfg.readTimeout - 1, by have := h.polls; omega⟩
  have hx : xfer x s = .ok (.echo e) ((s.transmit x).deposit e).emptyFlight.consume := by
    unfold xfer
    rw [bind_run_ok (tick_sim h), update_bind]
    unfold awaitEcho
    rw [look_bind, transmit_cfg, hkT]
    unfold awaitLoop poll
    simp only [bind_run, hk, look_run]
    simp
  exact ⟨_, hx, {
    same := (same_transmit s x).trans ((same_deposit _ e).trans ((same_emptyFlight _).trans (same_consume _)))
    at_ := ⟨by simp [ht], by simp [h.tape_nil], rfl, by simpa using h.polls⟩
    baud := by simp
    trace := by simp
    ready := rfl }⟩

/-- After channel events with SimBus: the block as before but for the mailbox, SimBus where it stands now, the rate. -/
structure Simmed (s : State) (sb' : SimBus) (r : Option Baud) (t : State) : Prop where
  same : Same s t
  at_ : SimAt t sb'
  baud : t.baud = r

theorem Simmed.trans {s t u : State} {sb1 sb2 : SimBus} {r1 r2 : Option Baud} (h1 : Simmed s sb1 r1 t)
    (h2 : Simmed t sb2 r2 u) : Simmed s sb2 r2 u :=
  ⟨h1.same.trans h2.same, h2.at_, h2.baud⟩

theorem Simmed.refl {s : State} {sb : SimBus} (h : SimAt s sb) : Simmed s sb s.baud s := ⟨Same.refl s, h, rfl⟩

theorem Echoed.simmed {s t : State} {b e : Byte} {sb' : SimBus} (h : Echoed s b e sb' t) : Simmed s sb' s.baud t :=
  ⟨h.same, h.at_, h.baud⟩

theorem configureBaud_sim {s : State} {sb : SimBus} (h : SimAt s sb) (r : Baud) :
    configureBaud r s = .ok () (s.setBaud r) ∧ Simmed s sb (some r) (s.setBaud r) := by
  refine ⟨?_, same_setBaud s r, ⟨h.1, h.2, h.3, h.4⟩, rfl⟩
  unfold configureBaud
  rw [bind_run_ok (tick_sim h), update_run]

/-- The bus reset: the reset pulse echoed, the probe pulled iff a device is there (20_memory.md R72, R73). -/
theorem resetBus_sim {s : State} {sb : SimBus} (h : SimAt s sb)
    (hp : s.cfg.probeByte &&& sb.pull ≠ s.cfg.probeByte) :
    ∃ t, resetBus s = .ok (!sb.devs.isEmpty) t ∧ Simmed s { sb with phase := .cmd 0 0 } (some .slot) t := by
  obtain ⟨h1, s1⟩ := configureBaud_sim h .reset
  obtain ⟨t2, h2, s2⟩ := xfer_sim (x := .other s.cfg.resetByte) (e := s.cfg.resetByte) (ph := .awaitProbe) s1.at_ rfl
  obtain ⟨h3, s3⟩ := configureBaud_sim s2.at_ .slot
  have hc : (t2.setBaud .slot).cfg = s.cfg := s2.same.cfg
  obtain ⟨t4, h4, s4⟩ := xfer_sim (x := .other s.cfg.probeByte)
    (e := if sb.devs.isEmpty then s.cfg.probeByte else s.cfg.probeByte &&& sb.pull) (ph := .cmd 0 0) s3.at_ rfl
  refine ⟨t4, ?_, ?_⟩
  · unfold resetBus
    rw [bind_run_ok h1, look_bind, State.setBaud_cfg, bind_run_ok h2, bind_run_ok h3]
    dsimp only
    rw [bind_run_ok h4]
    cases sb.devs <;> simp [hp]
  · have := s1.trans (s2.simmed.trans (s3.trans s4.simmed))
    exact ⟨this.same, this.at_, s4.baud⟩

/-- A write slot's byte is a slot byte (20_memory.md R71). -/
theorem slotByte_isSlot (w : Bool) : ¬ (slotByte w ≠ 0xFF ∧ slotByte w ≠ 0x00) := by cases w <;> simp [slotByte]

/-- Write slots that SimBus echoes as sent, walking it through the phases `f`. -/
theorem writeBits_sim (ws : List Bool) (f : Nat → Phase) {s : State} {sb : SimBus} (h : SimAt s { sb with phase := f 0 })
    (hb : s.baud = some .slot)
    (hf : ∀ i (hi : i < ws.length), SimBus.answer s.cfg (some .slot) { sb with phase := f i } (.write ws[i]) =
      .echo (slotByte ws[i]) (f (i + 1))) :
    ∃ t, writeBits ws s = .ok () t ∧ Simmed s { sb with phase := f ws.length } (some .slot) t := by
  induction ws generalizing s f with
  | nil => exact ⟨s, rfl, Same.refl s, h, hb⟩
  | cons w ws ih =>
    have ha := hf 0 (by simp)
    simp only [List.getElem_cons_zero] at ha
    obtain ⟨t, ht, hE⟩ := xfer_sim (ph := f 1) h (by rw [hb]; exact ha)
    obtain ⟨u, hu, hS⟩ := ih (fun i => f (i + 1)) (s := t) hE.at_ (hE.baud.trans hb) (fun i hi => by
      have := hf (i + 1) (by simpa using hi)
      rw [hE.same.cfg]
      simpa using this)
    refine ⟨u, ?_, hE.simmed.trans hS⟩
    unfold writeBits writeBit
    rw [bind_run, bind_run_ok ht]
    exact hu

/-- Read slots, walking SimBus through the phases `f`. -/
theorem readBits_sim (n : Nat) (f : Nat → Phase) (v : Nat → Byte) {s : State} {sb : SimBus}
    (h : SimAt s { sb with phase := f 0 }) (hb : s.baud = some .slot)
    (hf : ∀ i < n, SimBus.answer s.cfg (some .slot) { sb with phase := f i } .read = .echo (v i) (f (i + 1))) :
    ∃ t, readBits n s = .ok ((List.range n).map fun i => v i == 0xFF) t ∧
      Simmed s { sb with phase := f n } (some .slot) t := by
  induction n generalizing s f v with
  | zero => exact ⟨s, rfl, Same.refl s, h, hb⟩
  | succ n ih =>
    obtain ⟨t, ht, hE⟩ := xfer_sim (ph := f 1) h (by rw [hb]; exact hf 0 (by omega))
    obtain ⟨u, hu, hS⟩ := ih (fun i => f (i + 1)) (fun i => v (i + 1)) (s := t) hE.at_ (hE.baud.trans hb) (fun i hi => by
      rw [hE.same.cfg]
      exact hf (i + 1) (by omega))
    refine ⟨u, ?_, hE.simmed.trans hS⟩
    have hr : readBit s = .ok (v 0 == 0xFF) t := by
      unfold readBit
      rw [bind_run_ok ht]
      rfl
    unfold readBits
    rw [bind_run_ok hr, bind_run_ok hu, pure_run, List.range_succ_eq_map, List.map_cons, List.map_map]
    rfl

/-- The bits of a ROM command byte gathered so far (20_memory.md R74). -/
def gathered (b : Byte) (j : Nat) : Byte := (List.range j).foldl (fun c i => setBit c i (b.getLsbD i)) 0

theorem gathered_eight : ∀ b : Byte, gathered b 8 = b := by decide +kernel

/-- A ROM command byte after a presence (20_memory.md R74). -/
theorem writeByte_sim {s : State} {sb : SimBus} (b : Byte) (h : SimAt s { sb with phase := .cmd 0 0 })
    (hb : s.baud = some .slot) :
    ∃ t, writeByte b s = .ok () t ∧ Simmed s { sb with phase := afterCommand s.cfg sb.devs b } (some .slot) t := by
  have hg : ∀ j, gathered b (j + 1) = setBit (gathered b j) j (b.getLsbD j) := by
    intro j
    simp [gathered, List.range_succ]
  have := writeBits_sim (bitsOfByte b) (fun j => if j < 8 then .cmd j (gathered b j) else afterCommand s.cfg sb.devs b)
    (sb := sb) h hb (fun i hi => by
      have hi8 : i < 8 := by simpa [bitsOfByte] using hi
      have hw : (bitsOfByte b)[i] = b.getLsbD i := by simp [bitsOfByte]
      have hw' : ∀ h, (bitsOfByte b)[i]'h = b.getLsbD i := fun _ => hw
      simp only [hw', hi8, if_true, SimBus.answer, SimBus.slotAnswer, if_neg (slotByte_isSlot _), Sent.written, Sent.byte]
      by_cases h7 : i < 7
      · have h8 : i + 1 < 8 := by omega
        simp [h7, h8, hg]
      · obtain rfl : i = 7 := by omega
        simp only [Nat.lt_irrefl, if_false]
        rw [← hg, gathered_eight])
  obtain ⟨t, ht, hS⟩ := this
  exact ⟨t, ht, by simpa [bitsOfByte] using hS⟩

/-! ### A search on SimBus -/

theorem agrees_succ (d : Device) (r : Rom) (p : Nat) :
    d.agrees r (p + 1) = (d.agrees r p && (d.bit p == r.getLsbD p)) := by
  simp [Device.agrees, List.range_succ]

theorem agreeing_remaining (P : List Device) (r : Rom) (p : Nat) :
    agreeing (remaining P r p) p (r.getLsbD p) = remaining P r (p + 1) := by
  unfold agreeing remaining
  rw [List.filter_filter]
  congr 1
  funext d
  rw [agrees_succ, Bool.and_comm]

theorem readEcho_eq {pull : Byte} (hp : (0xFF : Byte) &&& pull ≠ 0xFF) (b : Bool) :
    (readEcho pull 0xFF b == 0xFF) = b := by
  cases b
  · exact beq_eq_false_iff_ne.mpr hp
  · rfl

/-- Where SimBus stands before position `p` of a search that takes the branches `r`. -/
def SearchAt (sb : SimBus) (P : List Device) (r : Rom) (c : Config) (p : Nat) (s : State) : Prop :=
  SimAt s { sb with phase := if p < 64 then .searchId p (remaining P r p) else .func (remaining P r 64) } ∧
    s.baud = some .slot ∧ s.cfg = c

/-- SimBus answers a search as `simReads` says. -/
theorem answers_sim {sb : SimBus} (hp : (0xFF : Byte) &&& sb.pull ≠ 0xFF) (P : List Device) (r : Rom) (c : Config) :
    Answers 64 (SearchAt sb P r c) r (simReads P r) := by
  intro p hp64 s ⟨h, hb, hc⟩
  rw [if_pos hp64] at h
  have hread : ∀ {u v : State} {e : Byte}, xfer .read u = .ok (.echo e) v → readBit u = .ok (e == 0xFF) v := by
    intro u v e hx
    unfold readBit
    rw [bind_run_ok hx]
    rfl
  obtain ⟨s1, h1, e1⟩ := xfer_sim (x := .read) (e := readEcho sb.pull 0xFF (simReads P r p).1)
    (ph := .searchCmp p (remaining P r p)) h (by rw [hb]; rfl)
  obtain ⟨s2, h2, e2⟩ := xfer_sim (x := .read) (e := readEcho sb.pull 0xFF (simReads P r p).2)
    (ph := .searchDir p (remaining P r p)) e1.at_ (by rw [e1.baud, hb]; rfl)
  have hat : SimAt (s2.storeScratchBit p (r.getLsbD p)) { sb with phase := .searchDir p (remaining P r p) } :=
    ⟨e2.at_.1, e2.at_.2, e2.at_.3, e2.at_.4⟩
  have hbaud : (s2.storeScratchBit p (r.getLsbD p)).baud = some .slot := by
    show s2.baud = _
    rw [e2.baud, e1.baud, hb]
  obtain ⟨s3, h3, e3⟩ := xfer_sim (x := .write (r.getLsbD p)) (e := slotByte (r.getLsbD p))
    (ph := if p < 63 then .searchId (p + 1) (remaining P r (p + 1)) else .func (remaining P r (p + 1))) hat (by
      rw [hbaud]
      simp only [SimBus.answer, SimBus.slotAnswer, if_neg (slotByte_isSlot _), Sent.written, Sent.byte, agreeing_remaining])
  refine ⟨s1, s2, s3, ?_, e1.same, ?_, e2.same, ?_, e3.same, ?_, ?_, ?_⟩
  · rw [hread h1, readEcho_eq hp]
  · rw [hread h2, readEcho_eq hp]
  · unfold writeBit
    rw [bind_run_ok h3]
    rfl
  · have hph : (if p + 1 < 64 then Phase.searchId (p + 1) (remaining P r (p + 1)) else .func (remaining P r 64)) =
        (if p < 63 then .searchId (p + 1) (remaining P r (p + 1)) else .func (remaining P r (p + 1))) := by
      by_cases h63 : p < 63
      · rw [if_pos h63, if_pos (by omega)]
      · obtain rfl : p = 63 := by omega
        simp
    rw [hph]
    exact e3.at_
  · rw [e3.baud, hbaud]
  · rw [e3.same.cfg]
    show s2.cfg = c
    rw [e2.same.cfg, e1.same.cfg, hc]

/-! ### The ranges of SimBus's state (20_memory.md R70) are kept -/

theorem initial_wf (devs : List Device) {pull : Byte} (h : pull ≠ 0xFF) : (SimBus.initial devs pull).wf = true := by
  simpa [SimBus.initial, SimBus.wf, Phase.within] using h

theorem within_agreeing {devs P : List Device} (p : Nat) (w : Bool) (h : ∀ d ∈ P, d ∈ devs) :
    ∀ d ∈ agreeing P p w, d ∈ devs := fun d hd => h d (List.mem_filter.mp hd).1

theorem afterCommand_within (c : Config) (devs : List Device) (b : Byte) : (afterCommand c devs b).within devs = true := by
  unfold afterCommand
  split <;> simp [Phase.within]
  exact fun d hd _ => hd

theorem slotAnswer_within {c : Config} {sb : SimBus} {x : Sent} {e : Byte} {ph : Phase} (h : sb.phase.within sb.devs = true)
    (ha : sb.slotAnswer c x = .echo e ph) : ph.within sb.devs = true := by
  have hdir : ∀ {p : Nat} {P : List Device} {next : Phase} (w : Bool), p ≤ 63 → (∀ d ∈ P, d ∈ sb.devs) →
      (p < 63 → (∀ d ∈ agreeing P p w, d ∈ sb.devs) → p + 1 ≤ 63 → next.within sb.devs = true) →
      Phase.within sb.devs (if p < 63 then next else .func (agreeing P p w)) = true := by
    intro p P next w hp hP hn
    split
    · rename_i h63
      exact hn h63 (within_agreeing p w hP) (by omega)
    · simpa [Phase.within] using within_agreeing p w hP
  unfold SimBus.slotAnswer at ha
  split at ha
  · cases ha
  · cases hp : sb.phase with
    | idle => simp only [hp] at ha; cases ha; rfl
    | awaitProbe => simp only [hp] at ha; cases ha
    | outside => simp only [hp] at ha; cases ha
    | func P => simp only [hp] at ha h; cases ha; exact h
    | cmd j cmd =>
      simp only [hp] at ha
      split at ha
      · cases ha
      · split at ha
        · cases ha; simp only [Phase.within, decide_eq_true_eq]; omega
        · cases ha; exact afterCommand_within _ _ _
    | searchId p P =>
      simp only [hp] at ha h
      split at ha
      · cases ha; exact h
      · cases ha
    | searchCmp p P =>
      simp only [hp] at ha h
      split at ha
      · cases ha; exact h
      · cases ha
    | searchDir p P =>
      simp only [hp, Phase.within, Bool.and_eq_true, decide_eq_true_eq] at ha h
      split at ha
      · cases ha
      · cases ha
        exact hdir _ h.1 h.2 fun _ hP hp => by simpa [Phase.within] using ⟨by omega, hP⟩
    | readRom p P =>
      simp only [hp, Phase.within, Bool.and_eq_true, decide_eq_true_eq] at ha h
      split at ha
      · cases ha
        split
        · simp only [Phase.within, Bool.and_eq_true, decide_eq_true_eq]; exact ⟨by omega, h.2⟩
        · simp only [Phase.within, decide_eq_true_eq]; exact h.2
      · cases ha
    | matching p P =>
      simp only [hp, Phase.within, Bool.and_eq_true, decide_eq_true_eq] at ha h
      split at ha
      · cases ha
      · cases ha
        exact hdir _ h.1 h.2 fun _ hP hp => by simpa [Phase.within] using ⟨by omega, hP⟩

/-- Every answer of SimBus leaves it in a state the rules have. -/
theorem answer_wf {c : Config} {rate : Option Baud} {sb : SimBus} {x : Sent} {e : Byte} {ph : Phase} (h : sb.wf = true)
    (ha : sb.answer c rate x = .echo e ph) : ({ sb with phase := ph }).wf = true := by
  simp only [SimBus.wf, Bool.and_eq_true] at h ⊢
  refine ⟨h.1, ?_⟩
  unfold SimBus.answer at ha
  split at ha
  · cases ha; rfl
  · split at ha
    · cases ha; rfl
    · exact slotAnswer_within h.2 ha
  · cases ha

/-- A transmit keeps the ranges of SimBus's state. -/
theorem transmit_sim_wf {s : State} (x : Sent) (h : s.sim.all SimBus.wf = true) :
    (s.transmit x).sim.all SimBus.wf = true := by
  unfold State.transmit
  dsimp only
  cases hs : s.sim with
  | none => simp [hs]
  | some sb =>
    rw [hs] at h
    simp only [State.sendByte_sim, hs, State.sendByte_cfg, State.sendByte_baud]
    cases ha : sb.answer s.cfg s.baud x with
    | echo e ph => exact answer_wf h ha
    | free => simpa [SimBus.wf, Phase.within] using (Bool.and_eq_true_iff.mp h).1

/-- The others' moves leave SimBus as it is: it moves at transmits. -/
theorem playTape_sim (l : List Move) (s : State) : match playTape l s with
    | .ok _ t => t.sim = s.sim
    | .error _ t => t.sim = s.sim := by
  have hfold : ∀ (vs : List Byte) (s : State), (vs.foldl State.deposit s).sim = s.sim := by
    intro vs
    induction vs with
    | nil => intro s; rfl
    | cons v vs ih => intro s; exact ih _
  have hsurr : ∀ s : State, s.surroundings.sim = s.sim := by
    intro s
    unfold State.surroundings
    cases hs : s.sim with
    | some sb => exact (hfold _ _).trans hs
    | none => cases Config.freeDeposit s.draws <;> exact hs
  induction l generalizing s with
  | nil => exact hsurr _
  | cons m l ih =>
    cases m with
    | master => rfl
    | reset => rfl
    | deposit v => exact ih (s.deposit v)
    | echo =>
      have h : s.depositOldest.sim = s.sim := by unfold State.depositOldest; split <;> rfl
      have := ih s.depositOldest
      rwa [h] at this
    | lose => exact ih s.dropEcho

/-- What happens before an atomic step of the master, hardware reset included, leaves SimBus as it is. -/
theorem tick_sim_kept (s : State) : match tick s with
    | .ok _ t => t.sim = s.sim
    | .error _ t => t.sim = s.sim := playTape_sim s.tape s

end Sys2Proof.Machine
end

