-- ==== Sys2Proof/Laws/Passes.lean ====
section
/-! SUPPORT. A search pass whole: over a course of draws the tape gives, and with SimBus as the environment. -/

namespace Sys2Proof.Machine

/-! ### Through `Same` -/

theorem chosen_congr {s u : State} (h : Same s u) : u.chosen = s.chosen := by
  funext p a
  unfold State.chosen State.scratch
  rw [h.store, h.lastDiscrepancy]

theorem passOutcome_congr {s u : State} (h : Same s u) (r : Rom) : passOutcome u r = passOutcome s r := by
  unfold passOutcome
  rw [h.deviceCount, h.cfg]

theorem passEffect_congr {s u t : State} {r : Rom} {as : Nat → Bool × Bool} (h : Same s u) (hp : PassEffect u r as t) :
    PassEffect s r as t := by
  obtain ⟨⟨a1, a2, a3, a4⟩, a5, a6, a7, a8, a9, a10, a11, a12⟩ := hp
  rw [h.cfg] at *
  rw [h.deviceCount] at *
  rw [h.store] at a12
  rw [h.lastDiscrepancy] at a6
  rw [h.lastFamilyDiscrepancy] at a7
  rw [h.lastDeviceFlag] at a8
  rw [h.hasMoreDevices] at a9
  exact ⟨⟨a1, a2.trans h.req, a3.trans h.pending, a4.trans h.slot⟩, a5, a6, a7, a8, a9, a10, a11, a12⟩

/-- The effect of a pass, seen after the others' moves and the response as well. -/
theorem passEffect_same {s t u : State} {r : Rom} {as : Nat → Bool × Bool} (h : Same t u) (hp : PassEffect s r as t) :
    PassEffect s r as u := by
  obtain ⟨⟨a1, a2, a3, a4⟩, a5, a6, a7, a8, a9, a10, a11, a12⟩ := hp
  have hscr : u.scratch = t.scratch := by rw [State.scratch, h.store, State.scratch]
  have hent : ∀ k, u.entry k = t.entry k := fun k => by rw [State.entry, h.store, State.entry]
  refine ⟨⟨h.cfg.trans a1, h.req.trans a2, h.pending.trans a3, h.slot.trans a4⟩, hscr.trans a5, ?_, ?_,
    h.lastDeviceFlag.trans a8, h.hasMoreDevices.trans a9, h.deviceCount.trans a10, ?_, ?_⟩
  · rw [h.lastDiscrepancy]
    exact a6
  · rw [h.lastFamilyDiscrepancy]
    exact a7
  · rw [hent]
    exact a11
  · rw [h.store]
    exact a12

/-- The response is no part of that effect. -/
theorem passEffect_respond {s t : State} {r : Rom} {as : Nat → Bool × Bool} {rsp : Response} (hp : PassEffect s r as t) :
    PassEffect s r as (t.respond rsp) := by
  obtain ⟨⟨a1, a2, a3, a4⟩, a5, a6, a7, a8, a9, a10, a11, a12⟩ := hp
  exact ⟨⟨a1, a2, a3, a4⟩, a5, a6, a7, a8, a9, a10, a11, a12⟩

/-- SEARCH's response to a pass, from the count before it or after it. -/
theorem searchResponse_of_effect {s t : State} {r : Rom} {as : Nat → Bool × Bool} (hp : PassEffect s r as t) :
    searchResponse t.deviceCount (passOutcome s r) = passResponse s r := by
  have h := hp.deviceCount
  unfold passOutcome passResponse
  by_cases hv : romValid r = true <;> by_cases hc : s.deviceCount.toNat < s.cfg.maxDevices <;>
    simp [hv, hc] at h ⊢ <;> simp [searchResponse, h]

/-! ### What the close of a pass leaves -/

/-- What the close of a pass never writes. -/
structure ClosedOnly (s t : State) : Prop where
  cfg : t.cfg = s.cfg
  busy : t.busy = s.busy
  req : t.req = s.req
  point : t.point = s.point
  baud : t.baud = s.baud
  sim : t.sim = s.sim
  inFlight : t.inFlight = s.inFlight
  tape : t.tape = s.tape
  trace : t.trace = s.trace
  ready : t.echoReady = s.echoReady
  wf : Memory.wf s.store = true → Memory.wf t.store = true

theorem closePass_closedOnly (w : Work) (s : State) : ClosedOnly s (closePass w s).2 := by
  unfold closePass
  split
  · exact ⟨rfl, rfl, rfl, rfl, rfl, rfl, rfl, rfl, rfl, rfl, id⟩
  · dsimp only
    split
    · exact ⟨rfl, rfl, rfl, rfl, rfl, rfl, rfl, rfl, rfl, rfl, wf_writeRomAt _ _ _⟩
    · exact ⟨rfl, rfl, rfl, rfl, rfl, rfl, rfl, rfl, rfl, rfl, id⟩

/-- What follows the positions of a pass. -/
def closing : Option Work → M Outcome
  | none => pure .busError
  | some w => fun s => .ok (closePass w s).1 (closePass w s).2

/-- A pass from its reset and its command byte on. -/
theorem passBody_of_opening {s t u : State} {alarm : Bool} (hf : s.lastDeviceFlag = false) (hr : resetBus s = .ok true t)
    (hw : writeByte (searchCommand s.cfg alarm) t = .ok () u) :
    passBody alarm s = (searchLoop 64 Work.init >>= closing) u := by
  unfold passBody
  rw [look_bind]
  simp only [hf, Bool.false_eq_true, if_false]
  rw [bind_run_ok hr, if_pos rfl, bind_run_ok hw, bind_run, bind_run]
  cases searchLoop 64 Work.init u with
  | ok o v => cases o <;> rfl
  | error e v => rfl

/-- A pass with 64 positions behind it. -/
theorem searchPass_of_loop {s u v : State} {alarm : Bool} {w : Work}
    (hb : passBody alarm s = (searchLoop 64 Work.init >>= closing) u) (hl : searchLoop 64 Work.init u = .ok (some w) v) :
    searchPass alarm s = .ok (closePass w v).1 (closePass w v).2 := by
  unfold searchPass
  rw [hb, bind_run_ok hl]
  rfl

/-- An exhausted enumeration. -/
theorem searchPass_exhausted {s : State} (alarm : Bool) (hf : s.lastDeviceFlag = true) :
    searchPass alarm s = .ok .exhausted s := by
  unfold searchPass passBody
  simp only [look_bind, hf, if_true, pure_run]

/-- A pass without presence. -/
theorem searchPass_noDevices {s t : State} (alarm : Bool) (hf : s.lastDeviceFlag = false)
    (hr : resetBus s = .ok false t) : searchPass alarm s = .ok .noDevices (t.setCount 0) := by
  unfold searchPass passBody
  simp only [look_bind, hf, Bool.false_eq_true, if_false]
  rw [bind_run_ok hr]
  rfl

/-- A pass whose reset times out. -/
theorem searchPass_reset_timeout {s t : State} (alarm : Bool) (hf : s.lastDeviceFlag = false)
    (hr : resetBus s = .error .timeout t) : searchPass alarm s = .ok .timeout t := by
  unfold searchPass passBody
  simp only [look_bind, hf, Bool.false_eq_true, if_false]
  rw [bind_run_error hr]

/-! ### The bytes sent and the responses along draws -/

theorem sentInOrder_events (d : Draw) (b : Byte) (tr : List Action) :
    sentInOrder (d.events b tr) = sentInOrder tr ++ [b] := by
  have h : sent (d.events b tr) = b :: sent tr := by cases d <;> rfl
  unfold sentInOrder
  rw [h, List.reverse_cons]

theorem sentInOrder_drawEvents (l : List (Byte × Draw)) (tr : List Action) :
    sentInOrder (drawEvents l tr) = sentInOrder tr ++ l.map Prod.fst := by
  induction l generalizing tr with
  | nil => simp [drawEvents]
  | cons x l ih =>
    obtain ⟨b, d⟩ := x
    simp [drawEvents, ih, sentInOrder_events]

@[simp] theorem responses_events (d : Draw) (b : Byte) (tr : List Action) : responses (d.events b tr) = responses tr := by
  cases d <;> rfl

@[simp] theorem responses_drawEvents (l : List (Byte × Draw)) (tr : List Action) :
    responses (drawEvents l tr) = responses tr := by
  induction l generalizing tr with
  | nil => rfl
  | cons x l ih =>
    obtain ⟨b, d⟩ := x
    simp [drawEvents, ih]

@[simp] theorem responses_resetEvents (c : Config) (d1 d2 : Draw) (tr : List Action) :
    responses (resetEvents c d1 d2 tr) = responses tr := by
  cases d1 <;> cases d2 <;> rfl

theorem sentInOrder_resetEvents {c : Config} {d1 d2 : Draw} {b : Bool} (tr : List Action)
    (h : resetResult c d1 d2 = some b) :
    sentInOrder (resetEvents c d1 d2 tr) = sentInOrder tr ++ [c.resetByte, c.probeByte] := by
  cases d1 <;> cases d2 <;> simp [resetResult] at h
  simp [resetEvents, Draw.events, sentInOrder, sent]

/-! ### Positions over draws -/

/-- Before position `p` of a pass whose positions go as `xs`: what is left of the tape, and what has been sent. -/
structure Scripted (T : Nat) (xs : List PositionDraws) (rest : List Move) (bytes : List Byte) (rsps : List HostWord) (r : Rom)
    (p : Nat) (s : State) : Prop where
  tape : s.tape = (xs.drop p).flatMap (PositionDraws.moves T) ++ rest
  polls : s.cfg.readTimeout = T
  baud : s.baud = some .slot
  ready : s.echoReady = false
  sent : sentInOrder s.trace = bytes ++ (List.range p).flatMap fun p => [0xFF, 0xFF, slotByte (r.getLsbD p)]
  response : responses s.trace = rsps

/-- The environment answers as `xs` says. -/
theorem answers_scripted {T : Nat} {xs : List PositionDraws} (rest : List Move) (bytes : List Byte) (rsps : List HostWord)
    (r : Rom) (hx : ∀ x ∈ xs, PositionDraws.admits T x) :
    Answers xs.length (Scripted T xs rest bytes rsps r) r (readsOf xs) := by
  intro p hp s h
  have hr : readsOf xs p = xs[p].reads := by simp [readsOf, List.getD_eq_getElem?_getD, hp]
  have ht := h.tape
  rw [List.drop_eq_getElem_cons hp, List.flatMap_cons] at ht
  obtain ⟨h1, h2, h3⟩ := hx _ (List.getElem_mem hp)
  simp only [PositionDraws.moves, PositionDraws.readMoves, List.append_assoc] at ht
  rw [← h.polls] at h1 h2 h3 ht
  obtain ⟨s1, e1, d1⟩ := readBit_draw h1 ht
  obtain ⟨s2, e2, d2⟩ := readBit_draw (s := s1) (by rw [d1.same.cfg]; exact h2) (by rw [d1.same.cfg]; exact d1.tape)
  have hc : s2.cfg = s.cfg := d2.same.cfg.trans d1.same.cfg
  obtain ⟨s3, e3, d3⟩ := writeBit_draw (s := s2.storeScratchBit p (r.getLsbD p)) (r.getLsbD p) (d := xs[p].wr)
    (rest := (xs.drop (p + 1)).flatMap (PositionDraws.moves T) ++ rest)
    (by rw [show (s2.storeScratchBit p (r.getLsbD p)).cfg = s2.cfg from rfl, hc]; exact h3)
    (by rw [show (s2.storeScratchBit p (r.getLsbD p)).cfg = s2.cfg from rfl, hc,
          show (s2.storeScratchBit p (r.getLsbD p)).tape = s2.tape from rfl, d2.tape, h.polls])
  refine ⟨s1, s2, s3, by rw [hr]; exact e1, d1.same, by rw [hr]; exact e2, d2.same, e3, d3.same, d3.tape, ?_, ?_, d3.ready,
    ?_, ?_⟩
  · rw [d3.same.cfg]
    exact (congrArg Config.readTimeout hc).trans h.polls
  · rw [d3.baud]
    exact (d2.baud.trans d1.baud).trans h.baud
  · rw [d3.trace, sentInOrder_events, show (s2.storeScratchBit p (r.getLsbD p)).trace = s2.trace from rfl, d2.trace,
      sentInOrder_events, d1.trace, sentInOrder_events, h.sent]
    simp [List.range_succ]
  · rw [d3.trace, responses_events, show (s2.storeScratchBit p (r.getLsbD p)).trace = s2.trace from rfl, d2.trace,
      responses_events, d1.trace, responses_events, h.response]

/-- Reads that are not both 1. -/
theorem readsOf_not_both {xs : List PositionDraws} (hx : ∀ x ∈ xs, x.reads ≠ (true, true)) (p : Nat) (hp : p < xs.length) :
    ((readsOf xs p).1 && (readsOf xs p).2) = false := by
  have hr : readsOf xs p = xs[p].reads := by simp [readsOf, List.getD_eq_getElem?_getD, hp]
  have h := hx _ (List.getElem_mem hp)
  rw [hr]
  rcases hq : xs[p].reads with ⟨a, b⟩
  rw [hq] at h
  cases a <;> cases b <;> simp_all

/-- The reset with presence and the command byte, over draws. -/
theorem passBody_scripted {s : State} {d1 d2 : Draw} {ds : List Draw} {xs : List PositionDraws} {rest : List Move}
    (alarm : Bool) (r : Rom) (hf : s.lastDeviceFlag = false) (h1 : d1.admits s.cfg.readTimeout)
    (h2 : d2.admits s.cfg.readTimeout) (hp : resetResult s.cfg d1 d2 = some true) (hl : ds.length = 8)
    (hd : ∀ d ∈ ds, d.admits s.cfg.readTimeout) (h : s.tape = passMoves s.cfg.readTimeout d1 d2 ds xs ++ rest) :
    ∃ u, Same s u ∧
      Scripted s.cfg.readTimeout xs rest (sentInOrder s.trace ++ passBytes s.cfg alarm r 0) (responses s.trace) r 0 u ∧
      passBody alarm s = (searchLoop 64 Work.init >>= closing) u := by
  unfold passMoves at h
  rw [List.append_assoc, List.append_assoc] at h
  obtain ⟨t, ht, hD⟩ := resetBus_draws h1 h2 h
  rw [hp] at ht
  have hc : t.cfg = s.cfg := hD.same.cfg
  obtain ⟨u, hu, hE⟩ := writeByte_draws (searchCommand s.cfg alarm) ds t _ hl (by rw [hc]; exact hd)
    (by rw [hc]; exact hD.tape)
  refine ⟨u, hD.same.trans hE.same, ⟨hE.tape, by rw [hE.same.cfg, hc], by rw [hE.baud, hD.baud], hE.ready, ?_, ?_⟩,
    passBody_of_opening hf ht hu⟩
  · rw [hE.trace, writeEvents, sentInOrder_drawEvents, hD.trace, sentInOrder_resetEvents _ hp]
    simp only [passBytes, List.range_zero, List.flatMap_nil, List.append_nil, List.append_assoc]
    rw [List.map_fst_zip (by simp [bitsOfByte, hl])]
  · rw [hE.trace, writeEvents, responses_drawEvents, hD.trace, responses_resetEvents]

/-! ### A pass on SimBus -/

theorem simAt_of_prompt {s : State} {sb : SimBus} (h : PromptSimBus s sb) : SimAt s sb := by
  refine ⟨h.sim_eq, h.tape_nil, h.none_in_flight, ?_⟩
  have := h.cfg_wf
  simp [Config.wf] at this
  omega

theorem deliver_sim {s : State} {sb : SimBus} (h : SimAt s sb) (r : Response) : deliver r s = s.respond r := by
  simp [deliver, tick_sim h]

theorem promptSimBus_respond {t : State} {sb : SimBus} {r : Response} (h : PromptSimBus t sb) :
    PromptSimBus (t.respond r) sb := ⟨h.1, h.2, h.3, h.4, h.5, h.6⟩

/-- Channel events with SimBus leave it the prompt environment. -/
theorem promptSimBus_of_simmed {s t : State} {sb : SimBus} {ph : Phase} {b : Option Baud} (h : PromptSimBus s sb)
    (hS : Simmed s { sb with phase := ph } b t) : PromptSimBus t { sb with phase := ph } :=
  ⟨hS.at_.1, hS.at_.2, hS.at_.3, by rw [hS.same.cfg]; exact h.4, h.5, by rw [hS.same.cfg]; exact h.6⟩

/-- What is made of channel primitives answers nobody. -/
theorem responses_of_ends {α : Type} {m : M α} (hm : Ends ChannelOnly m) {s t : State} {a : α} (h : m s = .ok a t) :
    responses t.trace = responses s.trace := (hm.of_ok h).2.1

theorem afterCommand_search {c : Config} (hc : c.wf = true) (sb : SimBus) (alarm : Bool) :
    afterCommand c sb.devs (searchCommand c alarm) = .searchId 0 (participants sb alarm) := by
  simp only [Config.wf, Bool.and_eq_true, decide_eq_true_eq, bne_iff_ne] at hc
  obtain ⟨⟨⟨⟨⟨⟨_, _⟩, _⟩, h1⟩, _⟩, _⟩, _⟩ := hc
  cases alarm
  · rfl
  · simp only [afterCommand, searchCommand, decodeRomCommand, participants, if_true]
    rw [if_neg h1]

/-- The reset with presence and the command byte, on SimBus. -/
theorem passBody_sim {s : State} {sb : SimBus} (alarm : Bool) (r : Rom) (h : PromptSimBus s sb)
    (hf : s.lastDeviceFlag = false) (hne : sb.devs ≠ []) :
    ∃ u, Same s u ∧ responses u.trace = responses s.trace ∧ SearchAt sb (participants sb alarm) r s.cfg 0 u ∧
      passBody alarm s = (searchLoop 64 Work.init >>= closing) u := by
  obtain ⟨t, ht, hS⟩ := resetBus_sim (simAt_of_prompt h) h.6
  have hb : (!sb.devs.isEmpty) = true := by cases hd : sb.devs <;> simp_all
  rw [hb] at ht
  obtain ⟨u, hu, hS2⟩ := writeByte_sim (sb := sb) (searchCommand s.cfg alarm) hS.at_ hS.baud
  refine ⟨u, hS.same.trans hS2.same, ?_, ⟨?_, hS2.baud, ?_⟩, passBody_of_opening hf ht hu⟩
  · exact (responses_of_ends (Ends.writeByte channelOnly_steps _) hu).trans
      (responses_of_ends (Ends.resetBus channelOnly_steps) ht)
  · have := hS2.at_
    rw [hS.same.cfg, afterCommand_search h.4] at this
    simpa [remaining_zero] using this
  · rw [hS2.same.cfg, hS.same.cfg]

/-- A pass on SimBus that takes the branches of a device's code. -/
theorem searchPass_sim {s : State} {sb : SimBus} (alarm : Bool) (r : Rom) (h : PromptSimBus s sb)
    (hwf : Memory.wf s.store = true) (hf : s.lastDeviceFlag = false) (hP : ∃ d ∈ participants sb alarm, d.rom = r)
    (hch : ∀ p < 64, r.getLsbD p = s.chosen p (simReads (participants sb alarm) r p)) :
    ∃ t, searchPass alarm s = .ok (passOutcome s r) t ∧ PassEffect s r (simReads (participants sb alarm) r) t ∧
      (∃ ph, PromptSimBus t { sb with phase := ph }) ∧ Memory.wf t.store = true ∧
      responses t.trace = responses s.trace ∧ t.busy = s.busy := by
  have hne : sb.devs ≠ [] := by
    obtain ⟨d, hd, -⟩ := hP
    intro h0
    unfold participants at hd
    rw [h0] at hd
    cases alarm <;> simp at hd
  obtain ⟨u, hs, hr, hS, hb⟩ := passBody_sim alarm r h hf hne
  have hA := answers_sim (sb := sb) h.5 (participants sb alarm) r s.cfg
  have hone : ∀ p < 64, ((simReads (participants sb alarm) r p).1 && (simReads (participants sb alarm) r p).2) = false := by
    intro p _
    rcases simReads_of_mem hP p with ⟨h, -⟩ | ⟨h, -⟩
    · rw [h]
      cases r.getLsbD p <;> rfl
    · rw [h]
      rfl
  obtain ⟨w, v, hl, hPr, hv⟩ := searchLoop_progress (s := u) hA hone
    (fun p hp => by rw [chosen_congr hs]; exact hch p hp) 64 (le_refl _)
    (progress_start u r _ (by rw [hs.store]; exact hwf)) hS
  obtain ⟨ho, hPE⟩ := closePass_of_progress hPr
  have hk := closePass_closedOnly w v
  refine ⟨(closePass w v).2, ?_, passEffect_congr hs hPE, ?_, hk.wf hPr.wf, ?_, ?_⟩
  · rw [searchPass_of_loop hb hl, ho, passOutcome_congr hs]
  · refine ⟨_, hk.sim.trans hv.1.1, hk.tape.trans hv.1.2, hk.inFlight.trans hv.1.3, ?_, h.5, ?_⟩
    · rw [hk.cfg, hv.2.2]
      exact h.4
    · rw [hk.cfg, hv.2.2]
      exact h.6
  · rw [hk.trace, ((Ends.searchLoop searchedOnly_steps 64 _).of_ok hl).response, hr]
  · rw [hk.busy]
    exact hPr.same.busy.trans hs.busy

end Sys2Proof.Machine
end

