-- ==== Sys2Proof/Laws/PerInstr.lean ====
section
/-! SUPPORT. The code an encoded instruction carries, constructor by constructor (spec/30_encoding.md R93, R96, R103). -/

namespace Sys2Proof.Laws.EncodedOp

/-- The code in the word of an instruction that has one is assigned exactly where the instruction is no unassigned code. -/
def Statement (i : Instr) : Prop :=
  ∀ w, encode i = some w → (i.wellFormed = true ∨ i.layer = .pseudo) →
    (assignedOp (reqOp w) = true ↔ ∀ op, i ≠ .unassigned op)

/-- An instruction other than an unassigned code, whose code is assigned. -/
theorem of_assigned {i : Instr} {op arg : Byte} {rom : Rom} (he : encode i = some (reqWord op arg rom))
    (ha : assignedOp op = true) (hi : ∀ op, i ≠ .unassigned op) : Statement i := by
  intro w hw _
  rw [he] at hw
  obtain rfl := Option.some.inj hw
  rw [reqOp_reqWord]
  exact ⟨fun _ => hi, fun _ => ha⟩

/-- An instruction without a request word. -/
theorem of_none {i : Instr} (he : encode i = none) : Statement i := by
  intro w hw _
  rw [he] at hw
  cases hw

theorem reset : Statement .reset := of_assigned rfl (by decide) (fun _ h => by cases h)

theorem wrbit (b : Bool) : Statement (.wrbit b) := of_assigned rfl (by decide) (fun _ h => by cases h)

theorem rdbit : Statement .rdbit := of_assigned rfl (by decide) (fun _ h => by cases h)

theorem wrbyte (b : Byte) : Statement (.wrbyte b) := of_assigned rfl (by decide) (fun _ h => by cases h)

theorem rdbyte : Statement .rdbyte := of_assigned rfl (by decide) (fun _ h => by cases h)

theorem search (m : Bool) : Statement (.search m) := of_assigned rfl (by decide) (fun _ h => by cases h)

theorem scan (m : Bool) : Statement (.scan m) := of_assigned rfl (by decide) (fun _ h => by cases h)

theorem matchrom (r : Rom) : Statement (.matchrom r) := of_assigned rfl (by decide) (fun _ h => by cases h)

theorem skiprom : Statement .skiprom := of_assigned rfl (by decide) (fun _ h => by cases h)

theorem readrom : Statement .readrom := of_assigned rfl (by decide) (fun _ h => by cases h)

theorem clrstate : Statement .clrstate := of_assigned rfl (by decide) (fun _ h => by cases h)

theorem crc8 (r : Rom) : Statement (.crc8 r) := of_assigned rfl (by decide) (fun _ h => by cases h)

theorem getstate : Statement .getstate := of_assigned rfl (by decide) (fun _ h => by cases h)

theorem getdev (k : Byte) : Statement (.getdev k) := of_assigned rfl (by decide) (fun _ h => by cases h)

theorem getscr : Statement .getscr := of_assigned rfl (by decide) (fun _ h => by cases h)

theorem unassigned (op : Byte) : Statement (.unassigned op) := by
  intro w hw hi
  obtain rfl := Option.some.inj hw
  rw [reqOp_reqWord]
  refine ⟨fun ha => ?_, fun h => absurd rfl (h op)⟩
  rcases hi with hi | hi
  · simp [Instr.wellFormed, ha] at hi
  · cases hi

theorem asearch : Statement .asearch := of_assigned rfl (by decide) (fun _ h => by cases h)

theorem ascan : Statement .ascan := of_assigned rfl (by decide) (fun _ h => by cases h)

theorem wr0 : Statement .wr0 := of_assigned rfl (by decide) (fun _ h => by cases h)

theorem wr1 : Statement .wr1 := of_assigned rfl (by decide) (fun _ h => by cases h)

theorem wSearchRom : Statement .wSearchRom := of_none rfl

theorem wAlarmSearch : Statement .wAlarmSearch := of_none rfl

theorem wSkipRom : Statement .wSkipRom := of_none rfl

theorem wReadRom : Statement .wReadRom := of_none rfl

theorem wMatchRom : Statement .wMatchRom := of_none rfl

theorem sResetPulse : Statement .sResetPulse := of_none rfl

theorem sProbe : Statement .sProbe := of_none rfl

theorem sWrite0 : Statement .sWrite0 := of_none rfl

theorem sWrite1 : Statement .sWrite1 := of_none rfl

theorem sRead : Statement .sRead := of_none rfl

end Sys2Proof.Laws.EncodedOp
end

