-- ==== Sys2Proof/Tests/Slice0.lean ====
section
/-! SUPPORT. Tests: the checks of WellFormed, decoding, one step per instruction, and a witness for the hypotheses of each statement.
Expected results are those of spec/95_test_vectors.md (V, P) or of the rule named. -/

namespace Sys2Proof.Tests

open Sys2Proof.Machine

/-! ### The codes of 95_test_vectors.md -/

def codeA : Rom := 0x9E06050403020128
def codeB : Rom := 0xDB0F0E0D0C0B0A10
def codeD1 : Rom := 0x1E00000000000028
def codeD2 : Rom := 0x7000000000000228
def codeD3 : Rom := 0x2900000000000128

/-! ### Small states -/

/-- SimBus over devices with these codes, none alarmed. -/
def busOf (codes : List Rom) : SimBus := SimBus.initial (codes.map fun r => ⟨r, false⟩) Config.pull

/-- D2 and D3 alarmed out of D1, D2, D3 (V41). -/
def alarmBus : SimBus := ⟨[⟨codeD1, false⟩, ⟨codeD2, true⟩, ⟨codeD3, true⟩], .idle, 0xFE⟩

/-- After reset, on SimBus. -/
def onBus (sb : SimBus) : State := { State.reset with sim := some sb }

/-- After reset, the tape given. -/
def onTape (l : List Move) : State := { State.reset with tape := l }

/-- The request `w` just accepted. -/
def request (s : State) (w : HostWord) : State := s.withFetchWord 80 w.toNat

/-- The state a step leaves. -/
def after : Host.Outcome State Fault Refusal → State
  | .next t => t
  | .fault _ => State.reset
  | .refused _ => State.reset

/-- The response word, where the last event is one. -/
def answer (s : State) : Option HostWord :=
  match s.trace with
  | .rsp w :: _ => some w
  | _ => none

/-- One step of a request, and the response. -/
def ask (s : State) (w : HostWord) : Option HostWord := answer (after (step (request s w)))

/-- One step of a request, and the bytes sent. -/
def send (s : State) (w : HostWord) : List Byte := sentInOrder (after (step (request s w))).trace

/-- The first pass over A and B (V31), in the registers it leaves. -/
def afterB : State :=
  { onBus (busOf [codeA, codeB]) with
    lastDiscrepancy := 4
    lastFamilyDiscrepancy := 4
    deviceCount := 1
    store := writeRomAt (writeRomAt [] 0 codeB) 8 codeB
    echoBuffer := 0xFF }

/-! ### The invariant's ranges of SimBus refuse a phase 20_memory.md R70 does not have -/

theorem test_simBus_wf : (busOf [codeA]).wf = true := by decide
theorem test_simBus_position : ({ busOf [codeA] with phase := .readRom 64 [] }).wf = false := by decide
theorem test_simBus_bit : ({ busOf [codeA] with phase := .cmd 8 0 }).wf = false := by decide
theorem test_simBus_stranger : ({ busOf [codeA] with phase := .searchId 0 [⟨codeB, false⟩] }).wf = false := by decide
theorem test_simBus_pull : (SimBus.initial [] 0xFF).wf = false := by decide

/-! ### 20_memory.md R78: a slot in the wrong direction is outside SimBus, in `Func` and `Idle` every slot is echoed -/

theorem test_read_in_cmd :
    ({ onBus { busOf [codeA] with phase := .cmd 0 0 } with baud := some .slot }.transmit .read).sim.map SimBus.phase =
      some .outside := by decide
theorem test_write_where_read_expected : ∀ ph ∈ [Phase.searchId 0 [⟨codeA, false⟩], .searchCmp 0 [], .readRom 5 []], ∀ w,
    SimBus.answer Config.default (some .slot) { busOf [codeA] with phase := ph } (.write w) = .free := by decide
theorem test_echo_in_func_and_idle : ∀ ph ∈ [Phase.func [⟨codeA, false⟩], .idle], ∀ x ∈ [Sent.read, .write true, .write false],
    SimBus.answer Config.default (some .slot) { busOf [codeA] with phase := ph } x = .echo x.byte ph := by decide
theorem test_write_in_cmd :
    SimBus.answer Config.default (some .slot) { busOf [codeA] with phase := .cmd 0 0 } (.write true) =
      .echo 0xFF (.cmd 1 1) := by decide

/-! ### WellFormed: each check refuses an ill-formed term -/

theorem test_wellFormed_unassigned_00 : (Instr.unassigned 0x00).wellFormed = true := by decide
theorem test_wellFormed_unassigned_10 : (Instr.unassigned 0x10).wellFormed = true := by decide
theorem test_illFormed_unassigned_01 : (Instr.unassigned 0x01).wellFormed = false := by decide
theorem test_illFormed_unassigned_0F : (Instr.unassigned 0x0F).wellFormed = false := by decide
theorem test_illFormed_pseudo : Instr.asearch.wellFormed = false ∧ Instr.ascan.wellFormed = false ∧
    Instr.wr0.wellFormed = false ∧ Instr.wr1.wellFormed = false := by decide
theorem test_illFormed_romByte : Instr.wSearchRom.wellFormed = false ∧ Instr.wMatchRom.wellFormed = false := by decide
theorem test_illFormed_slotSymbol : Instr.sProbe.wellFormed = false ∧ Instr.sRead.wellFormed = false := by decide

/-! ### Decoding: words written out from 30_encoding.md R91, R93, R102 and the requests of 95_test_vectors.md -/

theorem test_decode_reset : decode 0x00000000000000000001 = .reset := by decide
theorem test_decode_wrbit : decode 0x00000000000000000102 = .wrbit true := by decide
theorem test_decode_wrbit_ignored : decode 0xFFFFFFFFFFFFFFFFFE02 = .wrbit false := by decide
theorem test_decode_rdbit : decode 0x00000000000000000003 = .rdbit := by decide
theorem test_decode_wrbyte : decode 0x00000000000000004404 = .wrbyte 0x44 := by decide
theorem test_decode_rdbyte : decode 0x00000000000000000005 = .rdbyte := by decide
theorem test_decode_search : decode 0x00000000000000000106 = .search true := by decide
theorem test_decode_scan : decode 0x00000000000000000007 = .scan false := by decide
theorem test_decode_matchrom : decode 0x9E060504030201280008 = .matchrom codeA := by decide
theorem test_decode_skiprom : decode 0x00000000000000000009 = .skiprom := by decide
theorem test_decode_readrom : decode 0x0000000000000000000A = .readrom := by decide
theorem test_decode_clrstate : decode 0xFFFFFFFFFFFFFFFFFF0B = .clrstate := by decide
theorem test_decode_crc8 : decode 0x9E06050403020128000C = .crc8 codeA := by decide
theorem test_decode_getstate : decode 0x0000000000000000000D = .getstate := by decide
theorem test_decode_getdev : decode 0x0000000000000000FF0E = .getdev 255 := by decide
theorem test_decode_getscr : decode 0x0000000000000000000F = .getscr := by decide
theorem test_decode_unassigned : decode 0xFFFFFFFFFFFFFFFFFF7F = .unassigned 0x7F := by decide
theorem test_decode_code_bytes : romBytes codeA = [0x28, 0x01, 0x02, 0x03, 0x04, 0x05, 0x06, 0x9E] := by decide
theorem test_decode_nine_bytes : decodeBytes (List.replicate 9 0x01) = .error (.notOneWord 9) := by rfl
theorem test_decode_pseudo : decode 0x0106 = .search true ∧ decode 0x0107 = .scan true ∧ decode 0x0002 = .wrbit false ∧
    decode 0x0102 = .wrbit true := by decide
/-- 30_encoding.md R98. -/
theorem test_decode_romBytes : [0xF0, 0xEC, 0xCC, 0x33, 0x55, 0x44].map (decodeRomCommand Config.default) =
    [some .wSearchRom, some .wAlarmSearch, some .wSkipRom, some .wReadRom, some .wMatchRom, none] := by decide
/-- 30_encoding.md R100. -/
theorem test_slotSymbols : [Instr.sResetPulse, .sProbe, .sWrite0, .sWrite1, .sRead].map (slotSymbol Config.default) =
    [some (.reset, 0xF0), some (.slot, 0xFF), some (.slot, 0x00), some (.slot, 0xFF), some (.slot, 0xFF)] := by decide

/-! ### One step per instruction -/

/-- V2. -/
theorem test_reset_presence : ask (onBus (busOf [codeA])) 0x01 = some 0x0100 := by decide
/-- V2; the empty bus. -/
theorem test_reset_empty : ask (onBus (busOf [])) 0x01 = some 0x01 := by decide
/-- V23. -/
theorem test_wrbit : send (onTape (List.replicate 6 .master)) 0x0102 = [0xFF] := by decide
/-- V23: no deposit at all, still OK. -/
theorem test_wrbit_expired : ask (onTape (List.replicate 6 .master)) 0xFE02 = some 0 := by decide
/-- V24: an echo of 0x7F. -/
theorem test_rdbit_echo_7F : ask (onTape [.master, .deposit 0x7F, .master, .master]) 0x03 = some 0 := by decide
/-- V24. -/
theorem test_rdbit_expired : ask (onTape (List.replicate 6 .master)) 0x03 = some 0x02 := by decide
/-- V25. -/
theorem test_wrbyte : send (onTape (List.replicate 41 .master)) 0x4404 = [0x00, 0x00, 0xFF, 0x00, 0x00, 0x00, 0xFF, 0x00] := by
  decide +kernel
/-- V26. -/
theorem test_rdbyte : ask (onTape ([0xFE, 0xFF, 0xFF, 0xFE, 0xFE, 0xFE, 0xFF, 0xFE].flatMap (fun v =>
    [.master, .deposit v, .master]) ++ [.master])) 0x05 = some 0x4600 := by decide +kernel
/-- V27: three slots sent. -/
theorem test_rdbyte_expired : send (onTape ([0xFF, 0xFE].flatMap (fun v => [.master, .deposit v, .master]) ++
    List.replicate 6 .master)) 0x05 = [0xFF, 0xFF, 0xFF] := by decide +kernel
/-- V31, pass 1. -/
theorem test_search_first : ask (onBus (busOf [codeA, codeB])) 0x06 = some 0xDB0F0E0D0C0B0A100100 := by decide +kernel
/-- V31, pass 2: the branch forced at position 3, and the last device. -/
theorem test_search_second : let t := after (step (request afterB 0x06))
    (answer t, t.lastDiscrepancy, t.lastFamilyDiscrepancy, t.lastDeviceFlag) =
      (some 0x9E060504030201280200, 0, 4, true) := by decide +kernel
/-- V41. -/
theorem test_asearch : answer (after (exec .asearch (onBus alarmBus))) = some 0x70000000000002280100 := by decide +kernel
/-- V1: the first of SCAN's passes. -/
theorem test_scan_first_pass : let t := after (step (request (onBus (busOf [codeA, codeB])) 0x07))
    (t.busy, t.point, t.deviceCount, t.entry 0, answer t) = (true, .scanLoop, 1, codeB, none) := by decide +kernel
/-- V43. -/
theorem test_scan_empty : ask (onBus (busOf [])) 0x07 = some 0x01 := by decide +kernel
/-- V40: nobody alarmed. -/
theorem test_ascan_nobody : answer (after (exec .ascan (onBus (busOf [codeD1, codeD2])))) = some 0x03 := by decide +kernel
/-- V50: the last byte, 0x9E. -/
theorem test_matchrom_last_byte : (send (onBus (busOf [codeA])) 0x9E060504030201280008).drop 66 =
    [0x00, 0xFF, 0xFF, 0xFF, 0xFF, 0x00, 0x00, 0xFF] := by decide +kernel
/-- V54. -/
theorem test_matchrom_empty : send (onBus (busOf [])) 0x9E060504030201280008 = [0xF0, 0xFF] := by decide +kernel
/-- V51. -/
theorem test_skiprom : send (onBus (busOf [codeA])) 0x09 =
    [0xF0, 0xFF, 0x00, 0x00, 0xFF, 0xFF, 0x00, 0x00, 0xFF, 0xFF] := by decide +kernel
/-- V52. -/
theorem test_readrom : ask (onBus (busOf [codeA])) 0x0A = some 0x9E060504030201280000 := by decide +kernel
/-- V53: the AND of two codes. -/
theorem test_readrom_two : ask (onBus (busOf [codeA, codeB])) 0x0A = some 0x9A060404000200000004 := by decide +kernel
/-- V60. -/
theorem test_clrstate : let t := after (step (request afterB 0x0B))
    (answer t, t.lastDiscrepancy, t.deviceCount, t.scratch, t.entry 0, t.echoBuffer) = (some 0, 0, 0, 0, 0, 0) := by
  decide +kernel
/-- V16. -/
theorem test_crc8 : ask (onBus (busOf [])) 0x9E06050403020128000C = some 0x9E00 := by decide +kernel
/-- V16: a wrong eighth byte. -/
theorem test_crc8_mismatch : ask (onBus (busOf [])) 0x0006050403020128000C = some 0x9E04 := by decide +kernel
/-- V11, V12. -/
theorem test_crc8_values : crc8 [0x28] = 0xE1 ∧ crc8 [0x31, 0x32, 0x33, 0x34, 0x35, 0x36, 0x37, 0x38, 0x39] = 0xA1 ∧
    crc8 [] = 0x00 := by decide +kernel
/-- V61. -/
theorem test_getstate : ask afterB 0x0D = some 0x00000000FF0404000100 := by decide +kernel
/-- V63. -/
theorem test_getdev : ask afterB 0x000E = some 0xDB0F0E0D0C0B0A100000 := by decide +kernel
/-- V63: the index that equals the count. -/
theorem test_getdev_range : ask afterB 0x010E = some 0x0108 := by decide +kernel
/-- V62. -/
theorem test_getscr : ask afterB 0x0F = some 0xDB0F0E0D0C0B0A100000 := by decide +kernel
/-- V64. -/
theorem test_unassigned : ask afterB 0xFFFFFFFFFFFFFFFFFF7F = some 0x07 := by decide +kernel
/-- The bytes an instruction sends, every wait expiring. -/
def spelled (i : Instr) : List Byte := sentInOrder (after (exec i (onTape (List.replicate 40 .master)))).trace

/-- V23. -/
theorem test_wr0 : spelled .wr0 = [0x00] := by decide
theorem test_wr1 : spelled .wr1 = [0xFF] := by decide
/-- V8, V40. -/
theorem test_wSearchRom : spelled .wSearchRom = [0x00, 0x00, 0x00, 0x00, 0xFF, 0xFF, 0xFF, 0xFF] := by decide +kernel
theorem test_wAlarmSearch : spelled .wAlarmSearch = [0x00, 0x00, 0xFF, 0xFF, 0x00, 0xFF, 0xFF, 0xFF] := by decide +kernel
theorem test_wSkipRom : spelled .wSkipRom = [0x00, 0x00, 0xFF, 0xFF, 0x00, 0x00, 0xFF, 0xFF] := by decide +kernel
theorem test_wReadRom : spelled .wReadRom = [0xFF, 0xFF, 0x00, 0x00, 0xFF, 0xFF, 0x00, 0x00] := by decide +kernel
theorem test_wMatchRom : spelled .wMatchRom = [0xFF, 0x00, 0xFF, 0x00, 0xFF, 0x00, 0xFF, 0x00] := by decide +kernel
/-- 30_encoding.md R100, row by row. -/
theorem test_sResetPulse : let t := after (exec .sResetPulse (onTape [.master, .master, .deposit 0x00, .master]))
    (t.baud, sentInOrder t.trace, t.slot) = (some .reset, [0xF0], .discarded) := by decide
theorem test_sProbe : let t := after (exec .sProbe (onTape [.master, .master, .deposit 0xFE, .master]))
    (t.baud, sentInOrder t.trace, t.slot) = (some .slot, [0xFF], .presence true) := by decide
theorem test_sWrite0 : let t := after (exec .sWrite0 (onTape [.master, .deposit 0x00, .master]))
    (sentInOrder t.trace, t.slot) = ([0x00], .discarded) := by decide
theorem test_sWrite1 : let t := after (exec .sWrite1 (onTape [.master, .deposit 0x00, .master]))
    (sentInOrder t.trace, t.slot) = ([0xFF], .discarded) := by decide
theorem test_sRead : let t := after (exec .sRead (onTape [.master, .deposit 0xFE, .master]))
    (sentInOrder t.trace, t.slot) = ([0xFF], .bit false) := by decide

/-! ### The machine between commands -/

/-- 10_state.md R33. -/
theorem test_accept : let t := after (step { onTape [.master] with pending := [0x0D] })
    (t.busy, t.req, t.pending) = (true, 0x0D, []) := by decide
/-- 70_reset_and_hazards.md R240, V65: the reset input in the middle of RDBIT. -/
theorem test_hardware_reset : let t := after (step (request (onTape [.master, .deposit 0x55, .reset]) 0x03))
    (t.busy, t.echoBuffer, answer t) = (false, 0, none) := by decide

/-! ### Witnesses: states and operands that meet the hypotheses of each statement -/

/-- Waits: an echo at the last poll the bound admits, one at the first, none. -/
def last (v : Byte) : Draw := .echo 3 v
def first (v : Byte) : Draw := .echo 0 v

/-- The instruction has a next state there. -/
def runs (i : Instr) (s : State) : Prop := ∃ t, exec i s = .next t

/-- The tape `l` ahead. -/
def ahead (s : State) (l : List Move) : State := { s with tape := l }

/-- SCAN at the head of its loop, one code found. -/
def inLoop : State :=
  { afterB with
    busy := true
    req := 0x07
    point := .scanLoop }

/-- The table full with one code: the next pass overflows it. -/
def full : State := { afterB with cfg := { Config.default with maxDevices := 1 } }

/-- The last code found. -/
def done : State :=
  { afterB with
    lastDiscrepancy := 0
    lastDeviceFlag := true }

/-- The table overflowed. -/
def overflowed : State := { full with hasMoreDevices := true }

theorem inv_ahead (s : State) (l : List Move) (h : StateInv s) : StateInv (ahead s l) :=
  ⟨h.cfg_wf, h.count_le, h.discrepancy_le, h.family_le, h.last_device, h.entries_valid, h.store_wf, h.store_bounded,
    h.in_loop, h.sim_wf⟩

theorem inv_afterB : StateInv afterB := by constructor <;> decide +kernel
theorem inv_inLoop : StateInv inLoop := by constructor <;> decide +kernel
theorem inv_full : StateInv full := by constructor <;> decide +kernel
theorem inv_done : StateInv done := by constructor <;> decide +kernel
theorem inv_overflowed : StateInv overflowed := by constructor <;> decide +kernel

theorem live_of (s : State) (h : s.tape = []) : s.live := by simp [State.live, h]

theorem prompt_of (s : State) (sb : SimBus) (h : s.sim = some sb) (hl : s.tape = []) (hf : s.inFlight = [])
    (hc : s.cfg = Config.default) (hp : sb.pull = 0xFE) : PromptSimBus s sb :=
  ⟨h, hl, hf, by rw [hc]; decide, by rw [hp]; decide, by rw [hc, hp]; decide⟩

theorem witness_DecodeEncodeRoundTrip : (Instr.unassigned 0x10).wellFormed = true ∧ (Instr.getdev 0xFF).wellFormed = true ∧
    (Instr.matchrom codeA).wellFormed = true := by decide
theorem witness_RequestFieldsAndCodes :
    ∀ op ∈ [(0x00 : Byte), 0x10, 0xFF], op = 0x00 ∨ 0x10 ≤ op.toNat := by decide
theorem witness_StepRunsRequest :
    ((request afterB 0x0D).busy = true ∧ decode (request afterB 0x0D).req = .getstate) ∧
    (Instr.crc8 codeA).wellFormed = true ∧ encode (.crc8 codeA) = some 0x9E06050403020128000C := by decide
theorem witness_Acceptance :
    (afterB.busy = false ∧ (ahead afterB [.master]).tape = .master :: []) ∧
    ({ afterB with pending := [0x0D, 0x01] }).pending = 0x0D :: [0x01] ∧ afterB.pending = [] ∧
    runs .rdbit inLoop ∧ inLoop.live := ⟨⟨rfl, rfl⟩, rfl, rfl, ⟨_, rfl⟩, live_of _ rfl⟩
theorem witness_RequestStable :
    (afterB.busy = false ∧ (ahead afterB [Move.master]).tape = Move.master :: [] ∧
      ({ afterB with pending := [0x0D, 0x01] }).pending = 0x0D :: [0x01]) ∧ inLoop.busy = true ∧
    runs (.scan false) inLoop ∧ runs .rdbit afterB ∧ inLoop.live :=
  ⟨⟨rfl, rfl, rfl⟩, rfl, ⟨_, rfl⟩, ⟨_, rfl⟩, live_of _ rfl⟩
theorem witness_OneResponse :
    (isRequest (.search true) = true ∧ isScan (.search true) = false ∧ StateInv full ∧ full.live) ∧
    (isRequest .ascan = true ∧ isScan .ascan = true ∧ StateInv inLoop ∧ inLoop.live) :=
  ⟨⟨rfl, rfl, inv_full, live_of _ rfl⟩, rfl, rfl, inv_inLoop, live_of _ rfl⟩
theorem witness_ResetAndClearValues : Memory.wf afterB.store = true ∧ 9 < afterB.cfg.maxDevices := by decide +kernel
theorem witness_HardwareReset :
    (StateInv (ahead inLoop [.reset]) ∧ isRequest (.scan false) = true ∧ (ahead inLoop [.reset]).tape = .reset :: []) ∧
    ((ahead afterB [.reset]).busy = false ∧ (ahead afterB [.reset]).tape = .reset :: []) ∧
    (isRequest .rdbit = true ∧ Move.reset ∉ [Move.master] ∧
      (ahead afterB [.master, .reset]).tape = [Move.master] ++ .reset :: [] ∧ runs .rdbit (ahead afterB [.master, .reset]) ∧
      Move.reset ∉ [Move.master, .deposit 0x00, .master, .master] ∧
      (ahead afterB [.master, .deposit 0x00, .master, .master, .reset]).tape =
        [Move.master, .deposit 0x00, .master, .master] ++ .reset :: [] ∧
      runs .rdbit (ahead afterB [.master, .deposit 0x00, .master, .master, .reset])) :=
  ⟨⟨inv_ahead _ _ inv_inLoop, rfl, rfl⟩, ⟨rfl, rfl⟩, rfl, by decide, rfl, ⟨_, rfl⟩, by decide, rfl, _, rfl⟩
theorem witness_ResetReachesNothingElse :
    let s := ahead { afterB with inFlight := [0x55] } [.reset, .echo, .master]
    StateInv s ∧ isRequest .rdbit = true ∧ s.tape = .reset :: [.echo, .master] ∧ runs .rdbit s ∧
      (after (exec .rdbit s)).inFlight = 0x55 :: [] ∧ (after (exec .rdbit s)).pending = [] :=
  ⟨⟨inv_afterB.cfg_wf, inv_afterB.count_le, inv_afterB.discrepancy_le, inv_afterB.family_le, inv_afterB.last_device,
    inv_afterB.entries_valid, inv_afterB.store_wf, inv_afterB.store_bounded, inv_afterB.in_loop, inv_afterB.sim_wf⟩,
    rfl, rfl, ⟨_, rfl⟩, by decide, by decide⟩
theorem witness_ClrstateCommand : Memory.wf afterB.store = true ∧
    (ahead afterB [.master, .deposit 0x7F, .master]).tape =
      .master :: (((some 0x7F).map Move.deposit).toList ++ .master :: []) ∧
    (ahead afterB [.master, .master]).tape = .master :: (((none : Option Byte).map Move.deposit).toList ++ .master :: []) := by
  decide +kernel
theorem witness_InvariantKept : StateInv inLoop ∧ ∃ t, step inLoop = .next t := ⟨inv_inLoop, _, rfl⟩
theorem witness_InvariantAtReset : (Config.mk 255 1 0x00 0x00 0x00).wf = true ∧ (Config.mk 1 1 0xFF 0xFF 0xFF).wf = true ∧
    (0xFE : Byte) ≠ 0xFF ∧ (0x00 : Byte) ≠ 0xFF := by
  decide
theorem witness_NoInstructionStops : StateInv full ∧ 0 < full.deviceCount.toNat := ⟨inv_full, by decide⟩
theorem witness_CommandsThatKeepBusState : keepsBusState (.crc8 codeA) = true ∧ afterB.live ∧ runs (.crc8 codeA) afterB :=
  ⟨rfl, live_of _ rfl, _, rfl⟩
theorem witness_CommandsWithoutChannelEvents : ((Instr.unassigned 0x10) = .clrstate ∨ (Instr.unassigned 0x10) = .getstate ∨
      (Instr.unassigned 0x10) = .getscr ∨ (∃ k, (Instr.unassigned 0x10) = .getdev k) ∨
      (∃ r, (Instr.unassigned 0x10) = .crc8 r) ∨ ∃ op, (Instr.unassigned 0x10) = .unassigned op) ∧
    runs (.unassigned 0x10) afterB := ⟨by simp, _, rfl⟩
theorem witness_LayerRowsKeepTheBlock : isRequest .wSkipRom = false ∧ afterB.live ∧ runs .wSkipRom afterB ∧
    Instr.layer .wSkipRom = .romByte ∧ isRequest .sRead = false ∧ runs .sRead afterB := ⟨rfl, live_of _ rfl, ⟨_, rfl⟩, rfl, rfl, _, rfl⟩
/-- The pass appends at 16 to 23: address 8 and 24 are outside. -/
theorem witness_SearchFrame : afterB.live ∧ runs (.search false) afterB ∧
    (after (exec (.search false) afterB)).deviceCount = afterB.deviceCount + 1 ∧
    ∀ a ∈ [8, 15, 24], 8 ≤ a ∧ ¬ (entryAddr afterB.deviceCount.toNat ≤ a ∧ a < entryAddr afterB.deviceCount.toNat + 8) :=
  ⟨live_of _ rfl, ⟨_, rfl⟩, by decide +kernel, by decide⟩
theorem witness_ScanFrame : isScan (.scan false) = true ∧ Memory.wf inLoop.store = true ∧ inLoop.live ∧
    inLoop.point = .scanLoop ∧ runs (.scan false) inLoop ∧ Memory.wf afterB.store = true ∧ afterB.live ∧
    afterB.point = .start ∧ runs (.scan false) afterB :=
  ⟨rfl, by decide +kernel, live_of _ rfl, rfl, ⟨_, rfl⟩, by decide +kernel, live_of _ rfl, rfl, _, rfl⟩

theorem tape_ahead (s : State) (l : List Move) : (ahead s l).tape = l := rfl
theorem admits_last (v : Byte) : (last v).admits 4 := show (3 : Nat) < 4 by decide
theorem admits_first (v : Byte) : (first v).admits 4 := show (0 : Nat) < 4 by decide
theorem admits_replicate (n T : Nat) (d : Draw) (h : d.admits T) : ∀ d' ∈ List.replicate n d, d'.admits T :=
  fun d' h' => by rw [List.eq_of_mem_replicate h']; exact h

/-- A reset that finds presence. -/
def pulse : Draw := last 0xF0
def presence : Draw := first 0xFE
/-- Write slots. -/
def slots (n : Nat) : List Draw := List.replicate n (last 0x00)
/-- Read slots, each answered at the last poll. -/
def reads (bits : List Bool) : List (Nat × Byte) := bits.map fun b => (3, if b then 0xFF else 0x7F)

theorem witness_AwaitEchoOutcomes :
    (3 < afterB.cfg.readTimeout ∧ afterB.echoReady = false ∧
      (ahead afterB [Move.master, Move.master, Move.master, .deposit 0x55, Move.master]).tape =
        List.replicate 3 Move.master ++ .deposit 0x55 :: Move.master :: []) ∧
    (1 ≤ afterB.cfg.readTimeout ∧ (afterB.deposit 0x55).echoReady = true ∧ (ahead (afterB.deposit 0x55) [Move.master]).tape =
      Move.master :: []) ∧
    (ahead afterB [Move.master, Move.master, Move.master, Move.master]).tape = List.replicate afterB.cfg.readTimeout Move.master ++ [] :=
  ⟨⟨by decide, rfl, tape_ahead _ _⟩, ⟨by decide, rfl, tape_ahead _ _⟩, tape_ahead _ _⟩
theorem witness_XferOutcomes : (last 0x7F).admits 4 ∧ Draw.expired.admits 4 ∧
    (ahead afterB ((last 0x7F).moves 4)).tape = (last 0x7F).moves 4 ++ [] := ⟨admits_last _, trivial, by decide⟩
theorem witness_ResetCommand :
    (pulse.admits 4 ∧ presence.admits 4 ∧ (first 0xFF).admits 4 ∧ Draw.expired.admits 4 ∧
      (ahead afterB (resetMoves 4 pulse presence ++ [Move.master])).tape = resetMoves 4 pulse presence ++ Move.master :: [] ∧
      (ahead afterB (resetMoves 4 .expired presence ++ [Move.master])).tape = resetMoves 4 .expired presence ++ Move.master :: []) ∧
    PromptSimBus (onBus (busOf [])) (busOf []) ∧ PromptSimBus (onBus (busOf [codeA])) (busOf [codeA]) :=
  ⟨⟨admits_last _, admits_first _, admits_first _, trivial, tape_ahead _ _, tape_ahead _ _⟩, prompt_of _ _ rfl rfl rfl rfl rfl,
    prompt_of _ _ rfl rfl rfl rfl rfl⟩
theorem witness_WriteBitCommands : (last 0x00).admits 4 ∧ Draw.expired.admits 4 ∧
    (ahead afterB ((last 0x00).moves 4 ++ [Move.master])).tape = (last 0x00).moves 4 ++ Move.master :: [] :=
  ⟨admits_last _, trivial, tape_ahead _ _⟩
theorem witness_ReadBitCommand : (last 0xFF).admits 4 ∧ (last 0x7F).admits 4 ∧ Draw.expired.admits 4 ∧
    (ahead afterB (Draw.expired.moves 4 ++ [Move.master])).tape = Draw.expired.moves 4 ++ Move.master :: [] :=
  ⟨admits_last _, admits_last _, trivial, tape_ahead _ _⟩
theorem witness_WriteByteCommand : (slots 8).length = 8 ∧ (∀ d ∈ slots 8, d.admits 4) ∧
    (ahead afterB (drawMoves 4 (slots 8) ++ [Move.master])).tape = drawMoves 4 (slots 8) ++ Move.master :: [] :=
  ⟨rfl, admits_replicate _ _ _ (admits_last _), tape_ahead _ _⟩
theorem witness_ReadByteCommand :
    ((reads (bitsOfByte 0x46)).length = 8 ∧ (∀ x ∈ reads (bitsOfByte 0x46), x.1 < 4) ∧
      (ahead afterB (drawMoves 4 (echoDraws (reads (bitsOfByte 0x46))) ++ [Move.master])).tape =
        drawMoves 4 (echoDraws (reads (bitsOfByte 0x46))) ++ Move.master :: [] ∧
      ∀ i < 8, (0x46 : Byte).getLsbD i = (((reads (bitsOfByte 0x46)).map Prod.snd)[i]? == some 0xFF)) ∧
    ([] : List (Nat × Byte)).length < 8 ∧ (reads (List.replicate 7 true)).length < 8 ∧
    (∀ x ∈ reads (List.replicate 7 true), x.1 < 4) ∧
    (ahead afterB (drawMoves 4 (echoDraws (reads (List.replicate 7 true)) ++ [Draw.expired]) ++ [Move.master])).tape =
      drawMoves 4 (echoDraws (reads (List.replicate 7 true)) ++ [Draw.expired]) ++ Move.master :: [] :=
  ⟨⟨rfl, by decide, tape_ahead _ _, by decide +kernel⟩, by decide, by decide, by decide, tape_ahead _ _⟩
theorem witness_LateEcho :
    ((last 0xFF).admits 4 ∧ (ahead afterB (.deposit 0x12 :: (last 0xFF).moves 4)).tape =
      .deposit 0x12 :: ((last 0xFF).moves 4 ++ [])) ∧
    1 ≤ afterB.cfg.readTimeout ∧ (ahead afterB [Move.master, .deposit 0x12, Move.master, .deposit 0xFF, Move.master]).tape =
      Move.master :: .deposit 0x12 :: Move.master :: .deposit 0xFF :: Move.master :: [] :=
  ⟨⟨admits_last _, by decide⟩, by decide, rfl⟩
theorem witness_MatchromCommand : pulse.admits 4 ∧ presence.admits 4 ∧
    resetResult Config.default pulse presence = some true ∧ (slots 72).length = 72 ∧ (∀ d ∈ slots 72, d.admits 4) ∧
    (ahead afterB (resetMoves 4 pulse presence ++ (drawMoves 4 (slots 72) ++ [Move.master]))).tape =
      resetMoves 4 pulse presence ++ (drawMoves 4 (slots 72) ++ Move.master :: []) :=
  ⟨admits_last _, admits_first _, by decide, by decide, admits_replicate _ _ _ (admits_last _), tape_ahead _ _⟩
theorem witness_SkipromCommand : pulse.admits 4 ∧ presence.admits 4 ∧
    resetResult Config.default pulse presence = some true ∧ (slots 8).length = 8 ∧ (∀ d ∈ slots 8, d.admits 4) ∧
    (ahead afterB (resetMoves 4 pulse presence ++ (drawMoves 4 (slots 8) ++ [Move.master]))).tape =
      resetMoves 4 pulse presence ++ (drawMoves 4 (slots 8) ++ Move.master :: []) :=
  ⟨admits_last _, admits_first _, by decide, by decide, admits_replicate _ _ _ (admits_last _), tape_ahead _ _⟩
/-- The bits of a code, position 0 first. -/
def bitsOf (r : Rom) : List Bool := (romBytes r).flatMap bitsOfByte
theorem witness_ReadromCommand :
    let kv := reads (bitsOf codeA)
    let short := reads (List.replicate 63 true)
    (pulse.admits 4 ∧ presence.admits 4 ∧ resetResult Config.default pulse presence = some true ∧ (slots 8).length = 8 ∧
      (∀ d ∈ slots 8, d.admits 4)) ∧
    (kv.length = 64 ∧ (∀ x ∈ kv, x.1 < 4) ∧ (∀ p < 64, codeA.getLsbD p = ((kv.map Prod.snd)[p]? == some 0xFF)) ∧
      (ahead afterB (resetMoves 4 pulse presence ++ (drawMoves 4 (slots 8) ++
        (drawMoves 4 (echoDraws kv) ++ [Move.master])))).tape = resetMoves 4 pulse presence ++ (drawMoves 4 (slots 8) ++
        (drawMoves 4 (echoDraws kv) ++ Move.master :: []))) ∧
    ([] : List (Nat × Byte)).length < 64 ∧ short.length < 64 ∧ (∀ x ∈ short, x.1 < 4) ∧
    (ahead afterB (resetMoves 4 pulse presence ++ (drawMoves 4 (slots 8) ++
      (drawMoves 4 (echoDraws short ++ [Draw.expired]) ++ [Move.master])))).tape =
      resetMoves 4 pulse presence ++ (drawMoves 4 (slots 8) ++
        (drawMoves 4 (echoDraws short ++ [Draw.expired]) ++ Move.master :: [])) :=
  ⟨⟨admits_last _, admits_first _, by decide, by decide, admits_replicate _ _ _ (admits_last _)⟩,
    ⟨by decide +kernel, by decide +kernel, by decide +kernel, tape_ahead _ _⟩, by decide, by decide +kernel, by decide +kernel, tape_ahead _ _⟩
/-- The opening of MATCHROM, SKIPROM, READROM without presence: an echo of `PROBE_BYTE`, and each wait expired. -/
theorem witness_opening :
    (pulse.admits 4 ∧ (first 0xFF).admits 4 ∧ resetResult Config.default pulse (first 0xFF) ≠ some true) ∧
    (Draw.expired.admits 4 ∧ resetResult Config.default .expired presence ≠ some true ∧
      resetResult Config.default pulse .expired ≠ some true) ∧
    (ahead afterB (resetMoves 4 pulse (first 0xFF) ++ [Move.master])).tape =
      resetMoves 4 pulse (first 0xFF) ++ Move.master :: [] :=
  ⟨⟨admits_last _, admits_first _, by decide⟩, ⟨trivial, by decide, by decide⟩, tape_ahead _ _⟩
theorem witness_AddressingIgnoresTheSearch :
    (Instr.matchrom codeA = .skiprom ∨ Instr.matchrom codeA = .readrom ∨ ∃ rom, Instr.matchrom codeA = .matchrom rom) ∧
    afterB.live := ⟨by simp, live_of _ rfl⟩
theorem witness_AddressingOnSimBus : PromptSimBus (onBus (busOf [codeA, codeB])) (busOf [codeA, codeB]) ∧
    (busOf [codeA, codeB]).devs ≠ [] ∧
    ∀ p < 64, (codeA &&& codeB).getLsbD p = (busOf [codeA, codeB]).devs.all fun d => d.rom.getLsbD p :=
  ⟨prompt_of _ _ rfl rfl rfl rfl rfl, by decide, by decide +kernel⟩
theorem witness_RomCommandBytes : romCommandByte afterB.cfg .wAlarmSearch = some 0xEC ∧ (slots 8).length = 8 ∧
    (∀ d ∈ slots 8, d.admits 4) ∧ (ahead afterB (drawMoves 4 (slots 8))).tape = drawMoves 4 (slots 8) ++ [] ∧
    (Config.mk 1 1 0 0 0x44).wf = true :=
  ⟨rfl, rfl, admits_replicate _ _ _ (admits_last _), rfl, rfl⟩
theorem witness_SlotSymbols : (last 0x7F).admits 4 ∧ Draw.expired.admits 4 ∧
    (ahead afterB ((last 0x7F).moves 4)).tape = (last 0x7F).moves 4 ++ [] ∧
    (ahead afterB (Move.master :: (last 0x7F).moves 4)).tape = Move.master :: ((last 0x7F).moves 4 ++ []) :=
  ⟨admits_last _, trivial, rfl, rfl⟩

/-! Search passes. -/

/-- Two reads, at the last poll and the first; the write's wait expires. -/
def pair (a b : Bool) : PositionDraws := ⟨(3, if a then 0xFF else 0xFE), (0, if b then 0xFF else 0x00), .expired⟩
/-- What A and B together answer where A's branch is taken. -/
def pairsA (n : Nat) : List PositionDraws :=
  (List.range n).map fun p => if p = 3 then pair false false else pair (codeA.getLsbD p) (!codeA.getLsbD p)
/-- 0, 0 at every position. -/
def open64 : List PositionDraws := List.replicate 64 (pair false false)
theorem admits_pairs (xs : List PositionDraws)
    (h : ∀ x ∈ xs, x.id.1 = 3 ∧ x.cmp.1 = 0 ∧ x.wr = .expired ∧ x.reads ≠ (true, true)) :
    ∀ x ∈ xs, x.admits 4 ∧ x.reads ≠ (true, true) := fun x hx => by
  obtain ⟨h1, h2, h3, h4⟩ := h x hx
  exact ⟨⟨by omega, by omega, by rw [h3]; trivial⟩, h4⟩
/-- The hypotheses on a script of a pass begun in `s` that takes the branches `r`. -/
def script (s : State) (r : Rom) (n : Nat) (xs : List PositionDraws) : Prop :=
  s.lastDeviceFlag = false ∧ Memory.wf s.store = true ∧ xs.length = n ∧
    (∀ x ∈ xs, x.admits s.cfg.readTimeout ∧ x.reads ≠ (true, true)) ∧ ∀ p < n, r.getLsbD p = s.chosen p (readsOf xs p)
theorem witness_script : script afterB codeA 64 (pairsA 64) ∧ script State.reset 0 64 open64 ∧
    script inLoop codeA 64 (pairsA 64) ∧ script full codeA 64 (pairsA 64) :=
  ⟨⟨by decide, by decide +kernel, by decide +kernel, admits_pairs _ (by decide +kernel), by decide +kernel⟩,
    ⟨by decide, by decide, by decide, admits_pairs _ (by decide +kernel), by decide +kernel⟩,
    ⟨by decide, by decide +kernel, by decide +kernel, admits_pairs _ (by decide +kernel), by decide +kernel⟩,
    ⟨by decide, by decide +kernel, by decide +kernel, admits_pairs _ (by decide +kernel), by decide +kernel⟩⟩
theorem witness_SearchPass : script afterB codeA 64 (pairsA 64) ∧ script State.reset 0 64 open64 ∧ pulse.admits 4 ∧
    presence.admits 4 ∧ resetResult Config.default pulse presence = some true ∧ (slots 8).length = 8 ∧
    (∀ d ∈ slots 8, d.admits 4) ∧
    (ahead afterB (passMoves 4 pulse presence (slots 8) (pairsA 64) ++ [Move.master])).tape =
      passMoves 4 pulse presence (slots 8) (pairsA 64) ++ Move.master :: [] :=
  ⟨witness_script.1, witness_script.2.1, admits_last _, admits_first _, by decide, by decide,
    admits_replicate _ _ _ (admits_last _), tape_ahead _ _⟩
theorem witness_SearchExhausted : (Instr.search true = .asearch ∨ ∃ alarm, Instr.search true = .search alarm) ∧
    done.lastDeviceFlag = true ∧ (ahead done [Move.master]).tape = Move.master :: [] := ⟨by simp, rfl, rfl⟩
theorem witness_SearchWithoutPresence : (Instr.search true = .asearch ∨ ∃ alarm, Instr.search true = .search alarm) ∧
    afterB.lastDeviceFlag = false ∧ pulse.admits 4 ∧ (first 0xFF).admits 4 ∧ Draw.expired.admits 4 ∧
    (ahead afterB (resetMoves 4 pulse (first 0xFF) ++ [Move.master])).tape = resetMoves 4 pulse (first 0xFF) ++ Move.master :: [] ∧
    resetResult Config.default pulse (first 0xFF) = some false ∧
    (ahead afterB (resetMoves 4 pulse .expired ++ [Move.master])).tape = resetMoves 4 pulse .expired ++ Move.master :: [] ∧
    resetResult Config.default pulse .expired = none :=
  ⟨by simp, rfl, admits_last _, admits_first _, trivial, tape_ahead _ _, by decide, tape_ahead _ _, by decide⟩
/-- At the first position and at the last. -/
theorem witness_SearchEndsEarly : script afterB codeA 63 (pairsA 63) ∧ script afterB codeA 0 [] ∧ (3 : Nat) < 4 ∧
    ∀ how : Fin 3, let l := passMoves 4 pulse presence (slots 8) (pairsA 63) ++ (drawMoves 4
      (if how = 0 then [.echo 3 0xFF, .echo 0 0xFF] else if how = 1 then [Draw.expired] else [.echo 3 0x00, .expired]) ++
        Move.master :: [])
      (ahead afterB l).tape = l :=
  ⟨⟨by decide, by decide +kernel, by decide +kernel, admits_pairs _ (by decide +kernel), by decide +kernel⟩,
    ⟨by decide, by decide +kernel, rfl, by simp, by simp⟩, by decide, fun _ => tape_ahead _ _⟩
/-- The outcome of a pass. -/
def outcome (r : EStateM.Result Stop State Outcome) : Option Outcome :=
  match r with
  | .ok o _ => some o
  | .error _ _ => none
theorem passes_of (alarm : Bool) (s : State) (o : Outcome) (h : outcome (searchPass alarm s) = some o) :
    ∃ t, searchPass alarm s = .ok o t := by
  cases hr : searchPass alarm s with
  | ok o' t => rw [hr] at h; cases h; exact ⟨t, rfl⟩
  | error _ _ => rw [hr] at h; cases h
/-- One state for each outcome. -/
theorem witness_SearchResponses :
    (∃ t, searchPass false afterB = .ok (.found codeA) t) ∧ (∃ t, searchPass false full = .ok (.tableFull codeA) t) ∧
    (∃ t, searchPass false done = .ok .exhausted t) ∧ (∃ t, searchPass false (onBus (busOf [])) = .ok .noDevices t) ∧
    (∃ t, searchPass true afterB = .ok .busError t) ∧ (∃ t, searchPass false (onBus (busOf [0x28])) = .ok .crcMismatch t) ∧
    ∃ t, searchPass false (onTape (List.replicate 9 Move.master)) = .ok .timeout t :=
  ⟨passes_of _ _ _ (by decide +kernel), passes_of _ _ _ (by decide +kernel), passes_of _ _ _ (by decide +kernel),
    passes_of _ _ _ (by decide +kernel), passes_of _ _ _ (by decide +kernel), passes_of _ _ _ (by decide +kernel),
    passes_of _ _ _ (by decide +kernel)⟩
/-- The same at the head of SCAN's loop, and its first pass. -/
theorem witness_ScanResponses :
    (inLoop.point = .scanLoop ∧ (∃ t, searchPass false inLoop = .ok (.found codeA) t) ∧
      (∃ t, searchPass true inLoop = .ok .busError t)) ∧
    (full.setPoint .scanLoop).point = .scanLoop ∧
    (∃ t, searchPass false (full.setPoint .scanLoop) = .ok (.tableFull codeA) t) ∧
    (∃ t, searchPass false (done.setPoint .scanLoop) = .ok .exhausted t) ∧
    (∃ t, searchPass false ((onBus (busOf [])).setPoint .scanLoop) = .ok .noDevices t) ∧
    (∃ t, searchPass false ((onBus (busOf [0x28])).setPoint .scanLoop) = .ok .crcMismatch t) ∧
    (∃ t, searchPass false ((onTape (List.replicate 9 Move.master)).setPoint .scanLoop) = .ok .timeout t) ∧
    (ahead afterB [Move.master]).point = .start ∧ tick (ahead afterB [Move.master]) = .ok () (ahead afterB []) ∧
    ∃ t, searchPass false (ahead afterB []).clear = .ok (.found codeB) t :=
  ⟨⟨rfl, passes_of _ _ _ (by decide +kernel), passes_of _ _ _ (by decide +kernel)⟩, rfl,
    passes_of _ _ _ (by decide +kernel), passes_of _ _ _ (by decide +kernel), passes_of _ _ _ (by decide +kernel),
    passes_of _ _ _ (by decide +kernel), passes_of _ _ _ (by decide +kernel), rfl, rfl,
    passes_of _ _ _ (by decide +kernel)⟩
theorem witness_ScanPass :
    (inLoop.point = .scanLoop ∧ script inLoop codeA 64 (pairsA 64) ∧ pulse.admits 4 ∧ presence.admits 4 ∧
      resetResult Config.default pulse presence = some true ∧ (slots 8).length = 8 ∧ (∀ d ∈ slots 8, d.admits 4) ∧
      (ahead inLoop (passMoves 4 pulse presence (slots 8) (pairsA 64) ++ [Move.master])).tape =
        passMoves 4 pulse presence (slots 8) (pairsA 64) ++ Move.master :: []) ∧
    (script full codeA 64 (pairsA 64) ∧ romValid codeA = true ∧ full.cfg.maxDevices ≤ full.deviceCount.toNat) ∧
    isScan .ascan = true ∧ (done.setPoint .scanLoop).point = .scanLoop ∧ done.lastDeviceFlag = true ∧
    (ahead done [Move.master]).tape = Move.master :: [] :=
  ⟨⟨rfl, witness_script.2.2.1, admits_last _, admits_first _, by decide, by decide,
    admits_replicate _ _ _ (admits_last _), tape_ahead _ _⟩, ⟨witness_script.2.2.2, by decide +kernel, by decide⟩, rfl, rfl, rfl, rfl⟩
/-- SimBus about to answer the first position. -/
def searching : State :=
  { afterB with
    baud := some .slot
    sim := some ⟨[], .searchId 0 [⟨codeA, false⟩], 0xFE⟩ }
/-- The loop has run all its positions. -/
def complete (r : EStateM.Result Stop State (Option Work)) : Bool :=
  match r with
  | .ok (some _) _ => true
  | .ok none _ => false
  | .error _ _ => false
theorem complete_of (r : EStateM.Result Stop State (Option Work)) (h : complete r = true) : ∃ w t, r = .ok (some w) t := by
  rcases r with ⟨_ | w, t⟩ | _
  · cases h
  · exact ⟨w, t, rfl⟩
  · cases h
theorem witness_PassAccumulator : Memory.wf searching.store = true ∧
    ∃ w t, searchLoop 64 Work.init searching = .ok (some w) t :=
  ⟨by decide +kernel, complete_of _ (by decide +kernel)⟩
/-- An empty bus, one with devices none of which is alarmed, and one with devices that take part. -/
theorem witness_SearchOnSimBus :
    (PromptSimBus (onBus (busOf [])) (busOf []) ∧ Memory.wf (onBus (busOf [])).store = true ∧
      (onBus (busOf [])).lastDeviceFlag = false) ∧
    (PromptSimBus afterB (busOf [codeA, codeB]) ∧ Memory.wf afterB.store = true ∧ afterB.lastDeviceFlag = false ∧
      (busOf [codeA, codeB]).devs ≠ [] ∧ participants (busOf [codeA, codeB]) true = [] ∧
      participants (busOf [codeA, codeB]) false ≠ []) :=
  ⟨⟨prompt_of _ _ rfl rfl rfl rfl rfl, by decide, by decide⟩, prompt_of _ _ rfl rfl rfl rfl rfl, by decide +kernel,
    by decide, by decide, by decide, by decide⟩
theorem B_before_A : codeBefore codeB codeA := ⟨3, by decide, by decide, by decide, by decide⟩
/-- A fresh start, of which B is the first code; after B, of which A is the next. -/
theorem witness_SearchEnumeratesInOrder :
    let P := participants (busOf [codeA, codeB]) false
    (PromptSimBus (onBus (busOf [codeA, codeB])) (busOf [codeA, codeB]) ∧ Memory.wf State.reset.store = true ∧
      (∃ d ∈ P, d.rom = codeB) ∧ romValid codeB = true ∧ State.reset.lastDiscrepancy = 0 ∧
      ∀ d ∈ P, d.rom = codeB ∨ codeBefore codeB d.rom) ∧
    (PromptSimBus afterB (busOf [codeA, codeB]) ∧ Memory.wf afterB.store = true ∧ afterB.lastDeviceFlag = false ∧
      (∃ d ∈ P, d.rom = codeA) ∧ romValid codeA = true ∧ (∃ d ∈ P, d.rom = afterB.scratch) ∧
      afterB.lastDiscrepancy ≠ 0 ∧ afterB.lastDiscrepancy.toNat = lastOpen afterB.scratch (simReads P afterB.scratch) 64 ∧
      codeBefore afterB.scratch codeA ∧
      ∀ d ∈ P, codeBefore afterB.scratch d.rom → d.rom = codeA ∨ codeBefore codeA d.rom) := by
  have hs : afterB.scratch = codeB := by decide +kernel
  have hn : ¬ codeBefore codeB codeB := fun ⟨p, _, _, h0, h1⟩ => by rw [h0] at h1; cases h1
  intro P
  have hP : P = [⟨codeA, false⟩, ⟨codeB, false⟩] := rfl
  refine ⟨⟨prompt_of _ _ rfl rfl rfl rfl rfl, by decide, by decide, by decide +kernel, by decide, ?_⟩,
    prompt_of _ _ rfl rfl rfl rfl rfl, by decide +kernel, by decide, by decide, by decide +kernel, by decide +kernel,
    by decide, by decide +kernel, ?_, ?_⟩
  · simp [hP, B_before_A]
  · rw [hs]; exact B_before_A
  · simp [hP, hs, hn]
/-- SCAN just accepted, on A and B. -/
def scanning : State :=
  { onBus (busOf [codeA, codeB]) with
    busy := true
    req := 0x07 }
theorem witness_ScanFindsAllDevices : PromptSimBus scanning (busOf [codeA, codeB]) ∧ Memory.wf scanning.store = true ∧
    scanning.busy = true ∧ scanning.point = .start ∧ decode scanning.req = .scan false ∧
    (∀ r, r ∈ [codeB, codeA] ↔ ∃ d ∈ participants (busOf [codeA, codeB]) false, d.rom = r) ∧
    [codeB, codeA].Pairwise codeBefore ∧ [codeB, codeA] ≠ [] ∧ (∀ r ∈ [codeB, codeA], romValid r = true) ∧
    [codeB, codeA].length ≤ scanning.cfg.maxDevices :=
  ⟨prompt_of _ _ rfl rfl rfl rfl rfl, by decide, rfl, rfl, by decide,
    fun r => by
      show r ∈ [codeB, codeA] ↔ ∃ d ∈ [⟨codeA, false⟩, Device.mk codeB false], d.rom = r
      simp only [List.mem_cons, List.not_mem_nil, or_false, exists_eq_or_imp, exists_eq_left]
      tauto,
    List.Pairwise.cons (by simpa using B_before_A) (List.pairwise_singleton _ _), List.cons_ne_nil _ _,
    by simp only [List.forall_mem_cons, List.not_mem_nil, false_implies, implies_true, and_true]; decide +kernel,
    by decide⟩

/-! Observation, and the rules of the whole machine. -/

theorem witness_Crc8Command : (ahead afterB [Move.master]).tape = Move.master :: [] := rfl
theorem witness_GetstateCommand : (ahead afterB [Move.master, Move.master]).tape = Move.master :: Move.master :: [] := rfl
theorem witness_GetscrCommand : (ahead afterB [Move.master]).tape = Move.master :: [] := rfl
/-- The last entry, the index that equals the count, and the greatest index. -/
theorem witness_GetdevCommand : (ahead full [Move.master]).tape = Move.master :: [] ∧
    ((0 : Byte).toNat < full.deviceCount.toNat ∧ full.deviceCount.toNat ≤ full.cfg.maxDevices) ∧
    full.deviceCount.toNat ≤ (1 : Byte).toNat ∧ full.deviceCount.toNat ≤ (0xFF : Byte).toNat := by decide
theorem witness_UnassignedCommand : ∀ op ∈ [(0x00 : Byte), 0x10, 0xFF],
    let s := request (ahead afterB [Move.master]) (reqWord op 0xAA codeA)
    (op = 0x00 ∨ 0x10 ≤ op.toNat) ∧ s.busy = true ∧ s.req = reqWord op 0xAA codeA ∧ s.tape = Move.master :: [] := by decide
theorem witness_LastDeviceFlagStays : done.live ∧ runs (.search false) done ∧ done.lastDeviceFlag = true :=
  ⟨live_of _ rfl, ⟨_, rfl⟩, rfl⟩
theorem runs_with (i : Instr) (s : State) (P : State → Prop) (h : runs i s) (hp : P (after (exec i s))) :
    ∃ t, exec i s = .next t ∧ P t := by
  obtain ⟨t, ht⟩ := h
  rw [ht] at hp
  exact ⟨t, ht, hp⟩
theorem witness_HasMoreDevicesRule :
    (StateInv full ∧ full.live ∧ full.hasMoreDevices = false ∧
      ∃ t, exec (.search false) full = .next t ∧ t.hasMoreDevices = true) ∧
    (StateInv overflowed ∧ overflowed.live ∧ overflowed.hasMoreDevices = true ∧
      ∃ t, exec .clrstate overflowed = .next t ∧ t.hasMoreDevices = false) :=
  ⟨⟨inv_full, live_of _ rfl, rfl, runs_with _ _ (·.hasMoreDevices = true) ⟨_, rfl⟩ (by decide +kernel)⟩,
    inv_overflowed, live_of _ rfl, rfl, runs_with _ _ (·.hasMoreDevices = false) ⟨_, rfl⟩ (by decide +kernel)⟩
theorem witness_DeviceCountRule : StateInv afterB ∧ afterB.live ∧
    (∃ t, exec (.search false) afterB = .next t ∧ t.deviceCount = 2) ∧
    ∃ t, exec (.scan false) afterB = .next t ∧ t.deviceCount = 1 :=
  ⟨inv_afterB, live_of _ rfl, runs_with _ _ (·.deviceCount = 2) ⟨_, rfl⟩ (by decide +kernel),
    runs_with _ _ (·.deviceCount = 1) ⟨_, rfl⟩ (by decide +kernel)⟩
theorem witness_MailboxHoldsTheLastDeposit : afterB.live ∧ (Instr.search false) ≠ .clrstate ∧
    ¬ (isScan (.search false) = true ∧ afterB.point = .start) ∧ runs (.search false) afterB :=
  ⟨live_of _ rfl, by decide, by decide, _, rfl⟩
theorem witness_OnlySlotSymbolsAreSent : runs (.search false) afterB := ⟨_, rfl⟩
theorem witness_SlotRateStays : isRequest .readrom = true ∧ afterB.live ∧ runs .readrom afterB ∧
    isRequest .wr0 = true ∧ runs .wr0 afterB ∧ (isScan (.scan true) = true ∧ afterB.point = .start) ∧
    runs (.scan true) afterB ∧ (inLoop.lastDeviceFlag = false ∧ isScan .ascan = true) ∧ runs .ascan inLoop ∧
    isRequest .getstate = true ∧ runs .getstate afterB ∧ (done.lastDeviceFlag = true ∧ done.live) ∧ runs .asearch done ∧
    (done.setPoint .scanLoop).point = .scanLoop ∧ runs .ascan (done.setPoint .scanLoop) :=
  ⟨rfl, live_of _ rfl, ⟨_, rfl⟩, rfl, ⟨_, rfl⟩, ⟨rfl, rfl⟩, ⟨_, rfl⟩, ⟨rfl, rfl⟩, ⟨_, rfl⟩, rfl, ⟨_, rfl⟩,
    ⟨rfl, live_of _ rfl⟩, ⟨_, rfl⟩, rfl, _, rfl⟩
/-- The instruction answers OK. -/
def answersOk (i : Instr) (s : State) (v : Byte) (r : Rom) : Prop := ∃ t, exec i s = .next t ∧ Responded s ⟨.ok, v, r⟩ t
theorem answersOk_of (i : Instr) (s : State) (v : Byte) (r : Rom) (h : runs i s) (hb : (after (exec i s)).busy = false)
    (hr : responses (after (exec i s)).trace = (Response.mk .ok v r).word :: responses s.trace) : answersOk i s v r :=
  runs_with i s _ h ⟨hb, hr⟩
/-- A channel at the slot rate. -/
def slotBus : State := { onBus (busOf [codeA]) with baud := some .slot }
theorem witness_TransmitCounts : slotBus.live ∧ answersOk .reset slotBus 1 0 ∧ answersOk .rdbit slotBus 1 0 ∧
    answersOk (.wrbyte 0x44) slotBus 0 0 ∧ answersOk (.search false) slotBus 1 codeA ∧
    answersOk (.matchrom codeA) slotBus 0 0 ∧ answersOk .skiprom slotBus 0 0 ∧ answersOk .readrom slotBus 0 codeA ∧
    answersOk (.crc8 codeA) slotBus 0x9E 0 :=
  ⟨live_of _ rfl, answersOk_of _ _ _ _ ⟨_, rfl⟩ (by decide +kernel) (by decide +kernel),
    answersOk_of _ _ _ _ ⟨_, rfl⟩ (by decide +kernel) (by decide +kernel),
    answersOk_of _ _ _ _ ⟨_, rfl⟩ (by decide +kernel) (by decide +kernel),
    answersOk_of _ _ _ _ ⟨_, rfl⟩ (by decide +kernel) (by decide +kernel),
    answersOk_of _ _ _ _ ⟨_, rfl⟩ (by decide +kernel) (by decide +kernel),
    answersOk_of _ _ _ _ ⟨_, rfl⟩ (by decide +kernel) (by decide +kernel),
    answersOk_of _ _ _ _ ⟨_, rfl⟩ (by decide +kernel) (by decide +kernel),
    answersOk_of _ _ _ _ ⟨_, rfl⟩ (by decide +kernel) (by decide +kernel)⟩

end Sys2Proof.Tests
end

section
/-! SUPPORT. Relations between the state a computation begins in and the one it leaves, from what the atomic steps keep: one
structure of step facts, and the closure lemmas of Laws/Monad.lean and Laws/Commands.lean follow for all of them. -/

namespace Sys2Proof.Machine

/-! ### The atomic steps -/

/-- `P` from start to end; where the reset input has come, `K`, and the tape asserted it. -/
def Along (P K : State → State → Prop) (s : State) : Option Stop → State → Prop
  | some .killed, t => ¬ s.live ∧ K s t
  | _, t => P s t ∧ (s.live → t.live)

/-- Every atomic step of the channel primitives keeps `P`, and hardware reset after such steps gives `K`. -/
structure AtomicSteps (P K : State → State → Prop) : Prop where
  refl : ∀ s, P s s
  trans : ∀ {s t u}, P s t → P t u → P s u
  killed_trans : ∀ {s t u}, P s t → K t u → K s u
  cfg : ∀ {s t}, P s t → t.cfg = s.cfg
  deposit : ∀ s v, P s (s.deposit v)
  dropEcho : ∀ s, P s s.dropEcho
  emptyFlight : ∀ s, P s s.emptyFlight
  setTape : ∀ s l, P s (s.setTape l)
  draw : ∀ s, P s s.draw
  setBaud : ∀ s r, P s (s.setBaud r)
  transmit : ∀ s x, P s (s.transmit x)
  consume : ∀ s, P s s.consume
  hardReset : ∀ s, K s s.hardReset

section
variable {P K : State → State → Prop}

/-- A relation that holds wherever only the mailbox, the surroundings and the trace may differ. -/
theorem AtomicSteps.of_same (refl : ∀ s, P s s) (trans : ∀ {s t u}, P s t → P t u → P s u)
    (killed_trans : ∀ {s t u}, P s t → K t u → K s u) (cfg : ∀ {s t}, P s t → t.cfg = s.cfg)
    (same : ∀ {s t}, Same s t → P s t) (hardReset : ∀ s, K s s.hardReset) : AtomicSteps P K where
  refl := refl
  trans := trans
  killed_trans := killed_trans
  cfg := cfg
  deposit s v := same (same_deposit s v)
  dropEcho s := same (same_dropEcho s)
  emptyFlight s := same (same_emptyFlight s)
  setTape s l := same (same_setTape s l)
  draw s := same (same_draw s)
  setBaud s r := same (same_setBaud s r)
  transmit s x := same (same_transmit s x)
  consume s := same (same_consume s)
  hardReset := hardReset

theorem AtomicSteps.depositOldest (h : AtomicSteps P K) (s : State) : P s s.depositOldest := by
  unfold State.depositOldest
  split
  · exact h.refl s
  · exact h.trans (h.dropEcho s) (h.deposit _ _)

theorem AtomicSteps.foldl_deposit (h : AtomicSteps P K) (vs : List Byte) (s : State) :
    P s (vs.foldl State.deposit s) := by
  induction vs generalizing s with
  | nil => exact h.refl s
  | cons v vs ih => exact h.trans (h.deposit s v) (ih _)

theorem AtomicSteps.surroundings (h : AtomicSteps P K) (s : State) : P s s.surroundings := by
  unfold State.surroundings
  split
  · exact h.trans (h.foldl_deposit s.inFlight s) (h.emptyFlight _)
  · split
    · exact h.trans (h.draw s) (h.deposit _ _)
    · exact h.draw s

/-- How the others' moves end: `P` before the master's next step, `K` after the reset input. -/
def MovesEnd (P K : State → State → Prop) (s : State) : EStateM.Result Stop State Unit → Prop
  | .ok _ t => P s t
  | .error _ t => K s t

theorem MovesEnd.after (h : AtomicSteps P K) {s t : State} {r : EStateM.Result Stop State Unit} (hst : P s t)
    (hr : MovesEnd P K t r) : MovesEnd P K s r := by
  cases r with
  | ok a u => exact h.trans hst hr
  | error e u => exact h.killed_trans hst hr

theorem AtomicSteps.playTape (h : AtomicSteps P K) (l : List Move) (s : State) :
    MovesEnd P K s (playTape l s) := by
  induction l generalizing s with
  | nil => exact h.trans (h.setTape s []) (h.surroundings _)
  | cons m l ih =>
    cases m with
    | master => exact h.setTape s l
    | deposit v => exact (ih _).after h (h.deposit s v)
    | echo => exact (ih _).after h (h.depositOldest s)
    | lose => exact (ih _).after h (h.dropEcho s)
    | reset => exact h.killed_trans (h.setTape s l) (h.hardReset _)

theorem AtomicSteps.tick (h : AtomicSteps P K) : Ends (Along P K) tick := by
  intro s
  have hm : MovesEnd P K s (Machine.tick s) := h.playTape s.tape s
  have hc := tick_channelOnly s
  cases ht : Machine.tick s with
  | ok a t =>
    rw [ht] at hm hc
    exact ⟨hm, hc.2.2⟩
  | error e t =>
    rw [ht] at hm hc
    cases e with
    | timeout => exact absurd ht tick_not_timeout
    | killed => exact ⟨hc.1, hm⟩

theorem Along.timeout_ok (s t : State) (h : Along P K s (some .timeout) t) : Along P K s none t := h

theorem State.live.of_tape {s t : State} (h : s.live) (ht : t.tape = s.tape) : t.live := by
  unfold State.live
  rw [ht]
  exact h

/-- An update that leaves the tape. -/
theorem Along.of_tape {s t : State} (h : P s t) (ht : t.tape = s.tape) : Along P K s none t :=
  ⟨h, fun hl => hl.of_tape ht⟩

theorem AtomicSteps.composes (h : AtomicSteps P K) : Composes (Along P K) where
  refl s := ⟨h.refl s, id⟩
  timeout s := ⟨h.refl s, id⟩
  trans {s t u e} h1 h2 := by
    obtain ⟨hst, hlive⟩ := h1
    rcases e with _ | ⟨_ | _⟩
    · exact ⟨h.trans hst h2.1, h2.2 ∘ hlive⟩
    · exact ⟨h.trans hst h2.1, h2.2 ∘ hlive⟩
    · exact ⟨fun hs => h2.1 (hlive hs), h.killed_trans hst h2.2⟩

theorem AtomicSteps.channelSteps (h : AtomicSteps P K) : ChannelSteps (Along P K) where
  toComposes := h.composes
  tick := h.tick
  baud s r := Along.of_tape (h.setBaud s r) rfl
  transmit s x _ := Along.of_tape (h.transmit s x) (transmit_tape s x)
  consume s := Along.of_tape (h.consume s) rfl
  cfg hst := h.cfg hst.1

theorem AtomicSteps.loopSteps (h : AtomicSteps P K) (store : ∀ s p d, p < 64 → P s (s.storeScratchBit p d))
    (noDevices : ∀ s, P s (s.setCount 0)) : LoopSteps (Along P K) where
  toChannelSteps := h.channelSteps
  store s p d hp := Along.of_tape (store s p d hp) rfl
  noDevices s := Along.of_tape (noDevices s) rfl

theorem AtomicSteps.passSteps (h : AtomicSteps P K) (store : ∀ s p d, p < 64 → P s (s.storeScratchBit p d))
    (noDevices : ∀ s, P s (s.setCount 0)) (close : ∀ s w, P s (closePass w s).2) : PassSteps (Along P K) where
  toLoopSteps := h.loopSteps store noDevices
  close s w := Along.of_tape (close s w) (closePass_closedOnly w s).tape

end

/-! ### How a pass closes -/

/-- Steps 5 to 7 of a pass (42_rom_search.md R173, R174, R176): the CRC fails; the code is appended; the table is full. -/
theorem closePass_cases (w : Work) (s : State) :
    (closePass w s).2 = s ∨
      (w.crcAcc = readByteAt s.store 7 ∧ s.deviceCount.toNat < s.cfg.maxDevices ∧
        (closePass w s).2 = (s.recordSearch w).append s.scratch) ∨
      (w.crcAcc = readByteAt s.store 7 ∧ s.cfg.maxDevices ≤ s.deviceCount.toNat ∧
        (closePass w s).2 = (s.recordSearch w).setMore) := by
  unfold closePass
  by_cases hc : w.crcAcc = readByteAt s.store 7
  · rw [if_neg (not_not.mpr hc)]
    by_cases hn : s.deviceCount.toNat < s.cfg.maxDevices
    · exact .inr (.inl ⟨hc, hn, congrArg Prod.snd (if_pos hn)⟩)
    · exact .inr (.inr ⟨hc, Nat.le_of_not_lt hn, congrArg Prod.snd (if_neg hn)⟩)
  · exact .inl (congrArg Prod.snd (if_pos hc))

theorem workOk_init {s : State} (h : Memory.wf s.store = true) : WorkOk 0 Work.init s :=
  ⟨h, rfl, Nat.le_refl 0, Nat.le_refl 0⟩

end Sys2Proof.Machine
end

section
/-! SUPPORT. What the decoder gives, that it gives an encoded instruction back, and the two kinds of step. -/

namespace Sys2Proof

theorem isRequest_decode (w : HostWord) : Machine.isRequest (decode w) = true := by
  unfold decode
  split <;> rfl

/-- A word that decodes to SCAN decodes to its first spelling. -/
theorem decode_of_isScan {w : HostWord} (h : Machine.isScan (decode w) = true) :
    ∃ alarm, decode w = .scan alarm := by
  cases hd : decode w with
  | scan alarm => exact ⟨alarm, rfl⟩
  | ascan =>
    unfold decode at hd
    split at hd <;> cases hd
  | _ => rw [hd] at h; cases h

theorem getLsbD_bitArg (b : Bool) : (bitArg b).getLsbD 0 = b := by cases b <;> rfl

/-- An instruction the decoder can give is what its request word decodes to. -/
theorem decode_of_encode {i : Instr} {w : HostWord} (hi : i.wellFormed = true) (h : encode i = some w) : decode w = i := by
  cases i with
  | unassigned op =>
    obtain rfl := Option.some.inj h
    have ho : op.toNat = 0 ∨ 15 < op.toNat := by
      simp only [Instr.wellFormed, assignedOp, Bool.not_eq_true', Bool.and_eq_false_iff, decide_eq_false_iff_not] at hi
      omega
    unfold decode
    rw [reqOp_reqWord]
    split <;> first | rfl | omega
  | asearch | ascan | wr0 | wr1 => cases hi
  | wSearchRom | wAlarmSearch | wSkipRom | wReadRom | wMatchRom => cases hi
  | sResetPulse | sProbe | sWrite0 | sWrite1 | sRead => cases hi
  | _ =>
    obtain rfl := Option.some.inj h
    unfold decode
    simp only [reqOp_reqWord, reqArg_reqWord, reqRom_reqWord, getLsbD_bitArg]
    rfl

end Sys2Proof

namespace Sys2Proof.Machine

theorem step_busy {s : State} (h : s.busy = true) : step s = exec (decode s.req) s := by
  unfold step
  rw [if_pos h]

theorem step_idle {s : State} (h : s.busy = false) : step s = .next (idleStep s) := by
  unfold step
  rw [if_neg (by rw [h]; exact Bool.false_ne_true)]

end Sys2Proof.Machine
end

section
/-! SUPPORT. The invariant of the machine, operation by operation, and along every step (spec/10_state.md R40). -/

namespace Sys2Proof.Machine

/-! ### The operations of the block -/

section
variable {s : State}

theorem StateInv.of_same {t : State} (h : StateInv s) (hs : Same s t) (hsim : t.sim.all SimBus.wf = true) :
    StateInv t where
  cfg_wf := by rw [hs.cfg]; exact h.cfg_wf
  count_le := by rw [hs.deviceCount, hs.cfg]; exact h.count_le
  discrepancy_le := by rw [hs.lastDiscrepancy]; exact h.discrepancy_le
  family_le := by rw [hs.lastFamilyDiscrepancy]; exact h.family_le
  last_device := by rw [hs.lastDeviceFlag, hs.lastDiscrepancy]; exact h.last_device
  entries_valid := by
    unfold State.entry
    rw [hs.deviceCount, hs.store]
    exact h.entries_valid
  store_wf := by rw [hs.store]; exact h.store_wf
  store_bounded := by rw [hs.store, hs.cfg]; exact h.store_bounded
  in_loop := by rw [hs.point, hs.busy, hs.req]; exact h.in_loop
  sim_wf := hsim

theorem StateInv.maxDevices_pos (h : StateInv s) : 1 ≤ s.cfg.maxDevices := by
  have hc := h.cfg_wf
  simp only [Config.wf, Bool.and_eq_true, decide_eq_true_eq] at hc
  omega

theorem StateInv.maxDevices_le (h : StateInv s) : s.cfg.maxDevices ≤ 255 := by
  have hc := h.cfg_wf
  simp only [Config.wf, Bool.and_eq_true, decide_eq_true_eq] at hc
  omega

/-- While there is room the count does not wrap. -/
theorem toNat_succ_of_lt {b : Byte} {n : Nat} (hb : b.toNat < n) (hn : n ≤ 255) : (b + 1).toNat = b.toNat + 1 := by
  rw [BitVec.toNat_add]
  exact Nat.mod_eq_of_lt (by show b.toNat + 1 < 256; omega)

/-- A bit of `romScratch` lies below the table. -/
theorem StateInv.storeScratchBit (h : StateInv s) {p : Nat} (hp : p < 64) (d : Bool) :
    StateInv (s.storeScratchBit p d) :=
  { h with
    entries_valid := fun k hk => by
      have he : (s.storeScratchBit p d).entry k = s.entry k :=
        readRomAt_writeByteAt_other _ _ _ _ (.inl (by unfold entryAddr; omega))
      rw [he]
      exact h.entries_valid k hk
    store_wf := wf_writeByteAt _ _ _ h.store_wf
    store_bounded := fun c hc => (mem_writeByteAt hc).elim (h.store_bounded c) fun ha => by
      show c.1 < storeSize s.cfg
      unfold storeSize
      omega }

theorem StateInv.setCount_zero (h : StateInv s) : StateInv (s.setCount 0) :=
  { h with
    count_le := Nat.zero_le _
    entries_valid := fun k hk => absurd hk (Nat.not_lt_zero k) }

theorem StateInv.clear (h : StateInv s) : StateInv s.clear :=
  { h with
    count_le := Nat.zero_le _
    discrepancy_le := Nat.zero_le _
    family_le := Nat.zero_le _
    last_device := fun hf => by cases hf
    entries_valid := fun k hk => absurd hk (Nat.not_lt_zero k)
    store_wf := wf_clearStore _ _ h.store_wf
    store_bounded := by
      rw [State.clear_store, clearStore_eq_nil h.store_wf h.store_bounded]
      exact fun c hc => absurd hc List.not_mem_nil }

theorem StateInv.hardReset (h : StateInv s) : StateInv s.hardReset where
  cfg_wf := h.cfg_wf
  count_le := Nat.zero_le _
  discrepancy_le := Nat.zero_le _
  family_le := Nat.zero_le _
  last_device := fun hf => by cases hf
  entries_valid := fun k hk => absurd hk (Nat.not_lt_zero k)
  store_wf := rfl
  store_bounded := fun c hc => absurd hc List.not_mem_nil
  in_loop := fun hp => by cases hp
  sim_wf := h.sim_wf

theorem StateInv.setMore (h : StateInv s) : StateInv s.setMore := { h with }

theorem StateInv.accept (h : StateInv s) (w : HostWord) (ws : List HostWord) : StateInv (s.accept w ws) :=
  { h with in_loop := fun hp => by cases hp }

theorem StateInv.respond (h : StateInv s) (r : Response) : StateInv (s.respond r) :=
  { h with in_loop := fun hp => by cases hp }

/-- SCAN goes on only while it runs. -/
theorem StateInv.setPoint_scanLoop (h : StateInv s) (hb : s.busy = true) (hd : ∃ alarm, decode s.req = .scan alarm) :
    StateInv (s.setPoint .scanLoop) :=
  { h with in_loop := fun _ => ⟨hb, hd⟩ }

/-- Step 6 of a pass: the last device flag is set exactly where no discrepancy is left. -/
theorem StateInv.recordSearch (h : StateInv s) {w : Work} (hw : WorkOk 64 w s) (hf : s.lastDeviceFlag = false) :
    StateInv (s.recordSearch w) :=
  { h with
    discrepancy_le := hw.zero
    family_le := by
      show (if w.lastZeroFam ≠ 0 then w.lastZeroFam else s.lastFamilyDiscrepancy).toNat ≤ 8
      split
      · exact hw.fam
      · exact h.family_le
    last_device := fun hd => by
      change (if w.lastZero = 0 then true else s.lastDeviceFlag) = true at hd
      by_cases hz : w.lastZero = 0
      · exact hz
      · rw [if_neg hz, hf] at hd
        cases hd }

/-- Step 7 of a pass: a valid code is appended where there is room. -/
theorem StateInv.append (h : StateInv s) {r : Rom} (hr : romValid r = true)
    (hn : s.deviceCount.toNat < s.cfg.maxDevices) : StateInv (s.append r) := by
  have hsucc := toNat_succ_of_lt hn h.maxDevices_le
  exact { h with
    count_le := by
      show (s.deviceCount + 1).toNat ≤ s.cfg.maxDevices
      omega
    entries_valid := fun k hk => by
      change k < (s.deviceCount + 1).toNat at hk
      show romValid (readRomAt (writeRomAt s.store (entryAddr s.deviceCount.toNat) r) (entryAddr k)) = true
      by_cases hkn : k = s.deviceCount.toNat
      · rw [hkn, readRomAt_writeRomAt _ _ _ h.store_wf]
        exact hr
      · rw [readRomAt_writeRomAt_other _ _ _ _ (.inl (by unfold entryAddr; omega))]
        exact h.entries_valid k (by omega)
    store_wf := wf_writeRomAt _ _ _ h.store_wf
    store_bounded := fun c hc => (mem_writeRomAt hc).elim (h.store_bounded c) fun ha => by
      show c.1 < storeSize s.cfg
      unfold entryAddr at ha
      unfold storeSize
      omega }

/-- A pass that began without the last device flag closes within the invariant. -/
theorem StateInv.closePass (h : StateInv s) {w : Work} (hw : WorkOk 64 w s) (hf : s.lastDeviceFlag = false) :
    StateInv (closePass w s).2 := by
  rcases closePass_cases w s with he | ⟨hc, hn, he⟩ | ⟨hc, -, he⟩ <;> rw [he]
  · exact h
  · exact (h.recordSearch hw hf).append ((crc_test_of_workOk hw).mp hc) hn
  · exact (h.recordSearch hw hf).setMore

end

/-! ### Along a command -/

/-- The invariant goes from `s` to `t`, and the running request is the same. -/
structure InvCarried (s t : State) : Prop where
  cfg : t.cfg = s.cfg
  busy : t.busy = s.busy
  req : t.req = s.req
  inv : StateInv s → StateInv t

/-- The invariant alone goes from `s` to `t`. -/
def InvAfterReset (s t : State) : Prop := StateInv s → StateInv t

theorem InvCarried.of_same {s t : State} (hs : Same s t) (hsim : s.sim.all SimBus.wf = true → t.sim.all SimBus.wf = true) :
    InvCarried s t :=
  ⟨hs.cfg, hs.busy, hs.req, fun h => h.of_same hs (hsim h.sim_wf)⟩

theorem invCarried_steps : AtomicSteps InvCarried InvAfterReset where
  refl _ := ⟨rfl, rfl, rfl, id⟩
  trans h1 h2 := ⟨h2.cfg.trans h1.cfg, h2.busy.trans h1.busy, h2.req.trans h1.req, h2.inv ∘ h1.inv⟩
  killed_trans h1 h2 := h2 ∘ h1.inv
  cfg h := h.cfg
  deposit s v := .of_same (same_deposit s v) id
  dropEcho s := .of_same (same_dropEcho s) id
  emptyFlight s := .of_same (same_emptyFlight s) id
  setTape s l := .of_same (same_setTape s l) id
  draw s := .of_same (same_draw s) id
  setBaud s r := .of_same (same_setBaud s r) id
  transmit s x := .of_same (same_transmit s x) (transmit_sim_wf x)
  consume s := .of_same (same_consume s) id
  hardReset _ := StateInv.hardReset

theorem invCarried_loopSteps : LoopSteps (Along InvCarried InvAfterReset) :=
  invCarried_steps.loopSteps (fun _ _ d hp => ⟨rfl, rfl, rfl, fun h => h.storeScratchBit hp d⟩)
    fun _ => ⟨rfl, rfl, rfl, StateInv.setCount_zero⟩

/-- A search pass carries the invariant: at its close the working registers fit `romScratch`. -/
theorem searchPass_carries_inv (alarm : Bool) (s : State) :
    Goes (Along InvCarried InvAfterReset) s (searchPass alarm s) := by
  refine Goes.searchPass invCarried_loopSteps (Followed.refl invCarried_loopSteps.toChannelSteps) Along.timeout_ok alarm ?_
  intro u w t hf hsu hloop hsearched hst
  obtain ⟨hkept, hlive⟩ := hst
  have hc := closePass_closedOnly w t
  refine ⟨⟨hc.cfg.trans hkept.cfg, hc.busy.trans hkept.busy, hc.req.trans hkept.req, fun hs => ?_⟩,
    fun hl => (hlive hl).of_tape hc.tape⟩
  have hu : Memory.wf u.store = true := by rw [hsu.store]; exact hs.store_wf
  exact (hkept.inv hs).closePass (searchLoop_workOk (Nat.le_refl 64) (workOk_init hu) hloop)
    (hsearched.same.lastDeviceFlag.trans hf)

/-- A step of a running command. -/
theorem exec_keeps_inv {s t : State} (h : StateInv s) (hb : s.busy = true) (he : exec (decode s.req) s = .next t) :
    StateInv t := by
  rcases request_cases_of_pass invCarried_loopSteps.toChannelSteps Along.timeout_ok
    (fun s => Along.of_tape ⟨rfl, rfl, rfl, StateInv.clear⟩ rfl) (fun alarm u _ => searchPass_carries_inv alarm u)
    (isRequest_decode s.req) he with ⟨v, r, ⟨hv, -⟩, rfl⟩ | ⟨hscan, v, ⟨hv, -⟩, rfl⟩ | ⟨-, ht⟩
  · exact (hv.inv h).respond r
  · exact (hv.inv h).setPoint_scanLoop (hv.busy.trans hb) (by rw [hv.req]; exact decode_of_isScan hscan)
  · exact ht h

/-- A step of the idle block. -/
theorem idleStep_keeps_inv {s : State} (h : StateInv s) : StateInv (idleStep s) := by
  have ht := invCarried_steps.tick s
  unfold idleStep
  cases hk : tick s with
  | ok a u =>
    rw [hk] at ht
    have hu : StateInv u := ht.1.inv h
    cases hp : u.pending with
    | nil => simpa only [hp] using hu
    | cons w ws => simpa only [hp] using hu.accept w ws
  | error e u =>
    rw [hk] at ht
    cases e with
    | timeout => exact absurd hk tick_not_timeout
    | killed => exact ht.2 h

/-- Settles O14: each atomic step carries the invariant, and so does a pass, whose close needs what 64 positions leave in the
working registers. -/
theorem invariantKept : Obligations.InvariantKept := by
  intro s t h hstep
  by_cases hb : s.busy = true
  · rw [step_busy hb] at hstep
    exact exec_keeps_inv h hb hstep
  · rw [step_idle (Bool.eq_false_iff.mpr hb)] at hstep
    obtain rfl := Host.Outcome.next.inj hstep
    exact idleStep_keeps_inv h

end Sys2Proof.Machine
end

section
/-! SUPPORT. Acceptance, the running of the latched word, reset and the clear (spec/10_state.md R33, R36, R39). -/

namespace Sys2Proof.Machine

/-! ### The host's port -/

theorem idleStep_accepts {s : State} {l : List Move} {w : HostWord} {ws : List HostWord} (ht : s.tape = .master :: l)
    (hp : s.pending = w :: ws) : idleStep s = (s.setTape l).accept w ws := by
  simp only [idleStep, tick_master ht, State.setTape_pending, hp]

theorem idleStep_holds {s : State} {l : List Move} (ht : s.tape = .master :: l) (hp : s.pending = []) :
    idleStep s = s.setTape l := by
  simp only [idleStep, tick_master ht, State.setTape_pending, hp]

theorem withFetchWord_word (s : State) (w : HostWord) :
    s.withFetchWord 80 w.toNat = { s with req := w, busy := true, point := .start } := by
  unfold State.withFetchWord
  rw [wordOfBytes_tableBytes]

/-- Settles O6: the placed word is the encoding, which the decoder reads back. -/
theorem stepRunsRequest : Obligations.StepRunsRequest := by
  refine ⟨fun s i hb hd => by rw [step_busy hb, hd], fun s i w hi he => ⟨withFetchWord_word s w, ?_⟩⟩
  rw [withFetchWord_word, step_busy rfl, decode_of_encode hi he]

/-- The presented requests and the latched one stay. -/
structure PortKept (s t : State) : Prop where
  cfg : t.cfg = s.cfg
  pending : t.pending = s.pending
  req : t.req = s.req

theorem portKept_steps : AtomicSteps PortKept (fun s t => t.pending = s.pending) :=
  AtomicSteps.of_same (fun _ => ⟨rfl, rfl, rfl⟩)
    (fun h1 h2 => ⟨h2.cfg.trans h1.cfg, h2.pending.trans h1.pending, h2.req.trans h1.req⟩)
    (fun h1 h2 => h2.trans h1.pending) (fun h => h.cfg) (fun h => ⟨h.cfg, h.pending, h.req⟩) fun _ => rfl

theorem portKept_closePass (s : State) (w : Work) : PortKept s (closePass w s).2 := by
  rcases closePass_cases w s with he | ⟨-, -, he⟩ | ⟨-, -, he⟩ <;> rw [he] <;> exact ⟨rfl, rfl, rfl⟩

theorem portKept_passSteps : PassSteps (Along PortKept fun s t => t.pending = s.pending) :=
  portKept_steps.passSteps (fun _ _ _ _ => ⟨rfl, rfl, rfl⟩) (fun _ => ⟨rfl, rfl, rfl⟩) portKept_closePass

/-- No instruction touches the host's port; the latched word goes only with the reset input. -/
theorem exec_keeps_port {i : Instr} {s t : State} (h : exec i s = .next t) :
    t.pending = s.pending ∧ (s.live → t.req = s.req) := by
  cases hi : isRequest i with
  | true =>
    rcases request_cases portKept_passSteps Along.timeout_ok (fun s => Along.of_tape ⟨rfl, rfl, rfl⟩ rfl) hi h with
      ⟨v, r, ⟨hv, -⟩, rfl⟩ | ⟨-, v, ⟨hv, -⟩, rfl⟩ | ⟨hk, ht⟩
    · exact ⟨hv.pending, fun _ => hv.req⟩
    · exact ⟨hv.pending, fun _ => hv.req⟩
    · exact ⟨ht, fun hl => absurd hl hk⟩
  | false =>
    rcases row_cases portKept_steps.channelSteps Along.timeout_ok (fun s r => Along.of_tape ⟨rfl, rfl, rfl⟩ rfl) hi h with
      ⟨hv, -⟩ | ⟨hk, ht⟩
    · exact ⟨hv.pending, fun _ => hv.req⟩
    · exact ⟨ht, fun hl => absurd hl hk⟩

/-- Settles O7: the two idle steps, and the port's frame along every instruction. -/
theorem acceptance : Obligations.Acceptance := by
  refine ⟨fun s l hb ht => ⟨fun w ws hp => ?_, fun hp => ?_⟩, fun i s t h => exec_keeps_port h⟩
  · rw [step_idle hb, idleStep_accepts ht hp]
    rfl
  · rw [step_idle hb, idleStep_holds ht hp]
    rfl

/-! ### Reset and the clear -/

theorem inResetState_resetWith (c : Config) : InResetState (State.resetWith c) := by
  constructor <;> intros <;> rfl

theorem inResetState_hardReset (s : State) : InResetState s.hardReset := by
  constructor <;> intros <;> rfl

/-- Eight bytes 0 are the code 0. -/
theorem readRomAt_eq_zero {m : List Host.Cell} {a : Nat} (h : ∀ j < 8, readByteAt m (a + j) = 0) : readRomAt m a = 0 := by
  have hm : readRomAt m a = readRomAt [] 0 := readRomAt_congr h
  rw [hm]
  decide

/-- After the clear every code inside the local store is 0. -/
theorem readRomAt_clearStore {c : Config} {m : List Host.Cell} {a : Nat} (h : Memory.wf m = true)
    (ha : a + 8 ≤ storeSize c) : readRomAt (clearStore c m) a = 0 :=
  readRomAt_eq_zero fun j hj => by rw [read_clearStore c m h, if_pos (by omega)]

/-- Settles O10: the fields by definition, the codes of the local store from its bytes. -/
theorem resetAndClearValues : Obligations.ResetAndClearValues := by
  refine ⟨inResetState_resetWith, inResetState_hardReset, fun s h => ?_⟩
  have hscratch : s.clear.scratch = 0 := readRomAt_clearStore h (by unfold storeSize; omega)
  have hentry : ∀ k < s.cfg.maxDevices, s.clear.entry k = 0 := fun k hk =>
    readRomAt_clearStore h (by unfold entryAddr storeSize; omega)
  exact ⟨rfl, rfl, hscratch, rfl, rfl, rfl, rfl, rfl, hentry, rfl, rfl, rfl, rfl⟩

end Sys2Proof.Machine
end

section
/-! SUPPORT. What an instruction does to `BusState` where the reset input stays away, said once: it leaves it alone, or runs a
search pass, or clears it, or clears it and runs a pass (spec/10_state.md R21 to R28). -/

namespace Sys2Proof.Machine

/-! ### The kinds of instruction -/

/-- The instruction runs a search pass from the state as it stands: SEARCH, or SCAN at the head of its loop. -/
def RunsPass (i : Instr) (s : State) : Prop :=
  i = .asearch ∨ (∃ alarm, i = .search alarm) ∨ isScan i = true ∧ s.point = .scanLoop

/-- The instruction neither searches nor clears: a request that keeps `BusState`, or a row of layer W or S. -/
def Quiet (i : Instr) : Prop := keepsBusState i = true ∨ isRequest i = false

theorem instr_kinds (i : Instr) (s : State) :
    Quiet i ∨ RunsPass i s ∨ i = .clrstate ∨ (isScan i = true ∧ s.point = .start) := by
  have hscan : isScan i = true → RunsPass i s ∨ i = .clrstate ∨ (isScan i = true ∧ s.point = .start) := fun hs => by
    cases hp : s.point with
    | start => exact .inr (.inr ⟨hs, rfl⟩)
    | scanLoop => exact .inl (.inr (.inr ⟨hs, hp⟩))
  cases i with
  | clrstate => exact .inr (.inr (.inl rfl))
  | search alarm => exact .inr (.inl (.inr (.inl ⟨alarm, rfl⟩)))
  | asearch => exact .inr (.inl (.inl rfl))
  | scan alarm => exact .inr (hscan rfl)
  | ascan => exact .inr (hscan rfl)
  | wSearchRom | wAlarmSearch | wSkipRom | wReadRom | wMatchRom => exact .inl (.inr rfl)
  | sResetPulse | sProbe | sWrite0 | sWrite1 | sRead => exact .inl (.inr rfl)
  | _ => exact .inl (.inl rfl)

/-! ### How a step ends -/

/-- The last update of a step: none, the response, or SCAN standing at the head of its loop. -/
inductive HandsOver (v : State) : State → Prop
  | kept : HandsOver v v
  | responded (r : Response) : HandsOver v (v.respond r)
  | goesOn : HandsOver v (v.setPoint .scanLoop)

theorem HandsOver.sameBusState {v t : State} (h : HandsOver v t) : SameBusState v t := by
  cases h <;> constructor <;> rfl

section
variable {P K : State → State → Prop} {i : Instr} {s t : State}

/-- A quiet instruction, where every atomic step keeps `P`. -/
theorem exec_quiet (h : AtomicSteps P K) (hslot : ∀ s r, P s (s.setSlot r)) (hi : Quiet i) (hl : s.live)
    (he : exec i s = .next t) : ∃ v, P s v ∧ HandsOver v t := by
  rcases hi with hi | hi
  · rcases keeping_request_cases h.channelSteps Along.timeout_ok hi he with ⟨v, r, hv, rfl⟩ | ht
    · exact ⟨v, hv.1, .responded r⟩
    · exact absurd hl ht.1
  · rcases row_cases h.channelSteps Along.timeout_ok (fun s r => Along.of_tape (hslot s r) rfl) hi he with hv | ht
    · exact ⟨t, hv.1, .kept⟩
    · exact absurd hl ht.1

/-- SEARCH's computation is a pass and a look. -/
theorem goes_searchCommandBody {R : State → Option Stop → State → Prop} {alarm : Bool} (h : Goes R s (searchPass alarm s)) :
    Goes R s (searchCommandBody alarm s) := by
  unfold searchCommandBody
  rw [bind_run]
  cases hp : searchPass alarm s with
  | ok o u => rw [hp] at h; exact h
  | error e u => rw [hp] at h; exact h

/-- A request that is SEARCH in either spelling. -/
theorem exec_search (hi : i = .asearch ∨ ∃ alarm, i = .search alarm) (he : exec i s = .next t) :
    ∃ alarm, t = finish (searchCommandBody alarm) s := by
  rcases hi with rfl | ⟨alarm, rfl⟩
  · exact ⟨true, (Host.Outcome.next.inj he).symm⟩
  · exact ⟨alarm, (Host.Outcome.next.inj he).symm⟩

variable {Q : State → Option Stop → State → Prop}

/-- A step of SCAN after its opening. -/
theorem scanStep_pass (hR : Followed Q (Along P K)) {alarm : Bool} {u : State} (ho : scanOpening s = .ok () u)
    (hpass : Goes (Along P K) u (searchPass alarm u)) (hl : u.live) :
    ∃ v, P u v ∧ HandsOver v (scanStep alarm s) := by
  rcases scan_cases_of_opening hR ho hpass with ⟨v, r, hv, ht⟩ | ⟨v, hv, ht⟩ | ht
  · exact ⟨v, hv.1, ht ▸ .responded r⟩
  · exact ⟨v, hv.1, ht ▸ .goesOn⟩
  · exact absurd hl ht.1

/-- An instruction that runs a pass from the state as it stands, where the pass and the moves after it give `P`. -/
theorem exec_pass (hR : Followed Q (Along P K)) (hpass : ∀ alarm, Goes (Along P K) s (searchPass alarm s))
    (hi : RunsPass i s) (hl : s.live) (he : exec i s = .next t) : ∃ v, P s v ∧ HandsOver v t := by
  rw [RunsPass, ← or_assoc] at hi
  rcases hi with hi | ⟨hscan, hp⟩
  · obtain ⟨alarm, rfl⟩ := exec_search hi he
    rcases finish_cases hR Along.timeout_ok (goes_searchCommandBody (hpass alarm)) with ⟨v, r, hv, ht⟩ | ht
    · exact ⟨v, hv.1, ht ▸ .responded r⟩
    · exact absurd hl ht.1
  · obtain ⟨alarm, rfl⟩ := exec_scan hscan he
    exact scanStep_pass hR (scanOpening_loop hp) (hpass alarm) hl

/-- SCAN at its start runs a pass from the cleared state. -/
theorem exec_scan_start (hR : Followed Q (Along P K)) (hpass : ∀ alarm u, Goes (Along P K) u (searchPass alarm u))
    (hi : isScan i = true) (hp : s.point = .start) (hl : s.live) (he : exec i s = .next t) :
    ∃ u v, Same s u ∧ P u.clear v ∧ HandsOver v t := by
  obtain ⟨u, hu, hsu, -, hlu⟩ := tick_of_live hl
  have ho : scanOpening s = .ok () u.clear := by rw [scanOpening_start hp, bind_run_ok hu, update_run]
  obtain ⟨alarm, rfl⟩ := exec_scan hi he
  obtain ⟨v, hv, ht⟩ := scanStep_pass hR ho (hpass alarm u.clear) hlu
  exact ⟨u, v, hsu, hv, ht⟩

/-- CLRSTATE clears between the others' moves. -/
theorem exec_clrstate (hl : s.live) (he : exec .clrstate s = .next t) :
    ∃ u v, Same s u ∧ Same u.clear v ∧ HandsOver v t := by
  obtain ⟨u, hu, hsu, -, hlu⟩ := tick_of_live hl
  obtain ⟨v, -, hd, huv, -⟩ := deliver_of_live (s := u.clear) hlu okResponse
  have ht : t = deliver okResponse u.clear := by
    rw [← Host.Outcome.next.inj he]
    simp only [finish, bind_run, hu, update_run, pure_run]
  exact ⟨u, v, hsu, huv, by rw [ht, hd]; exact .responded okResponse⟩

end

/-! ### `BusState` -/

theorem Same.toSameBusState {s t : State} (h : Same s t) : SameBusState s t :=
  ⟨h.cfg, h.lastDiscrepancy, h.lastFamilyDiscrepancy, h.lastDeviceFlag, h.hasMoreDevices, h.deviceCount, h.store, h.req,
    h.pending⟩

theorem SameBusState.trans {s t u : State} (h1 : SameBusState s t) (h2 : SameBusState t u) : SameBusState s u :=
  ⟨h2.1.trans h1.1, h2.2.trans h1.2, h2.3.trans h1.3, h2.4.trans h1.4, h2.5.trans h1.5, h2.6.trans h1.6,
    h2.7.trans h1.7, h2.8.trans h1.8, h2.9.trans h1.9⟩

theorem SameBusState.scratch {s t : State} (h : SameBusState s t) : t.scratch = s.scratch := by
  unfold State.scratch
  rw [h.store]

theorem SameBusState.entry {s t : State} (h : SameBusState s t) (k : Nat) : t.entry k = s.entry k := by
  unfold State.entry
  rw [h.store]

theorem sameBusState_steps : AtomicSteps SameBusState fun _ _ => True :=
  .of_same (fun s => (Same.refl s).toSameBusState) SameBusState.trans (fun _ _ => trivial) (fun h => h.cfg)
    Same.toSameBusState fun _ => trivial

/-! ### A search pass and `BusState` -/

/-- What a pass does before its close, or without one: the flags stay, the count stays or becomes 0. -/
structure Unclosed (s t : State) : Prop where
  cfg : t.cfg = s.cfg
  flag : t.lastDeviceFlag = s.lastDeviceFlag
  more : t.hasMoreDevices = s.hasMoreDevices
  count : t.deviceCount = s.deviceCount ∨ t.deviceCount = 0

/-- What a pass does (42_rom_search.md R165, R167, R173, R176): it ends before it validates a code, appends the code it has
validated, or finds the table full. -/
inductive PassResult (s t : State) : Prop
  | unclosed (h : Unclosed s t)
  | appended (flag : s.lastDeviceFlag = false) (room : s.deviceCount.toNat < s.cfg.maxDevices)
      (count : t.deviceCount = s.deviceCount + 1) (more : t.hasMoreDevices = s.hasMoreDevices)
      (code : Memory.wf s.store = true → t.entry s.deviceCount.toNat = t.scratch ∧ romValid t.scratch = true)
  | overflowed (flag : s.lastDeviceFlag = false) (full : s.cfg.maxDevices ≤ s.deviceCount.toNat)
      (count : t.deviceCount = s.deviceCount) (more : t.hasMoreDevices = true)
      (code : Memory.wf s.store = true → romValid t.scratch = true)

theorem Unclosed.sameBusState {s t u : State} (h : Unclosed s t) (hs : SameBusState t u) : Unclosed s u :=
  ⟨hs.cfg.trans h.cfg, hs.lastDeviceFlag.trans h.flag, hs.hasMoreDevices.trans h.more, by
    rw [hs.deviceCount]; exact h.count⟩

theorem PassResult.sameBusState {s t u : State} (h : PassResult s t) (hs : SameBusState t u) : PassResult s u := by
  cases h with
  | unclosed h => exact .unclosed (h.sameBusState hs)
  | appended flag room count more code =>
    exact .appended flag room (hs.deviceCount.trans count) (hs.hasMoreDevices.trans more) (by
      rw [hs.entry, hs.scratch]; exact code)
  | overflowed flag full count more code =>
    exact .overflowed flag full (hs.deviceCount.trans count) (hs.hasMoreDevices.trans more) (by
      rw [hs.scratch]; exact code)

theorem Unclosed.trans {s t u : State} (h1 : Unclosed s t) (h2 : Unclosed t u) : Unclosed s u :=
  ⟨h2.cfg.trans h1.cfg, h2.flag.trans h1.flag, h2.more.trans h1.more, h2.count.elim (fun h => h ▸ h1.count) .inr⟩

theorem unclosed_of_same {s t : State} (h : Same s t) : Unclosed s t :=
  ⟨h.cfg, h.lastDeviceFlag, h.hasMoreDevices, .inl h.deviceCount⟩

theorem unclosed_steps : AtomicSteps Unclosed fun _ _ => True :=
  .of_same (fun s => unclosed_of_same (Same.refl s)) Unclosed.trans (fun _ _ => trivial) (fun h => h.cfg)
    unclosed_of_same fun _ => trivial

theorem unclosed_loopSteps : LoopSteps (Along Unclosed fun _ _ => True) :=
  unclosed_steps.loopSteps (fun _ _ _ _ => ⟨rfl, rfl, rfl, .inl rfl⟩) fun _ => ⟨rfl, rfl, rfl, .inr rfl⟩

theorem unclosed_followed : Followed (Along Unclosed fun _ _ => True) (Along PassResult fun _ _ => True) where
  of {s e t} h := by
    rcases e with _ | ⟨_ | _⟩
    · exact ⟨.unclosed h.1, h.2⟩
    · exact ⟨.unclosed h.1, h.2⟩
    · exact h
  tick_ok {s t u} h ht := by
    have hc := tick_channelOnly.of_ok ht
    exact ⟨h.1.sameBusState hc.1.toSameBusState, hc.2.2 ∘ h.2⟩
  tick_error {s t u e} h ht := by
    cases e with
    | timeout => exact absurd ht tick_not_timeout
    | killed => exact ⟨fun hl => (tick_channelOnly.of_error ht).1 (h.2 hl), trivial⟩

theorem scratch_append (s : State) (r : Rom) : (s.append r).scratch = s.scratch :=
  readRomAt_writeRomAt_other _ _ _ _ (.inl (by unfold entryAddr; omega))

theorem entry_append {s : State} (h : Memory.wf s.store = true) (r : Rom) : (s.append r).entry s.deviceCount.toNat = r :=
  readRomAt_writeRomAt _ _ _ h

/-- The close of a pass whose 64 positions went well. -/
theorem passResult_closePass {s u t : State} {w : Work} (hf : s.lastDeviceFlag = false) (hsu : Same s u)
    (hloop : searchLoop 64 Work.init u = .ok (some w) t) (ht : Searched s t) : PassResult s (closePass w t).2 := by
  have hst := ht.same
  have hcfg : t.cfg = s.cfg := hst.cfg
  have hcount : t.deviceCount = s.deviceCount := hst.deviceCount
  have hmore : t.hasMoreDevices = s.hasMoreDevices := hst.hasMoreDevices
  have hwork (h : Memory.wf s.store = true) : WorkOk 64 w t :=
    searchLoop_workOk (Nat.le_refl 64) (workOk_init (by rw [hsu.store]; exact h)) hloop
  rcases closePass_cases w t with he | ⟨hc, hn, he⟩ | ⟨hc, hn, he⟩ <;> rw [he]
  · exact .unclosed ⟨hcfg, hst.lastDeviceFlag, hmore, .inl hcount⟩
  · rw [hcount, hcfg] at hn
    refine .appended hf hn (congrArg (· + 1) hcount) hmore fun h => ?_
    rw [scratch_append]
    refine ⟨?_, (crc_test_of_workOk (hwork h)).mp hc⟩
    rw [← hcount]
    exact entry_append (s := t.recordSearch w) (hwork h).wf t.scratch
  · rw [hcount, hcfg] at hn
    exact .overflowed hf hn hcount rfl fun h => (crc_test_of_workOk (hwork h)).mp hc

theorem searchPass_result (alarm : Bool) (s : State) :
    Goes (Along PassResult fun _ _ => True) s (searchPass alarm s) := by
  refine Goes.searchPass unclosed_loopSteps unclosed_followed Along.timeout_ok alarm ?_
  intro u w t hf hsu hloop ht hst
  exact ⟨passResult_closePass hf hsu hloop ht, fun hl => (hst.2 hl).of_tape (closePass_closedOnly w t).tape⟩

/-- What an instruction does to `BusState`, the reset input not asserted. -/
inductive BusEffect (i : Instr) (s t : State) : Prop
  | kept (h : SameBusState s t)
  | pass (hi : RunsPass i s) (h : PassResult s t)
  | cleared (hi : i = .clrstate) (u : State) (hs : Same s u) (h : SameBusState u.clear t)
  | clearedPass (hi : isScan i = true) (hp : s.point = .start) (u : State) (hs : Same s u) (h : PassResult u.clear t)

theorem exec_busEffect {i : Instr} {s t : State} (hl : s.live) (he : exec i s = .next t) : BusEffect i s t := by
  rcases instr_kinds i s with hi | hi | rfl | ⟨hi, hp⟩
  · obtain ⟨v, hv, hvt⟩ := exec_quiet sameBusState_steps (fun s r => by constructor <;> rfl) hi hl he
    exact .kept (hv.trans hvt.sameBusState)
  · obtain ⟨v, hv, hvt⟩ := exec_pass unclosed_followed (fun alarm => searchPass_result alarm s) hi hl he
    exact .pass hi (hv.sameBusState hvt.sameBusState)
  · obtain ⟨u, v, hu, hv, hvt⟩ := exec_clrstate hl he
    exact .cleared rfl u hu (hv.toSameBusState.trans hvt.sameBusState)
  · obtain ⟨u, v, hu, hv, hvt⟩ := exec_scan_start unclosed_followed searchPass_result hi hp hl he
    exact .clearedPass hi hp u hu (hv.sameBusState hvt.sameBusState)

end Sys2Proof.Machine
end

section
/-! SUPPORT. The rules of the single fields of `BusState` (spec/10_state.md R21, R22, R26 to R28). -/

namespace Sys2Proof.Machine

/-! ### `lastDeviceFlag`, `hasMoreDevices`, `deviceCount` -/

/-- Settles O54: a pass that begins with the flag set is exhausted at once. -/
theorem lastDeviceFlagStays : Obligations.LastDeviceFlagStays := by
  intro i s t hl he hf
  cases exec_busEffect hl he with
  | kept h => exact .inl (h.lastDeviceFlag.trans hf)
  | pass hi h =>
    cases h with
    | unclosed h => exact .inl (h.flag.trans hf)
    | appended flag => rw [hf] at flag; cases flag
    | overflowed flag => rw [hf] at flag; cases flag
  | cleared hi => exact .inr (.inl hi)
  | clearedPass hi hp => exact .inr (.inr ⟨hi, hp⟩)

/-- A pass from the cleared state does not find the table full. -/
theorem PassResult.hasMoreDevices_of_clear {u t : State} (h : PassResult u.clear t) (hm : 1 ≤ u.cfg.maxDevices) :
    t.hasMoreDevices = false := by
  cases h with
  | unclosed h => exact h.more
  | appended flag room count more => exact more
  | overflowed flag full => exact absurd full (Nat.not_le_of_lt hm)

/-- A pass from the cleared state appends one code or none. -/
theorem PassResult.deviceCount_of_clear {u t : State} (h : PassResult u.clear t) :
    t.deviceCount = 0 ∨ t.deviceCount = 1 := by
  cases h with
  | unclosed h => exact .inl (h.count.elim id id)
  | appended flag room count => exact .inr count
  | overflowed flag full count => exact .inl count

/-- Settles O55: only a pass that overflows sets the flag, and only the clear takes it back. -/
theorem hasMoreDevicesRule : Obligations.HasMoreDevicesRule := by
  intro i s t hinv hl he
  have hsame (h : t.hasMoreDevices = s.hasMoreDevices) {p : Prop} {b : Bool} (hs : s.hasMoreDevices = b)
      (ht : t.hasMoreDevices = !b) : p := by
    rw [h, hs] at ht
    cases b <;> cases ht
  cases exec_busEffect hl he with
  | kept h => exact ⟨hsame h.hasMoreDevices, hsame h.hasMoreDevices⟩
  | pass hi h =>
    cases h with
    | unclosed h => exact ⟨hsame h.more, hsame h.more⟩
    | appended flag room count more => exact ⟨hsame more, hsame more⟩
    | overflowed flag full count more code =>
      refine ⟨fun _ _ => ⟨hi, Nat.le_antisymm hinv.count_le full, code hinv.store_wf⟩, fun _ ht => ?_⟩
      rw [more] at ht
      cases ht
  | cleared hi u hs h =>
    refine ⟨fun _ ht => ?_, fun _ _ => .inl hi⟩
    rw [h.hasMoreDevices] at ht
    cases ht
  | clearedPass hi hp u hs h =>
    refine ⟨fun _ ht => ?_, fun _ _ => .inr ⟨hi, hp⟩⟩
    rw [h.hasMoreDevices_of_clear (by rw [hs.cfg]; exact hinv.maxDevices_pos)] at ht
    cases ht

/-- Settles O56, effect by effect; the count does not wrap since MAX_DEVICES is at most 255. -/
theorem deviceCountRule : Obligations.DeviceCountRule := by
  intro i s t hinv hl he
  have hkept (h : t.deviceCount = s.deviceCount) : t.deviceCount.toNat ≤ s.cfg.maxDevices := by
    rw [h]; exact hinv.count_le
  have hzero (h : t.deviceCount = 0) : t.deviceCount.toNat ≤ s.cfg.maxDevices := by
    rw [h]; exact Nat.zero_le _
  cases exec_busEffect hl he with
  | kept h => exact ⟨hkept h.deviceCount, .inl h.deviceCount⟩
  | pass hi h =>
    cases h with
    | unclosed h =>
      have hkind : i = .asearch ∨ (∃ alarm, i = .search alarm) ∨ isScan i = true := hi.imp_right (·.imp_right And.left)
      rcases h.count with hc | hc
      · exact ⟨hkept hc, .inl hc⟩
      · exact ⟨hzero hc, .inr (.inr (.inl ⟨hc, .inr hkind⟩))⟩
    | appended flag room count more code =>
      obtain ⟨hentry, hvalid⟩ := code hinv.store_wf
      refine ⟨?_, .inr (.inl ⟨count, room, hentry, hvalid, hi⟩)⟩
      rw [count, toNat_succ_of_lt room hinv.maxDevices_le]
      exact room
    | overflowed flag full count => exact ⟨hkept count, .inl count⟩
  | cleared hi u hs h => exact ⟨hzero h.deviceCount, .inr (.inr (.inl ⟨h.deviceCount, .inl hi⟩))⟩
  | clearedPass hi hp u hs h =>
    rcases h.deviceCount_of_clear with hc | hc
    · exact ⟨hzero hc, .inr (.inr (.inl ⟨hc, .inr (.inr (.inr hi))⟩))⟩
    · refine ⟨?_, .inr (.inr (.inr ⟨hc, hi, hp⟩))⟩
      rw [hc]
      exact hinv.maxDevices_pos

/-! ### The mailbox -/

/-- The bytes deposited meanwhile, newest first, decide the mailbox. -/
structure MailboxFollows (s t : State) : Prop where
  cfg : t.cfg = s.cfg
  deposits : ∃ new, deposited t.trace = new ++ deposited s.trace ∧ t.echoBuffer = new.headD s.echoBuffer ∧
    (t.echoReady = true → s.echoReady = true ∨ new ≠ [])

/-- An update without a deposit, which leaves the buffer and does not set the flag. -/
theorem mailboxFollows_of_none {s t : State} (hc : t.cfg = s.cfg) (hd : deposited t.trace = deposited s.trace)
    (hb : t.echoBuffer = s.echoBuffer) (hr : t.echoReady = true → s.echoReady = true) : MailboxFollows s t :=
  ⟨hc, [], hd, hb, fun h => .inl (hr h)⟩

theorem MailboxFollows.trans {s t u : State} (h1 : MailboxFollows s t) (h2 : MailboxFollows t u) : MailboxFollows s u := by
  obtain ⟨c1, new1, d1, b1, r1⟩ := h1
  obtain ⟨c2, new2, d2, b2, r2⟩ := h2
  refine ⟨c2.trans c1, new2 ++ new1, by rw [d2, d1, List.append_assoc], ?_, fun h => ?_⟩
  · rw [b2, b1]
    cases new2 <;> rfl
  · rcases r2 h with h | h
    · exact (r1 h).imp_right (List.append_ne_nil_of_right_ne_nil new2)
    · exact .inr (List.append_ne_nil_of_left_ne_nil h new1)

theorem mailboxFollows_steps : AtomicSteps MailboxFollows fun _ _ => True where
  refl _ := mailboxFollows_of_none rfl rfl rfl id
  trans := MailboxFollows.trans
  killed_trans _ _ := trivial
  cfg h := h.cfg
  deposit _ v := ⟨rfl, [v], rfl, rfl, fun _ => .inr (List.cons_ne_nil v [])⟩
  dropEcho _ := mailboxFollows_of_none rfl rfl rfl id
  emptyFlight _ := mailboxFollows_of_none rfl rfl rfl id
  setTape _ _ := mailboxFollows_of_none rfl rfl rfl id
  draw _ := mailboxFollows_of_none rfl rfl rfl id
  setBaud _ _ := mailboxFollows_of_none rfl rfl rfl id
  transmit s x := mailboxFollows_of_none (transmit_cfg s x) (by rw [transmit_trace, deposited]) (transmit_echoBuffer s x)
    (by rw [transmit_echoReady]; exact fun h => nomatch h)
  consume _ := mailboxFollows_of_none rfl rfl rfl (fun h => nomatch h)
  hardReset _ := trivial

theorem mailboxFollows_closePass (s : State) (w : Work) : MailboxFollows s (closePass w s).2 := by
  rcases closePass_cases w s with he | ⟨-, -, he⟩ | ⟨-, -, he⟩ <;> rw [he] <;> exact mailboxFollows_of_none rfl rfl rfl id

theorem mailboxFollows_passSteps : PassSteps (Along MailboxFollows fun _ _ => True) :=
  mailboxFollows_steps.passSteps (fun _ _ _ _ => mailboxFollows_of_none rfl rfl rfl id)
    (fun _ => mailboxFollows_of_none rfl rfl rfl id) mailboxFollows_closePass

theorem HandsOver.mailboxFollows {v t : State} (h : HandsOver v t) : MailboxFollows v t := by
  cases h <;> exact mailboxFollows_of_none rfl rfl rfl id

/-- Settles O57: the clear apart, each atomic step moves the mailbox only by a deposit or by emptying it. -/
theorem mailboxHoldsTheLastDeposit : Obligations.MailboxHoldsTheLastDeposit := by
  intro i s t hl he hclr hscan
  have key : ∃ v, MailboxFollows s v ∧ HandsOver v t := by
    rcases instr_kinds i s with hi | hi | hi | hi
    · exact exec_quiet mailboxFollows_steps (fun s r => mailboxFollows_of_none rfl rfl rfl id) hi hl he
    · exact exec_pass (Followed.refl mailboxFollows_steps.channelSteps)
        (fun alarm => Ends.searchPass mailboxFollows_passSteps Along.timeout_ok alarm s) hi hl he
    · exact absurd hi hclr
    · exact absurd hi hscan
  obtain ⟨v, hv, hvt⟩ := key
  exact (hv.trans hvt.mailboxFollows).deposits

end Sys2Proof.Machine
end

section
/-! SUPPORT. The invariant at reset, and that no instruction stops (spec/10_state.md R39, R40, spec/20_memory.md R53). -/

namespace Sys2Proof.Machine

theorem stateInv_resetWith {c : Config} (hc : c.wf = true) : StateInv (State.resetWith c) where
  cfg_wf := hc
  count_le := Nat.zero_le _
  discrepancy_le := Nat.zero_le _
  family_le := Nat.zero_le _
  last_device := fun hf => by cases hf
  entries_valid := fun k hk => absurd hk (Nat.not_lt_zero k)
  store_wf := rfl
  store_bounded := fun a ha => absurd ha List.not_mem_nil
  in_loop := fun hp => by cases hp
  sim_wf := rfl

/-- SimBus as it starts is within its ranges where its `PULL` is not 0xFF. -/
theorem StateInv.attach {s : State} (h : StateInv s) (devs : List Device) {pull : Byte} (hp : pull ≠ 0xFF) :
    StateInv (s.attach devs pull) :=
  { h with sim_wf := initial_wf devs hp }

theorem config_default_wf : Config.default.wf = true := by decide

/-- Settles O15: at reset the count and the search registers are 0 and the store is empty. -/
theorem invariantAtReset : Obligations.InvariantAtReset :=
  ⟨fun _ hc => stateInv_resetWith hc, stateInv_resetWith config_default_wf,
    fun _ devs _ hc hp => ⟨(stateInv_resetWith hc).attach devs hp, rfl, rfl⟩⟩

/-- Every instruction gives a next state where the count is within the table. -/
theorem exec_next (i : Instr) {s : State} (hg : s.deviceCount.toNat ≤ s.cfg.maxDevices) : ∃ t, exec i s = .next t := by
  cases hi : isRequest i with
  | false => exact ⟨_, exec_eq_part hi⟩
  | true =>
    cases hs : isScan i with
    | false => exact ⟨_, exec_eq_next hi hs hg⟩
    | true =>
      obtain ⟨alarm, h⟩ := exec_scan_next s hs
      exact ⟨_, h⟩

theorem step_next {s : State} (hg : s.deviceCount.toNat ≤ s.cfg.maxDevices) : ∃ t, step s = .next t := by
  cases hb : s.busy with
  | true =>
    rw [step_busy hb]
    exact exec_next _ hg
  | false => exact ⟨_, step_idle hb⟩

theorem entryAddr_within_store {c : Config} {k : Nat} (hk : k < c.maxDevices) : entryAddr k + 8 ≤ storeSize c := by
  unfold entryAddr storeSize
  omega

/-- Settles O16: only GETDEV reads the table, and below the count the table is inside the store. -/
theorem noInstructionStops : Obligations.NoInstructionStops := fun _ h =>
  ⟨fun i => exec_next i h.count_le, step_next h.count_le,
    fun _ hk => entryAddr_within_store (Nat.lt_of_lt_of_le hk h.count_le)⟩

end Sys2Proof.Machine
end

section
/-! SUPPORT. What the host presents at its request port while a command runs does not reach the command (spec/20_memory.md R69):
every computation commutes with another content of the port. -/

namespace Sys2Proof.Machine

/-- Hardware reset leaves the port as it is, so that no computation sees it, the reset input included. -/
theorem spared_setPending (p : List HostWord) (s : State) : Spared (·.setPending p) s := .inl fun _ => rfl

theorem offChannel_setPending (p : List HostWord) : OffChannel (·.setPending p) := by
  constructor <;> intros <;> rfl

/-- The update made in the next state, where there is one. -/
def mapNext (f : State → State) : Host.Outcome State Fault Refusal → Host.Outcome State Fault Refusal
  | .next t => .next (f t)
  | .fault e => .fault e
  | .refused r => .refused r

/-- A request other than SCAN and GETDEV gives what its computation and its response give, whatever the state. -/
theorem exec_eq_command {i : Instr} {s : State} (hi : isRequest i = true) (hs : isScan i = false)
    (hg : ∀ k, i ≠ .getdev k) : exec i s = .next (finish (commandOf s i) s) := by
  cases i with
  | getdev k => exact absurd rfl (hg k)
  | scan | ascan => cases hs
  | wSearchRom | wAlarmSearch | wSkipRom | wReadRom | wMatchRom => cases hi
  | sResetPulse | sProbe | sWrite0 | sWrite1 | sRead => cases hi
  | _ => rfl

section
variable (p : List HostWord)

/-! ### A search pass -/

theorem searchPosition_commutes (q : Nat) (w : Work) : Commutes (·.setPending p) (searchPosition q w) :=
  have hf := offChannel_setPending p
  .bind (.readBit hf) fun a => .bind (.readBit hf) fun b => by
    cases a && b with
    | true => exact .pure none
    | false =>
      exact .look (fun _ => rfl) fun s =>
        .bind (.update (fun _ => rfl) fun _ => rfl) fun _ => .bind (.writeBit hf _) fun _ => .pure _

theorem searchLoop_commutes : ∀ k w, Commutes (·.setPending p) (searchLoop k w)
  | 0, _ => .pure _
  | k + 1, w => .bind (searchPosition_commutes p (63 - k) w) fun
    | none => .pure none
    | some w' => searchLoop_commutes k w'

theorem closePass_setPending (w : Work) (s : State) :
    closePass w (s.setPending p) = ((closePass w s).1, (closePass w s).2.setPending p) := by
  have hstore : (s.setPending p).store = s.store := rfl
  have hrecord : (s.setPending p).recordSearch w = (s.recordSearch w).setPending p := rfl
  have hcount : ((s.recordSearch w).setPending p).deviceCount = (s.recordSearch w).deviceCount := rfl
  have hcfg : ((s.recordSearch w).setPending p).cfg = (s.recordSearch w).cfg := rfl
  unfold closePass
  simp only [hstore, hrecord, hcount, hcfg]
  split
  · rfl
  · split <;> rfl

theorem closing_commutes : ∀ o, Commutes (·.setPending p) (closing o)
  | none => .pure _
  | some w => fun s hs => by
    refine ⟨?_, hs.of_tape (closePass_closedOnly w s).tape⟩
    simp only [closing, closePass_setPending, lift]

theorem passBody_commutes (alarm : Bool) : Commutes (·.setPending p) (passBody alarm) :=
  have hf := offChannel_setPending p
  .look (fun _ => rfl) fun s => by
    cases s.lastDeviceFlag with
    | true => exact .pure _
    | false =>
      exact .bind (.resetBus hf) fun
        | false => .bind (.update (fun _ => rfl) fun _ => rfl) fun _ => .pure _
        | true => .bind (.writeByte hf _) fun _ => .bind (searchLoop_commutes p 64 _) fun
          | none => closing_commutes p none
          | some w => closing_commutes p (some w)

theorem searchPass_commutes (alarm : Bool) : Commutes (·.setPending p) (searchPass alarm) := by
  intro s hs
  obtain ⟨hrun, hkept⟩ := passBody_commutes p alarm s hs
  unfold searchPass
  rw [hrun]
  cases hb : passBody alarm s with
  | ok o t => rw [hb] at hkept; exact ⟨rfl, hkept⟩
  | error e t => rw [hb] at hkept; cases e <;> exact ⟨rfl, hkept⟩

/-! ### Every instruction -/

theorem scanPass_commutes (alarm : Bool) : Commutes (·.setPending p) (scanPass alarm) :=
  .bind (.look (fun _ => rfl) fun s => by
    split
    · exact .bind (offChannel_setPending p).tick fun _ => .update (fun _ => rfl) fun _ => rfl
    · exact .pure _) fun _ => searchPass_commutes p alarm

theorem scanStep_setPending (alarm : Bool) (s : State) :
    scanStep alarm (s.setPending p) = (scanStep alarm s).setPending p := by
  have hrun := (scanPass_commutes p alarm s (spared_setPending p s)).1
  unfold scanStep
  rw [hrun]
  cases scanPass alarm s with
  | error e t => rfl
  | ok o t =>
    have hcount : (t.setPending p).deviceCount = t.deviceCount := rfl
    simp only [lift, hcount]
    cases scanResponse t.deviceCount o with
    | none => rfl
    | some r => exact deliver_commutes (offChannel_setPending p) r t (spared_setPending p t)

theorem commandOf_commutes (s : State) (i : Instr) : Commutes (·.setPending p) (commandOf s i) := by
  have hf := offChannel_setPending p
  have hsearch (alarm : Bool) : Commutes (·.setPending p) (searchCommandBody alarm) :=
    .bind (searchPass_commutes p alarm) fun _ => .look (fun _ => rfl) fun _ => .pure _
  cases i with
  | reset => exact .bind (.resetBus hf) fun _ => .pure _
  | wrbit b => exact .bind (.writeBit hf b) fun _ => .pure _
  | wr0 => exact .bind (.writeBit hf false) fun _ => .pure _
  | wr1 => exact .bind (.writeBit hf true) fun _ => .pure _
  | rdbit => exact .bind (.readBit hf) fun _ => .pure _
  | wrbyte b => exact .bind (.writeByte hf b) fun _ => .pure _
  | rdbyte => exact .bind (.readByte hf) fun _ => .pure _
  | search alarm => exact hsearch alarm
  | asearch => exact hsearch true
  | matchrom rom =>
    exact .addressed hf (.bind (.writeByte hf _) fun _ => .bind (.writeBytes hf _) fun _ => .pure _)
  | skiprom => exact .addressed hf (.bind (.writeByte hf _) fun _ => .pure _)
  | readrom =>
    exact .addressed hf (.bind (.writeByte hf _) fun _ => .bind (.bind (.readBytes hf _) fun _ => .pure _) fun _ => .pure _)
  | clrstate => exact .bind hf.tick fun _ => .bind (.update (fun _ => rfl) fun _ => rfl) fun _ => .pure _
  | getstate => exact .bind hf.tick fun _ => .look (fun _ => rfl) fun _ => .pure _
  | _ => exact .pure _

theorem keepSlot_commutes {m : M SlotResult} (hm : Commutes (·.setPending p) m) : Commutes (·.setPending p) (keepSlot m) :=
  .bind hm fun _ => .update (fun _ => rfl) fun _ => rfl

theorem partOf_commutes (s : State) (i : Instr) : Commutes (·.setPending p) (partOf s i) := by
  have hf := offChannel_setPending p
  have hwrite (w : Bool) : Commutes (·.setPending p) (keepSlot (xfer (.write w) >>= fun r => pure (discard r))) :=
    keepSlot_commutes p (.bind (.xfer hf _) fun _ => .pure _)
  cases i with
  | wSearchRom | wAlarmSearch | wSkipRom | wReadRom | wMatchRom => exact .writeByte hf _
  | sResetPulse => exact keepSlot_commutes p (.bind (.configureBaud hf _) fun _ => .bind (.xfer hf _) fun _ => .pure _)
  | sProbe =>
    exact keepSlot_commutes p (.bind (.configureBaud hf _) fun _ => .bind (.xfer hf _) fun
      | .echo _ => .pure _
      | .timedOut => .pure _)
  | sWrite0 => exact hwrite false
  | sWrite1 => exact hwrite true
  | sRead =>
    exact keepSlot_commutes p (.bind (.xfer hf _) fun
      | .echo _ => .pure _
      | .timedOut => .pure _)
  | _ => exact .pure _

theorem part_setPending {m : M Unit} (hm : Commutes (·.setPending p) m) (s : State) :
    part m (s.setPending p) = (part m s).setPending p := by
  unfold part
  rw [(hm s (spared_setPending p s)).1]
  cases m s <;> rfl

theorem exec_getdev_setPending (k : Byte) (s : State) :
    exec (.getdev k) (s.setPending p) = mapNext (·.setPending p) (exec (.getdev k) s) := by
  have hdeliver (r : Response) : deliver r (s.setPending p) = (deliver r s).setPending p :=
    deliver_commutes (offChannel_setPending p) r s (spared_setPending p s)
  have hcount : (s.setPending p).deviceCount = s.deviceCount := rfl
  have hcfg : (s.setPending p).cfg = s.cfg := rfl
  have hentry : (s.setPending p).entry = s.entry := rfl
  simp only [exec, execGetdev, hcount, hcfg, hentry, hdeliver]
  split
  · split <;> rfl
  · rfl

/-- What an instruction gives does not depend on the port, which it leaves as it is. -/
theorem exec_setPending (i : Instr) (s : State) :
    exec i (s.setPending p) = mapNext (·.setPending p) (exec i s) := by
  cases hi : isRequest i with
  | false =>
    have hpart : partOf (s.setPending p) i = partOf s i := by cases i <;> rfl
    rw [exec_eq_part hi, exec_eq_part hi, hpart, part_setPending p (partOf_commutes p s i) s]
    rfl
  | true =>
    have hcommand (hs : isScan i = false) (hg : ∀ k, i ≠ .getdev k) :
        exec i (s.setPending p) = mapNext (·.setPending p) (exec i s) := by
      have hsame : commandOf (s.setPending p) i = commandOf s i := by cases i <;> rfl
      have hrun : finish (commandOf s i) (s.setPending p) = (finish (commandOf s i) s).setPending p :=
        finish_commutes (offChannel_setPending p) (commandOf_commutes p s i) s (spared_setPending p s)
      rw [exec_eq_command hi hs hg, exec_eq_command hi hs hg, hsame, hrun]
      rfl
    cases i with
    | scan alarm => exact congrArg Host.Outcome.next (scanStep_setPending p alarm s)
    | ascan => exact congrArg Host.Outcome.next (scanStep_setPending p true s)
    | getdev k => exact exec_getdev_setPending p k s
    | _ => exact hcommand rfl fun _ h => nomatch h

end

/-- Settles O8: an idle step latches the word, a busy one runs what it decodes to, and no instruction sees the port or writes
the latched word. -/
theorem requestStable : Obligations.RequestStable := by
  refine ⟨fun s l w ws hb ht hp => ?_, fun s hb => step_busy hb, fun i s p => ?_, fun i s t hl he =>
    (exec_keeps_port he).2 hl⟩
  · exact ⟨_, by rw [step_idle hb, idleStep_accepts ht hp], rfl, rfl⟩
  · rw [exec_setPending]
    cases exec i s <;> rfl

end Sys2Proof.Machine
end

section
/-! SUPPORT. Commands on SimBus, prompt (spec/20_memory.md R60, R70 to R78): how they end, and the addressing commands. -/

namespace Sys2Proof.Machine

/-! ### How a command ends on SimBus -/

/-- A command that keeps `BusState`, by what its computation does to SimBus. -/
theorem finish_commandOf_sim {s u : State} {sb : SimBus} {i : Instr} {r : Response} {ph : Phase} {b : Option Baud}
    (hi : keepsBusState i = true) (h : PromptSimBus s sb) (hm : commandOf s i s = .ok r u)
    (hS : Simmed s { sb with phase := ph } b u) :
    Responded s r (finish (commandOf s i) s) ∧ PromptSimBus (finish (commandOf s i) s) { sb with phase := ph } := by
  have hu := promptSimBus_of_simmed h hS
  have hr : responses u.trace = responses s.trace := responses_of_ends (Ends.commandOf channelOnly_steps s hi) hm
  rw [finish_ok hm, deliver_sim (simAt_of_prompt hu)]
  exact ⟨⟨rfl, congrArg (r.word :: ·) hr⟩, promptSimBus_respond hu⟩

/-! ### The addressing commands -/

/-- The phases after the three addressing ROM command bytes: ALARM_SEARCH_CMD is none of them. -/
theorem afterCommand_address {c : Config} (hc : c.wf = true) (devs : List Device) :
    afterCommand c devs 0x33 = .readRom 0 devs ∧ afterCommand c devs 0x55 = .matching 0 devs ∧
      afterCommand c devs 0xCC = .func devs := by
  simp only [Config.wf, Bool.and_eq_true, decide_eq_true_eq, bne_iff_ne] at hc
  obtain ⟨⟨⟨-, hskip⟩, hread⟩, hmatch⟩ := hc
  simp only [afterCommand, decodeRomCommand, if_neg hread.symm, if_neg hmatch.symm, if_neg hskip.symm]
  exact ⟨rfl, rfl, rfl⟩

/-- With some device the reset finds presence, and SimBus reads the ROM command byte. -/
theorem addressed_sim {s : State} {sb : SimBus} (b : Byte) (h : PromptSimBus s sb) (hne : sb.devs ≠ []) :
    ∃ u, (∀ body, addressed (writeByte b >>= fun _ => body) s = body u) ∧
      Simmed s { sb with phase := afterCommand s.cfg sb.devs b } (some .slot) u := by
  obtain ⟨t, ht, hS⟩ := resetBus_sim (simAt_of_prompt h) h.pull_shows_presence
  obtain ⟨u, hu, hU⟩ := writeByte_sim (sb := sb) b hS.at_ hS.baud
  have hpresent : (!sb.devs.isEmpty) = true := by simpa using hne
  rw [hpresent] at ht
  rw [hS.same.cfg] at hU
  refine ⟨u, fun body => ?_, hS.trans hU⟩
  unfold addressed
  rw [bind_run_ok ht, if_pos rfl, bind_run_ok hu]

/-- The bits of a code in the order of the wire. -/
theorem flatMap_bitsOfByte_romBytes (r : Rom) : (romBytes r).flatMap bitsOfByte = (List.range 64).map r.getLsbD := by
  have hb : ∀ j, bitsOfByte (romByte r j) = ((List.range 8).map fun i => 8 * j + i).map r.getLsbD := by
    intro j
    unfold bitsOfByte
    rw [List.map_map]
    exact List.map_congr_left fun i hi => getLsbD_romByte r j i (List.mem_range.mp hi)
  have hr : List.range 64 = (List.range 8).flatMap fun j => (List.range 8).map fun i => 8 * j + i := by decide
  rw [hr, List.map_flatMap, romBytes, List.flatMap_map]
  exact List.flatMap_congr fun j _ => hb j

/-- The devices that agree with a code at all positions are those that have it. -/
theorem remaining_all (P : List Device) (r : Rom) : remaining P r 64 = P.filter fun d => d.rom == r := by
  refine List.filter_congr fun d _ => ?_
  rw [Bool.eq_iff_iff, agrees_iff, beq_iff_eq]
  exact ⟨BitVec.eq_of_getLsbD_eq, fun h q _ => by rw [h]⟩

/-- 64 write slots of a code leave the devices that have it (20_memory.md R77). -/
theorem writeRom_sim {s : State} {sb : SimBus} (r : Rom) (h : SimAt s { sb with phase := .matching 0 sb.devs })
    (hb : s.baud = some .slot) :
    ∃ t, writeBytes (romBytes r) s = .ok () t ∧
      Simmed s { sb with phase := .func (sb.devs.filter fun d => d.rom == r) } (some .slot) t := by
  have key := writeBits_sim ((List.range 64).map r.getLsbD)
    (fun p => if p < 64 then .matching p (remaining sb.devs r p) else .func (remaining sb.devs r 64)) (sb := sb) (s := s)
    (by rw [if_pos (by decide), remaining_zero]; exact h) hb (fun p hp => by
      have hp64 : p < 64 := by simpa using hp
      rw [List.getElem_map, List.getElem_range, if_pos hp64]
      simp only [SimBus.answer, SimBus.slotAnswer, if_neg (slotByte_isSlot _), Sent.written, Sent.byte, agreeing_remaining]
      by_cases h63 : p < 63
      · rw [if_pos h63, if_pos (by omega)]
      · obtain rfl : p = 63 := by omega
        rfl)
  obtain ⟨t, ht, hS⟩ := key
  rw [List.length_map, List.length_range, if_neg (Nat.lt_irrefl 64), remaining_all] at hS
  exact ⟨t, by rw [writeBytes_eq, flatMap_bitsOfByte_romBytes]; exact ht, hS⟩

/-- 64 read slots give the AND of the codes (20_memory.md R76). -/
theorem readRom_sim {s : State} {sb : SimBus} {r : Rom} (h : SimAt s { sb with phase := .readRom 0 sb.devs })
    (hb : s.baud = some .slot) (hpull : (0xFF : Byte) &&& sb.pull ≠ 0xFF)
    (hr : ∀ p < 64, r.getLsbD p = sb.devs.all fun d => d.rom.getLsbD p) :
    ∃ t, readRomBytes s = .ok r t ∧ Simmed s { sb with phase := .func sb.devs } (some .slot) t := by
  obtain ⟨t, ht, hS⟩ := readBits_sim 64 (fun p => if p < 64 then .readRom p sb.devs else .func sb.devs)
    (fun p => readEcho sb.pull 0xFF (sb.devs.all fun d => d.bit p)) (sb := sb) (s := s) h hb (fun p hp => by
      rw [if_pos hp]
      by_cases h63 : p < 63
      · rw [if_pos (by omega)]
        simp [SimBus.answer, SimBus.slotAnswer, h63]
      · obtain rfl : p = 63 := by omega
        rfl)
  have hcode : romOfBytes (bytesOfBits 8 ((List.range 64).map fun p =>
      readEcho sb.pull 0xFF (sb.devs.all fun d => d.bit p) == 0xFF)) = r := by
    refine BitVec.eq_of_getLsbD_eq fun p hp => ?_
    simp only [readEcho_eq hpull]
    rw [getLsbD_romOfBytes_bytesOfBits _ _ hp, hr p hp]
    simp [Device.bit, hp]
  refine ⟨t, ?_, hS⟩
  unfold readRomBytes
  rw [bind_run, readBytes_eq, bind_run_ok ht]
  simp only [pure_run, hcode]

/-- Settles O34: the opening is common; then SimBus reads 64 bits of all devices, or takes 64 bits of a code, or nothing. -/
theorem addressingOnSimBus : Obligations.AddressingOnSimBus := by
  intro s sb h hne
  obtain ⟨hread, hmatch, hskip⟩ := afterCommand_address h.cfg_wf sb.devs
  refine ⟨fun rom hrom => ?_, fun rom => ?_, ?_⟩
  · obtain ⟨u, hu, hU⟩ := addressed_sim 0x33 h hne
    rw [hread] at hU
    obtain ⟨v, hv, hV⟩ := readRom_sim hU.at_ hU.baud h.pull_reads_zero hrom
    have hm : commandOf s .readrom s = .ok (readromResponse rom) v := (hu _).trans (bind_run_ok hv _)
    exact ⟨_, rfl, finish_commandOf_sim rfl h hm (hU.trans hV)⟩
  · obtain ⟨u, hu, hU⟩ := addressed_sim 0x55 h hne
    rw [hmatch] at hU
    obtain ⟨v, hv, hV⟩ := writeRom_sim rom hU.at_ hU.baud
    have hm : commandOf s (.matchrom rom) s = .ok okResponse v := (hu _).trans (bind_run_ok hv _)
    exact ⟨_, rfl, finish_commandOf_sim rfl h hm (hU.trans hV)⟩
  · obtain ⟨u, hu, hU⟩ := addressed_sim 0xCC h hne
    rw [hskip] at hU
    have hm : commandOf s .skiprom s = .ok okResponse u := hu _
    exact ⟨_, rfl, finish_commandOf_sim rfl h hm hU⟩

end Sys2Proof.Machine
end

section
/-! SUPPORT. SEARCH on SimBus, prompt, whichever devices take part (spec/20_memory.md R75, spec/42_rom_search.md R181(g)). -/

namespace Sys2Proof.Machine

/-- A SEARCH, by what SimBus makes of its pass. -/
theorem exec_search_sim {s u : State} {sb : SimBus} {alarm : Bool} {o : Outcome} {r : Response}
    (hp : searchPass alarm s = .ok o u) (hu : PromptSimBus u sb) (hresp : responses u.trace = responses s.trace)
    (hr : searchResponse u.deviceCount o = r) :
    exec (.search alarm) s = .next (u.respond r) ∧ Responded s r (u.respond r) ∧ PromptSimBus (u.respond r) sb := by
  have hm : searchCommandBody alarm s = .ok r u := by
    unfold searchCommandBody
    rw [bind_run_ok hp, look_bind, hr, pure_run]
  refine ⟨congrArg Host.Outcome.next ?_, ⟨rfl, congrArg (r.word :: ·) hresp⟩, promptSimBus_respond hu⟩
  rw [finish_ok hm, deliver_sim (simAt_of_prompt hu)]

theorem readBit_sim {s : State} {sb : SimBus} {e : Byte} {ph : Phase} (h : SimAt s sb)
    (ha : sb.answer s.cfg s.baud .read = .echo e ph) :
    ∃ t, readBit s = .ok (e == 0xFF) t ∧ Simmed s { sb with phase := ph } s.baud t := by
  obtain ⟨t, ht, hE⟩ := xfer_sim h ha
  refine ⟨t, ?_, hE.simmed⟩
  unfold readBit
  rw [bind_run_ok ht]
  rfl

/-- Against no device there is no presence. -/
theorem searchPass_sim_noDevices {s : State} {sb : SimBus} (alarm : Bool) (h : PromptSimBus s sb)
    (hf : s.lastDeviceFlag = false) (hd : sb.devs = []) :
    ∃ u, searchPass alarm s = .ok .noDevices u ∧ u.deviceCount = 0 ∧ PromptSimBus u { sb with phase := .cmd 0 0 } ∧
      responses u.trace = responses s.trace := by
  obtain ⟨t, ht, hS⟩ := resetBus_sim (simAt_of_prompt h) h.pull_shows_presence
  rw [hd] at ht
  have hr : responses t.trace = responses s.trace := responses_of_ends (Ends.resetBus channelOnly_steps) ht
  exact ⟨t.setCount 0, searchPass_noDevices alarm hf ht, rfl, { promptSimBus_of_simmed h hS with }, hr⟩

/-- Where devices are there and none takes part both reads of the first position are 1. -/
theorem searchPass_sim_busError {s : State} {sb : SimBus} (alarm : Bool) (h : PromptSimBus s sb)
    (hf : s.lastDeviceFlag = false) (hne : sb.devs ≠ []) (hP : participants sb alarm = []) :
    ∃ u, searchPass alarm s = .ok .busError u ∧ u.deviceCount = s.deviceCount ∧
      PromptSimBus u { sb with phase := .searchDir 0 [] } ∧ responses u.trace = responses s.trace := by
  obtain ⟨u, hs, hr, ⟨hat, hbaud, hcfg⟩, hb⟩ := passBody_sim alarm 0 h hf hne
  rw [hP] at hat
  obtain ⟨v, hv, hV⟩ := readBit_sim (e := 0xFF) (ph := .searchCmp 0 []) hat (by rw [hbaud]; rfl)
  obtain ⟨w, hw, hW⟩ := readBit_sim (e := 0xFF) (ph := .searchDir 0 []) hV.at_ (by rw [hV.baud, hbaud]; rfl)
  have hS := hV.trans hW
  have hloop : searchLoop 64 Work.init u = .ok none w := by
    unfold searchLoop
    rw [bind_run_ok (searchPosition_bus_error hv hw)]
    rfl
  have hread {x y : State} {c : Bool} (h : readBit x = .ok c y) : responses y.trace = responses x.trace :=
    responses_of_ends (Ends.readBit channelOnly_steps) h
  have hsame : Same s w := hs.trans hS.same
  refine ⟨w, ?_, hsame.deviceCount, promptSimBus_of_simmed h ⟨hsame, hS.at_, rfl⟩, ((hread hw).trans (hread hv)).trans hr⟩
  unfold searchPass
  rw [hb, bind_run_ok hloop]
  rfl

theorem passResponse_ne_timeout (s : State) (r : Rom) : (passResponse s r).res ≠ .timeout := by
  unfold passResponse
  split
  · split <;> exact Result.noConfusion
  · exact Result.noConfusion

/-- Settles O45: no device, none that takes part, or, whatever the search registers are, the branches of one that does. -/
theorem searchOnSimBus : Obligations.SearchOnSimBus := by
  intro s sb alarm h hwf hf
  by_cases hd : sb.devs = []
  · obtain ⟨u, hp, hc, hu, htr⟩ := searchPass_sim_noDevices alarm h hf hd
    obtain ⟨he, hresp, hprompt⟩ := exec_search_sim hp hu htr (r := ⟨.noPresence, 0, 0⟩) (by rw [hc]; rfl)
    refine ⟨_, _, he, hresp, Result.noConfusion, ⟨_, hprompt⟩, ?_⟩
    rw [if_pos hd]
    exact ⟨rfl, hc⟩
  by_cases hP : participants sb alarm = []
  · obtain ⟨u, hp, hc, hu, htr⟩ := searchPass_sim_busError alarm h hf hd hP
    obtain ⟨he, hresp, hprompt⟩ := exec_search_sim hp hu htr (r := ⟨.busError, s.deviceCount, 0⟩) (by rw [hc]; rfl)
    refine ⟨_, _, he, hresp, Result.noConfusion, ⟨_, hprompt⟩, ?_⟩
    rw [if_neg hd, if_pos hP]
    exact ⟨rfl, hc⟩
  · obtain ⟨d, hmem, hch⟩ := exists_chosen s (participants sb alarm) hP 64 (Nat.le_refl 64)
    obtain ⟨u, hp, heff, ⟨ph, hu⟩, -, htr, -⟩ := searchPass_sim alarm d.rom h hwf hf ⟨d, hmem, rfl⟩ hch
    obtain ⟨he, hresp, hprompt⟩ := exec_search_sim hp hu htr (searchResponse_of_effect heff)
    refine ⟨_, _, he, hresp, passResponse_ne_timeout s d.rom, ⟨ph, hprompt⟩, ?_⟩
    rw [if_neg hd, if_neg hP]
    exact ⟨d, hmem, heff.scratch, rfl⟩

end Sys2Proof.Machine
end

section
/-! SUPPORT. The fields of request and response words, the words of the lines of assembler, and the ROM command bytes (spec/30_encoding.md). -/

namespace Sys2Proof

/-! ### Fields (R91, R92) -/

/-- The bytes of the field `rom`, where they stand in the word. -/
theorem extractLsb'_rom (w : HostWord) {j : Nat} (hj : j < 8) : w.extractLsb' (16 + 8 * j) 8 = romByte (reqRom w) j := by
  apply BitVec.eq_of_getLsbD_eq
  intro i hi
  have hr : 8 * j + i < 64 := by omega
  rw [getLsbD_romByte _ _ _ hi, reqRom, BitVec.getLsbD_extractLsb', BitVec.getLsbD_extractLsb', ← Nat.add_assoc]
  simp [hi, hr]

/-- The fields of a word made of them, and the bytes of its field `rom`. -/
theorem fields_reqWord (op arg : Byte) (rom : Rom) :
    (reqWord op arg rom).extractLsb' 0 8 = op ∧ (reqWord op arg rom).extractLsb' 8 8 = arg ∧
      (reqWord op arg rom).extractLsb' 16 64 = rom ∧
      ∀ j < 8, (reqWord op arg rom).extractLsb' (16 + 8 * j) 8 = romByte rom j := by
  refine ⟨reqOp_reqWord op arg rom, reqArg_reqWord op arg rom, reqRom_reqWord op arg rom, fun j hj => ?_⟩
  rw [extractLsb'_rom _ hj, reqRom_reqWord]

/-- A response word has its fields where a request word has them. -/
theorem response_word_eq_reqWord (r : Machine.Response) : r.word = reqWord r.res.code r.val r.rom := rfl

/-! ### Codes (R93, R94, R96) -/

/-- A code that is not assigned, whatever the other fields hold. -/
theorem decode_reqWord_unassigned {op : Byte} (ho : op = 0x00 ∨ 0x10 ≤ op.toNat) (arg : Byte) (rom : Rom) :
    decode (reqWord op arg rom) = .unassigned op := by
  have h0 : op.toNat = 0 ∨ 15 < op.toNat := ho.imp (congrArg BitVec.toNat) id
  unfold decode
  rw [reqOp_reqWord]
  split
  case h_16 => rfl
  all_goals omega

/-- Settles O2: the fields give the word back, and the decoder sees nothing of it but its fields. -/
theorem requestFieldsAndCodes : Obligations.RequestFieldsAndCodes := by
  refine ⟨fields_reqWord, fun w => ⟨_, _, _, (reqWord_fields w).symm⟩, fun arg rom => ?_,
    fun op arg rom ho => decode_reqWord_unassigned ho arg rom⟩
  simp only [decode, reqOp_reqWord, reqArg_reqWord, reqRom_reqWord]
  exact ⟨rfl, rfl, rfl, rfl, rfl, rfl, rfl, rfl, rfl, rfl, rfl, rfl, rfl, rfl, rfl⟩

theorem result_code_le (r : Machine.Result) : r.code.toNat ≤ 8 := by cases r <;> decide

/-- Settles O5: the fields are those of a word made like a request. -/
theorem responseFieldsAndCodes : Obligations.ResponseFieldsAndCodes := by
  refine ⟨fun r => ?_, rfl, rfl, rfl, rfl, rfl, rfl, rfl, rfl, rfl, result_code_le⟩
  rw [response_word_eq_reqWord]
  exact fields_reqWord r.res.code r.val r.rom

/-! ### Lines of assembler (R102, R103) -/

/-- A byte put before the bytes of a code is appended below its bits. -/
theorem romOfBytes_cons {n : Nat} {bs : List Byte} {x : BitVec n} (hx : romOfBytes bs = x.setWidth 64) (b : Byte) :
    romOfBytes (b :: bs) = (x ++ b).setWidth 64 := by
  apply BitVec.eq_of_getLsbD_eq
  intro i hi
  simp only [romOfBytes, hx, BitVec.getLsbD_or, BitVec.getLsbD_shiftLeft, BitVec.getLsbD_setWidth, BitVec.getLsbD_append, hi]
  by_cases h8 : i < 8
  · simp [h8]
  · have hb : b.getLsbD i = false := BitVec.getLsbD_of_ge b i (by omega)
    have h64 : i - 8 < 64 := by omega
    simp [h8, h64, hb]

/-- A code written out byte by byte, family byte first, as bits. -/
theorem romOfBytes_eight (b0 b1 b2 b3 b4 b5 b6 b7 : Byte) :
    romOfBytes [b0, b1, b2, b3, b4, b5, b6, b7] = b7 ++ b6 ++ b5 ++ b4 ++ b3 ++ b2 ++ b1 ++ b0 := by
  have h7 : romOfBytes [b7] = b7.setWidth 64 := by simp [romOfBytes]
  have h6 := romOfBytes_cons h7 b6
  have h5 := romOfBytes_cons h6 b5
  have h4 := romOfBytes_cons h5 b4
  have h3 := romOfBytes_cons h4 b3
  have h2 := romOfBytes_cons h3 b2
  have h1 := romOfBytes_cons h2 b1
  exact (romOfBytes_cons h1 b0).trans (BitVec.setWidth_eq _)

/-- The word of a command on a code written out byte by byte. -/
theorem reqWord_romOfBytes_eight (op arg b0 b1 b2 b3 b4 b5 b6 b7 : Byte) :
    reqWord op arg (romOfBytes [b0, b1, b2, b3, b4, b5, b6, b7]) =
      b7 ++ b6 ++ b5 ++ b4 ++ b3 ++ b2 ++ b1 ++ b0 ++ arg ++ op := by
  rw [romOfBytes_eight, reqWord]

/-- Settles O3: the words of codes from their bytes, all other words closed; the printed words are those of their lines. -/
theorem assemblerWords : Obligations.AssemblerWords := by
  refine ⟨by decide, by decide, by decide, by decide, fun _ => rfl, by decide, by decide, by decide, by decide, by decide,
    fun b0 b1 b2 b3 b4 b5 b6 b7 => congrArg some (reqWord_romOfBytes_eight 0x08 0 b0 b1 b2 b3 b4 b5 b6 b7),
    by decide, by decide, by decide,
    fun b0 b1 b2 b3 b4 b5 b6 b7 => congrArg some (reqWord_romOfBytes_eight 0x0C 0 b0 b1 b2 b3 b4 b5 b6 b7),
    by decide, fun _ => rfl, by decide, decode_of_encode rfl (by decide), decode_of_encode rfl (by decide)⟩

theorem encode_expand (i : Instr) : encode i.expand = encode i := by cases i <;> rfl

/-- The meaning of a pseudo-instruction is its expansion's. -/
theorem exec_expand (i : Instr) (s : Machine.State) : Machine.exec i.expand s = Machine.exec i s := by cases i <;> rfl

/-- Settles O4: encoder and machine treat an instruction as its expansion; the decoder gives the expansion back. -/
theorem pseudoInstructions : Obligations.PseudoInstructions :=
  ⟨⟨(encode_expand .asearch).symm, (encode_expand .ascan).symm, (encode_expand .wr0).symm, (encode_expand .wr1).symm⟩,
    ⟨decode_of_encode rfl (by decide), decode_of_encode rfl (by decide), decode_of_encode rfl (by decide),
      decode_of_encode rfl (by decide)⟩,
    fun s => ⟨(exec_expand .asearch s).symm, (exec_expand .ascan s).symm, (exec_expand .wr0 s).symm,
      (exec_expand .wr1 s).symm⟩⟩

/-! ### ROM command bytes (R98, R99) -/

/-- The parameter is none of the other four bytes (spec/00_scope.md R5). -/
theorem Config.alarmSearchCmd_ne {c : Config} (hc : c.wf = true) : c.alarmSearchCmd ≠ 0xF0 ∧ c.alarmSearchCmd ≠ 0xCC ∧
    c.alarmSearchCmd ≠ 0x33 ∧ c.alarmSearchCmd ≠ 0x55 := by
  simp only [Config.wf, Bool.and_eq_true, decide_eq_true_eq, bne_iff_ne] at hc
  obtain ⟨⟨⟨⟨-, hsearch⟩, hskip⟩, hread⟩, hmatch⟩ := hc
  exact ⟨hsearch, hskip, hread, hmatch⟩

theorem romCommandByte_of_decode {c : Config} {i : Instr} {b : Byte} (h : decodeRomCommand c b = some i) :
    romCommandByte c i = some b := by
  unfold decodeRomCommand at h
  split_ifs at h with hsearch halarm hread hmatch hskip <;> obtain rfl := Option.some.inj h
  · exact congrArg some hsearch.symm
  · exact congrArg some halarm.symm
  · exact congrArg some hread.symm
  · exact congrArg some hmatch.symm
  · exact congrArg some hskip.symm

theorem decodeRomCommand_of_byte {c : Config} (hc : c.wf = true) {i : Instr} {b : Byte} (h : romCommandByte c i = some b) :
    decodeRomCommand c b = some i := by
  obtain ⟨hsearch, hskip, hread, hmatch⟩ := Config.alarmSearchCmd_ne hc
  unfold decodeRomCommand
  cases i with
  | wSearchRom =>
    obtain rfl := Option.some.inj h
    rfl
  | wAlarmSearch =>
    obtain rfl := Option.some.inj h
    rw [if_neg hsearch, if_pos rfl]
  | wSkipRom =>
    obtain rfl := Option.some.inj h
    rw [if_neg (by decide), if_neg hskip.symm]
    rfl
  | wReadRom =>
    obtain rfl := Option.some.inj h
    rw [if_neg (by decide), if_neg hread.symm]
    rfl
  | wMatchRom =>
    obtain rfl := Option.some.inj h
    rw [if_neg (by decide), if_neg hmatch.symm]
    rfl
  | _ => cases h

namespace Machine

/-- A row of layer W is the sending of its byte. -/
theorem exec_romCommand {s : State} {i : Instr} {b : Byte} (h : romCommandByte s.cfg i = some b) :
    exec i s = .next (part (writeByte b) s) := by
  cases i with
  | wSearchRom | wAlarmSearch | wSkipRom | wReadRom | wMatchRom =>
    obtain rfl := Option.some.inj h
    rfl
  | _ => cases h

theorem part_ok {m : M Unit} {s t : State} (h : m s = .ok () t) : part m s = t := by
  unfold part
  rw [h]

/-- Settles O35: a row of layer W is `WriteByte` of its byte; under allowed parameters the five bytes differ. -/
theorem romCommandBytes : Obligations.RomCommandBytes := by
  refine ⟨fun s i b ds rest hb hl hd ht => ?_, fun c hc i b => ⟨decodeRomCommand_of_byte hc, romCommandByte_of_decode⟩,
    by decide, by decide, by decide, by decide, by decide⟩
  obtain ⟨t, hw, hD⟩ := writeByte_draws b ds s rest hl hd ht
  refine ⟨t, by rw [exec_romCommand hb, part_ok hw], ?_⟩
  rw [writeEvents, bitsOfByte, List.map_map] at hD
  exact hD

end Machine

end Sys2Proof
end

section
/-! SUPPORT. The commands of the codec, with each of their waits decided by the tape (spec/40_codec.md). -/

namespace Sys2Proof.Machine

/-! ### What the codec's commands leave unchanged (R133) -/

/-- A request that keeps `BusState`, the reset input away: channel events, then the response. -/
theorem exec_keeping {i : Instr} {s t : State} (hk : keepsBusState i = true) (hl : s.live) (he : exec i s = .next t) :
    ∃ v r, Same s v ∧ t = v.respond r := by
  rcases keeping_request_cases channelOnly_steps (fun _ _ h => h) hk he with ⟨v, r, ⟨hv, -⟩, ht⟩ | ⟨hdead, -⟩
  · exact ⟨v, r, hv, ht⟩
  · exact absurd hl hdead

/-- Settles O17: neither the channel's events nor the response touch these fields. -/
theorem commandsThatKeepBusState : Obligations.CommandsThatKeepBusState := by
  intro i s t hk hl he
  obtain ⟨v, r, hv, rfl⟩ := exec_keeping hk hl he
  exact ⟨hv.toSameBusState.trans (HandsOver.responded r).sameBusState, hv.slot, fun a => by rw [State.respond_store, hv.store]⟩

/-! ### Waits (R121, R122) -/

/-- A poll that finds the flag set consumes the mailbox. -/
theorem poll_ready {s : State} {l : List Move} (h : s.tape = .master :: l) (hr : s.echoReady = true) :
    poll s = .ok (some s.echoBuffer) (s.setTape l).consume := by
  unfold poll
  rw [bind_run_ok (tick_master h), look_bind, State.setTape_echoReady, if_pos hr]
  rfl

/-- A wait that begins with the flag set ends at its first poll. -/
theorem awaitEcho_ready {s : State} {l : List Move} (hT : 1 ≤ s.cfg.readTimeout) (h : s.tape = .master :: l)
    (hr : s.echoReady = true) : awaitEcho s = .ok (.echo s.echoBuffer) (s.setTape l).consume := by
  obtain ⟨k, hk⟩ : ∃ k, s.cfg.readTimeout = k + 1 := ⟨s.cfg.readTimeout - 1, by omega⟩
  unfold awaitEcho
  rw [look_bind, hk]
  unfold awaitLoop
  rw [bind_run_ok (poll_ready h hr)]
  rfl

/-- Settles O22: the three courses of a wait. -/
theorem awaitEchoOutcomes : Obligations.AwaitEchoOutcomes := by
  refine ⟨fun s k v rest hk hr ht => ?_, fun s rest hT hr ht => awaitEcho_ready hT ht hr,
    fun s rest hr ht => awaitEcho_expired ht hr⟩
  have hsame : Same s ((s.deposit v).setTape rest).consume :=
    (same_deposit s v).trans ((same_setTape _ rest).trans (same_consume _))
  exact ⟨_, awaitEcho_echo hk ht hr, ⟨hsame, rfl, rfl, rfl, rfl⟩, rfl⟩

/-- Settles O23: the draw law of a transmit holds of every byte and from any mailbox. -/
theorem xferOutcomes : Obligations.XferOutcomes := fun _ x _ _ hd ht => xfer_draw x hd ht

/-! ### How a command ends after channel events the tape decided -/

section
variable {s t : State} {m : M Response} {rest : List Move} {tr : List Action} {b : Option Baud}

theorem answered_of_ok {r : Response} (hm : m s = .ok r t) (hD : Drawn s (.master :: rest) tr b t) :
    Answered s rest tr b r (finish m s) := by
  rw [finish_ok hm]
  exact answered_of_drawn r hD

theorem answered_of_timeout (hm : m s = .error .timeout t) (hD : Drawn s (.master :: rest) tr b t) :
    Answered s rest tr b ⟨.timeout, 0, 0⟩ (finish m s) := by
  rw [finish_timeout hm]
  exact answered_of_drawn timeoutResponse hD

end

/-! ### The commands (R128 to R132) -/

/-- Settles O24: the bus reset as the tape decides its waits, and as SimBus echoes its two bytes. -/
theorem resetCommand : Obligations.ResetCommand := by
  constructor
  · intro s d1 d2 rest h1 h2 ht
    obtain ⟨t, hb, hD⟩ := resetBus_draws h1 h2 ht
    refine ⟨_, rfl, ?_⟩
    cases d1 with
    | expired => exact answered_of_timeout (bind_run_error hb _) hD
    | echo k1 v1 =>
      cases d2 with
      | expired => exact answered_of_timeout (bind_run_error hb _) hD
      | echo k2 v2 =>
        have hA := answered_of_ok (m := commandOf s .reset) (bind_run_ok hb _) hD
        simp only [bne_iff_ne] at hA
        exact hA
  · intro s sb h
    obtain ⟨t, hb, hS⟩ := resetBus_sim (simAt_of_prompt h) h.pull_shows_presence
    have hm : commandOf s .reset s = .ok (if sb.devs.isEmpty then noPresenceResponse else ⟨.ok, 1, 0⟩) t :=
      (bind_run_ok hb _).trans (by cases sb.devs.isEmpty <;> rfl)
    exact ⟨_, rfl, finish_commandOf_sim rfl h hm hS⟩

/-- Settles O25: the wait's result is not looked at. -/
theorem writeBitCommands : Obligations.WriteBitCommands := by
  intro s b d rest hd ht
  obtain ⟨t, hw, hD⟩ := writeBit_draw b hd ht
  refine ⟨_, rfl, ?_, ?_, answered_of_ok (bind_run_ok hw _) hD⟩
  · rintro rfl; rfl
  · rintro rfl; rfl

/-- Settles O26: a read slot whose wait expires, and one whose echo comes. -/
theorem readBitCommand : Obligations.ReadBitCommand := by
  intro s d rest hd ht
  refine ⟨_, rfl, ?_⟩
  cases d with
  | expired =>
    obtain ⟨t, hr, hD⟩ := readBit_expired ht
    exact answered_of_timeout (bind_run_error hr _) hD
  | echo k v =>
    obtain ⟨t, hr, hD⟩ := readBit_draw hd ht
    have hval : (⟨.ok, bitVal (v == 0xFF), 0⟩ : Response) = if v = 0xFF then ⟨.ok, 1, 0⟩ else ⟨.ok, 0, 0⟩ := by
      by_cases hv : v = 0xFF
      · rw [if_pos hv, hv]; rfl
      · rw [if_neg hv, beq_eq_false_iff_ne.mpr hv]; rfl
    dsimp only
    rw [← hval]
    exact answered_of_ok (bind_run_ok hr _) hD

/-- Settles O27: eight write slots, whatever their waits do. -/
theorem writeByteCommand : Obligations.WriteByteCommand := by
  intro s b ds rest hl hd ht
  obtain ⟨t, hw, hD⟩ := writeByte_draws b ds s _ hl hd ht
  rw [writeEvents, bitsOfByte, List.map_map] at hD
  exact ⟨_, rfl, answered_of_ok (bind_run_ok hw _) hD⟩

/-- The byte that eight echoes make: bit `i` is 1 iff echo `i` is 0xFF. -/
theorem byteOfBits_echoes {kv : List (Nat × Byte)} {c : Byte} (hl : kv.length = 8)
    (hc : ∀ i < 8, c.getLsbD i = ((kv.map Prod.snd)[i]? == some 0xFF)) : byteOfBits (kv.map fun x => x.2 == 0xFF) = c := by
  refine BitVec.eq_of_getLsbD_eq fun i hi => ?_
  have hi' : i < kv.length := hl ▸ hi
  rw [getLsbD_byteOfBits _ _ hi, hc i hi]
  simp [hi']

/-- Settles O28: reads in a row, all echoed or up to the first that is not. -/
theorem readByteCommand : Obligations.ReadByteCommand := by
  constructor
  · intro s kv c rest hl hk ht hc
    have hne : kv = [] → s.echoReady = false := by
      rintro rfl
      cases hl
    obtain ⟨t, hr, hD⟩ := readBits_draws kv s _ hk ht hne
    rw [hl] at hr
    have hbyte : readByte s = .ok c t := by rw [← byteOfBits_echoes hl hc]; exact bind_run_ok hr _
    exact ⟨_, rfl, answered_of_ok (bind_run_ok hbyte _) hD⟩
  · intro s kv rest hl hk ht
    obtain ⟨t, hr, hD⟩ := readBits_expired kv 8 s _ hl hk ht
    have hbyte : readByte s = .error .timeout t := bind_run_error hr _
    exact ⟨_, rfl, answered_of_timeout (bind_run_error hbyte _) hD⟩

/-! ### The slot symbols (30_encoding.md R100) -/

theorem configureBaud_master {s : State} {l : List Move} (r : Baud) (h : s.tape = .master :: l) :
    configureBaud r s = .ok () ((s.setTape l).setBaud r) := by
  unfold configureBaud
  rw [bind_run_ok (tick_master h), update_run]

section
variable {s : State} {d : Draw} {rest : List Move} {x : Sent} {decoded : Wait → M SlotResult} {r : SlotResult}

/-- A result kept after channel events the tape decided. -/
theorem drawn_keepSlot {t : State} {m : M SlotResult} {tr : List Action} {b : Option Baud} (hm : m s = .ok r t)
    (hD : Drawn s rest tr b t) : Drawn (s.setSlot r) rest tr b (part (keepSlot m) s) := by
  have hk : keepSlot m s = .ok () (t.setSlot r) := bind_run_ok hm _
  rw [part_ok hk]
  exact { hD with same := { hD.same with slot := rfl } }

/-- A slot symbol sent at the rate the channel has. -/
theorem drawn_slot (hr : decoded d.wait = pure r) (hd : d.admits s.cfg.readTimeout)
    (ht : s.tape = d.moves s.cfg.readTimeout ++ rest) :
    Drawn (s.setSlot r) rest (d.events x.byte s.trace) s.baud (part (keepSlot (xfer x >>= decoded)) s) := by
  obtain ⟨t, hx, hD⟩ := xfer_draw x hd ht
  exact drawn_keepSlot (by rw [bind_run_ok hx, hr, pure_run]) hD

/-- A slot symbol that sets its rate first. -/
theorem drawn_slot_at (rate : Baud) (hr : decoded d.wait = pure r) (hd : d.admits s.cfg.readTimeout)
    (ht : s.tape = .master :: (d.moves s.cfg.readTimeout ++ rest)) :
    Drawn (s.setSlot r) rest (d.events x.byte (.baud rate :: s.trace)) (some rate)
      (part (keepSlot (configureBaud rate >>= fun _ => xfer x >>= decoded)) s) := by
  have hb := configureBaud_master rate ht
  have hs : Same s ((s.setTape (d.moves s.cfg.readTimeout ++ rest)).setBaud rate) :=
    (same_setTape s _).trans (same_setBaud _ rate)
  obtain ⟨t, hx, hD⟩ := xfer_draw (s := (s.setTape (d.moves s.cfg.readTimeout ++ rest)).setBaud rate) x hd rfl
  refine drawn_keepSlot ?_ { hD with same := hs.trans hD.same }
  rw [bind_run_ok hb, bind_run_ok hx, hr, pure_run]

end

/-- Settles O36: each row is one transmit, its echo decoded as the row says. -/
theorem slotSymbols : Obligations.SlotSymbols := by
  refine ⟨fun s d rest hd ht => ⟨⟨_, rfl, ?_⟩, ⟨_, rfl, ?_⟩, ⟨_, rfl, ?_⟩⟩,
    fun s d rest hd ht => ⟨⟨_, rfl, ?_⟩, ⟨_, rfl, ?_⟩⟩⟩
  · exact drawn_slot (x := .write false) (by cases d <;> rfl) hd ht
  · exact drawn_slot (x := .write true) (by cases d <;> rfl) hd ht
  · exact drawn_slot (x := .read) (by cases d <;> rfl) hd ht
  · exact drawn_slot_at (x := .other s.cfg.resetByte) .reset (by cases d <;> rfl) hd ht
  · exact drawn_slot_at (x := .other s.cfg.probeByte) .slot (by cases d <;> rfl) hd ht

end Sys2Proof.Machine
end

section
/-! SUPPORT. The CRC (spec/41_crc8.md): its algebra, the accumulator of a search pass, the CRC8 command. -/

namespace Sys2Proof.Machine

/-! ### The algebra (R152) -/

/-- Bit by bit the update is made of exclusive-ors and a mask. -/
theorem crc8Bit_xor (c x : Byte) (d e : Bool) : crc8Bit (c ^^^ x) (d ^^ e) = crc8Bit c d ^^^ crc8Bit x e := by
  apply BitVec.eq_of_getLsbD_eq
  intro i _
  simp only [getLsbD_crc8Bit, BitVec.getLsbD_xor, Bool.and_xor_distrib_right, Bool.xor_assoc, Bool.xor_left_comm]

/-- Bit 7 of the result tells whether the mask was added, since 0x8C has it set. -/
theorem eq_zero_of_crc8Bit_false {c : Byte} (h : crc8Bit c false = 0) : c = 0 := by
  have hbit (i : Nat) : (c.getLsbD (i + 1) ^^ (c.getLsbD 0 && (0x8C : Byte).getLsbD i)) = false := by
    have hi := getLsbD_crc8Bit c false i
    rw [h, Bool.xor_false] at hi
    exact hi.symm.trans BitVec.getLsbD_zero
  have h0 : c.getLsbD 0 = false := by
    have h7 := hbit 7
    rwa [BitVec.getLsbD_of_ge c 8 (Nat.le_refl 8), Bool.false_xor, show (0x8C : Byte).getLsbD 7 = true from rfl,
      Bool.and_true] at h7
  apply BitVec.eq_of_getLsbD_eq
  intro i _
  rw [show (0 : Byte).getLsbD i = false from BitVec.getLsbD_zero]
  cases i with
  | zero => exact h0
  | succ i => simpa only [h0, Bool.false_and, Bool.xor_false] using hbit i

/-- By linearity the difference of two registers with one image is mapped to 0. -/
theorem crc8Bit_bijective (d : Bool) : Function.Bijective fun c => crc8Bit c d := by
  refine Finite.injective_iff_bijective.mp fun c x h => BitVec.xor_eq_zero_iff.mp (eq_zero_of_crc8Bit_false ?_)
  calc crc8Bit (c ^^^ x) false = crc8Bit c d ^^^ crc8Bit x d := by rw [← crc8Bit_xor, Bool.xor_self]
    _ = 0 := BitVec.xor_eq_zero_iff.mpr h

theorem crc8_replicate_zero (n : Nat) : crc8 (List.replicate n 0) = 0 := by
  induction n with
  | zero => rfl
  | succ n ih => rw [List.replicate_succ', crc8_append, ih, crc8Byte_eq_zero_iff]

theorem crc8_append_crc8 (B : List Byte) : crc8 (B ++ [crc8 B]) = 0 := by
  rw [crc8_append, crc8Byte_eq_zero_iff]

/-! ### The CRC of a code (R154) -/

theorem romCrc_eq_crc8 (r : Rom) : romCrc r = crc8 ((List.range 7).map (romByte r)) := by
  rw [romCrc, romBytes, ← List.map_take, List.take_range]
  rfl

theorem romValid_iff (r : Rom) : romValid r = true ↔ crc8 ((List.range 7).map (romByte r)) = romByte r 7 := by
  rw [romValid, beq_iff_eq, romCrc_eq_crc8]

/-- Settles O48: linearity gives the bijection; a byte equal to the register takes it to 0, and no other byte does. -/
theorem crcAlgebra : Obligations.CrcAlgebra :=
  ⟨crc8Bit_xor, crc8Bit_bijective, crc8_replicate_zero, crc8_append_crc8,
    fun r => (romValid_iff r).symm.trans (romValid_iff_residue r)⟩

/-! ### The accumulator of a search pass (R153) -/

/-- Settles O44: each position feeds the bit it stores, so that after 64 the register has taken the first seven bytes. -/
theorem passAccumulator : Obligations.PassAccumulator := by
  intro s t w hs hloop
  have hw : WorkOk 64 w t := searchLoop_workOk (Nat.le_refl 64) (workOk_init hs) hloop
  rw [romCrc_of_workOk hw, romCrc_eq_crc8]
  congr 1
  apply List.map_congr_left
  intro j hj
  have hj7 : j < 7 := List.mem_range.mp hj
  rw [State.scratch, romByte_readRomAt _ _ _ (by omega), Nat.zero_add]

/-! ### The CRC8 command (R155) -/

theorem crc8Response_eq (r : Rom) : crc8Response r =
    if crc8 ((List.range 7).map (romByte r)) = romByte r 7 then ⟨.ok, crc8 ((List.range 7).map (romByte r)), 0⟩
    else ⟨.crcMismatch, crc8 ((List.range 7).map (romByte r)), 0⟩ := by
  rw [crc8Response, romCrc_eq_crc8]
  by_cases hv : romValid r = true
  · rw [if_pos hv, if_pos ((romValid_iff r).mp hv)]
  · rw [if_neg hv, if_neg (mt (romValid_iff r).mpr hv)]

/-- Settles O49: the command is its response, which the tape lets the master give next. -/
theorem crc8Command : Obligations.Crc8Command := by
  intro s rom rest ht
  calc exec (.crc8 rom) s = .next (deliver (crc8Response rom) s) := rfl
    _ = .next (s.answeredWith rest (crc8Response rom)) := by rw [deliver_master _ ht]; rfl
    _ = _ := by rw [crc8Response_eq]

end Sys2Proof.Machine
end

section
/-! SUPPORT. Commands that put nothing on the channel (spec/44_state_access.md, spec/41_crc8.md R155). -/

namespace Sys2Proof.Machine

/-- On the way from `s` to `t` the master put no event on the channel and the rate stayed. -/
structure ChannelSilent (s t : State) : Prop where
  outputs : outputs t.trace = outputs s.trace
  baud : t.baud = s.baud

theorem ChannelSilent.refl (s : State) : ChannelSilent s s := ⟨rfl, rfl⟩

theorem ChannelSilent.trans {s t u : State} (h1 : ChannelSilent s t) (h2 : ChannelSilent t u) : ChannelSilent s u :=
  ⟨h2.outputs.trans h1.outputs, h2.baud.trans h1.baud⟩

/-- `ChannelSilent`, however the computation ends. -/
def Silently (s : State) (_ : Option Stop) (t : State) : Prop := ChannelSilent s t

theorem silently_composes : Composes Silently := ⟨.refl, .refl, .trans⟩

/-! ### The other agents' moves -/

theorem channelSilent_deposit (s : State) (v : Byte) : ChannelSilent s (s.deposit v) := ⟨rfl, rfl⟩

theorem channelSilent_foldl_deposit (vs : List Byte) (s : State) : ChannelSilent s (vs.foldl State.deposit s) := by
  induction vs generalizing s with
  | nil => exact .refl s
  | cons v vs ih => exact (channelSilent_deposit s v).trans (ih _)

theorem channelSilent_depositOldest (s : State) : ChannelSilent s s.depositOldest := by
  unfold State.depositOldest
  split <;> exact ⟨rfl, rfl⟩

theorem channelSilent_surroundings (s : State) : ChannelSilent s s.surroundings := by
  unfold State.surroundings
  split
  · exact (channelSilent_foldl_deposit s.inFlight s).trans ⟨rfl, rfl⟩
  · split <;> exact ⟨rfl, rfl⟩

theorem playTape_silently (l : List Move) (s : State) : Goes Silently s (playTape l s) := by
  have hP := silently_composes
  induction l generalizing s with
  | nil => exact ChannelSilent.trans (t := s.setTape []) ⟨rfl, rfl⟩ (channelSilent_surroundings _)
  | cons m l ih =>
    cases m with
    | master => exact ⟨rfl, rfl⟩
    | reset => exact ⟨rfl, rfl⟩
    | deposit v => exact Goes.trans hP (channelSilent_deposit s v) (ih _)
    | echo => exact Goes.trans hP (channelSilent_depositOldest s) (ih _)
    | lose => exact Goes.trans hP (t := s.dropEcho) ⟨rfl, rfl⟩ (ih _)

theorem tick_silently : Ends Silently tick := fun s => playTape_silently s.tape s

/-! ### Commands without a channel primitive -/

theorem silently_followed : Followed Silently Silently where
  of := id
  tick_ok h ht := h.trans (tick_silently.of_ok ht)
  tick_error h ht := h.trans (tick_silently.of_error ht)

/-- The response is no event of the channel. -/
theorem finish_channelSilent {m : M Response} (hm : Ends Silently m) (s : State) : ChannelSilent s (finish m s) := by
  rcases finish_cases silently_followed (fun _ _ h => h) (hm s) with ⟨v, r, hv, he⟩ | hk
  · rw [he]
    exact ChannelSilent.trans hv ⟨rfl, rfl⟩
  · exact hk

theorem exec_channelSilent {i : Instr} {s t : State} (hi : isRequest i = true) (hs : isScan i = false)
    (hm : Ends Silently (commandOf s i)) (he : exec i s = .next t) : ChannelSilent s t := by
  rw [exec_eq_finish hi hs he]
  exact finish_channelSilent hm s

theorem commandOf_clrstate_silently (s : State) : Ends Silently (commandOf s .clrstate) :=
  have hP := silently_composes
  Ends.bind hP tick_silently fun _ => Ends.bind hP (Ends.update fun _ => ⟨rfl, rfl⟩) fun _ => Ends.pure hP _

theorem commandOf_getstate_silently (s : State) : Ends Silently (commandOf s .getstate) :=
  have hP := silently_composes
  Ends.bind hP tick_silently fun _ => Ends.bind hP (Ends.look hP) fun _ => Ends.pure hP _

/-- Settles O18: before the response there is at most a clear or a look, each after the other agents' moves. -/
theorem commandsWithoutChannelEvents : Obligations.CommandsWithoutChannelEvents := by
  intro i s t hi he
  have h : ChannelSilent s t := by
    obtain rfl | rfl | rfl | ⟨k, rfl⟩ | ⟨r, rfl⟩ | ⟨op, rfl⟩ := hi
    · exact exec_channelSilent rfl rfl (commandOf_clrstate_silently s) he
    · exact exec_channelSilent rfl rfl (commandOf_getstate_silently s) he
    all_goals exact exec_channelSilent rfl rfl (Ends.pure silently_composes _) he
  exact ⟨h.outputs, h.baud⟩

end Sys2Proof.Machine
end

section
/-! SUPPORT. A search on SimBus taken in the order of enumeration: which code a pass gives from the registers the last one left
(spec/42_rom_search.md R168, R174, R175). -/

namespace Sys2Proof.Machine

/-! ### The first code, and the one that follows -/

/-- `r` is the first code of the devices of `P`. -/
def FirstCode (P : List Device) (r : Rom) : Prop := ∀ d ∈ P, d.rom = r ∨ codeBefore r d.rom

/-- `r` is the code of the devices of `P` that follows `a`. -/
def NextCode (P : List Device) (a r : Rom) : Prop :=
  codeBefore a r ∧ ∀ d ∈ P, codeBefore a d.rom → d.rom = r ∨ codeBefore r d.rom

/-- The search registers are those a pass that found a code of `P` leaves where another follows. -/
structure ResumesAfter (P : List Device) (s : State) : Prop where
  code : ∃ d ∈ P, d.rom = s.scratch
  more : s.lastDiscrepancy ≠ 0
  opened : s.lastDiscrepancy.toNat = lastOpen s.scratch (simReads P s.scratch) 64

/-- Two codes that agree below `p` and differ at `p` are in the order their bits at `p` say. -/
theorem bit_false_of_codeBefore {a b : Rom} {p : Nat} (h : codeBefore a b) (hp : ∀ q < p, a.getLsbD q = b.getLsbD q)
    (hne : b.getLsbD p = !a.getLsbD p) : a.getLsbD p = false := by
  obtain ⟨m, -, hm, ha, hb⟩ := h
  rcases Nat.lt_trichotomy m p with hlt | rfl | hlt
  · have heq := hp m hlt
    rw [ha, hb] at heq
    cases heq
  · exact ha
  · have heq := hm p hlt
    rw [hne] at heq
    exact absurd heq.symm (Bool.not_ne_self _)

/-- Where a code not before `r` leaves `r` at position `p`, `r` has bit 0 there. -/
theorem bit_false_of_leaves {r c : Rom} {p : Nat} (h : c = r ∨ codeBefore r c) (hag : ∀ q < p, c.getLsbD q = r.getLsbD q)
    (hne : c.getLsbD p = !r.getLsbD p) : r.getLsbD p = false := by
  rcases h with rfl | h
  · exact absurd hne.symm (Bool.not_ne_self _)
  · exact bit_false_of_codeBefore h (fun q hq => (hag q hq).symm) hne

section
variable {P : List Device} {s : State} {r : Rom}

/-- A fresh search takes 0 at every discrepancy, which leads to the first code. -/
theorem chosen_first (hr : ∃ d ∈ P, d.rom = r) (hfresh : s.lastDiscrepancy = 0) (hfirst : FirstCode P r) (p : Nat) :
    r.getLsbD p = s.chosen p (simReads P r p) := by
  rcases simReads_of_mem hr p with ⟨h, -⟩ | ⟨h, d, hd, hag, hne⟩
  · rw [h, chosen_agreed]
  · rw [h, bit_false_of_leaves (hfirst d hd) hag hne]
    simp [State.chosen, hfresh]

/-- The code that follows `a` leaves `a` at the last position `a` left open. -/
theorem nextCode_leaves_at_lastOpen {a : Rom} (ha : ∃ d ∈ P, d.rom = a) (hr : ∃ d ∈ P, d.rom = r) (hnext : NextCode P a r)
    {n : Nat} (hn : n + 1 = lastOpen a (simReads P a) 64) :
    (∀ q < n, a.getLsbD q = r.getLsbD q) ∧ a.getLsbD n = false ∧ r.getLsbD n = true := by
  obtain ⟨⟨m, hm64, hag, ham, hrm⟩, hleast⟩ := hnext
  have hopen : simReads P a m = (false, false) := by
    rcases simReads_of_mem ha m with ⟨-, hall⟩ | ⟨h, -⟩
    · obtain ⟨d, hd, rfl⟩ := hr
      have heq := hall d hd fun q hq => (hag q hq).symm
      rw [ham, hrm] at heq
      cases heq
    · exact h
  rcases lastOpen_spec a (simReads P a) 64 with ⟨h0, -⟩ | ⟨k, hk64, hk, ⟨hkopen, hak⟩, hlast⟩
  · omega
  obtain rfl : k = n := by omega
  have hle : ¬ k < m := fun hlt => hlast m hlt hm64 ⟨hopen, ham⟩
  have hge : ¬ m < k := fun hlt => by
    -- the device that leaves `a` at `k` would come between `a` and `r`
    rcases simReads_of_mem ha k with ⟨h, -⟩ | ⟨-, e, he, heag, hek⟩
    · rw [h, hak] at hkopen
      cases hkopen
    · rw [hak] at hek
      have hbefore : codeBefore e.rom r :=
        ⟨m, hm64, fun q hq => (heag q (by omega)).trans (hag q hq), (heag m hlt).trans ham, hrm⟩
      rcases hleast e he ⟨k, hk64, fun q hq => (heag q hq).symm, hak, hek⟩ with h | h
      · rw [h] at hbefore
        exact codeBefore_irrefl r hbefore
      · exact codeBefore_asymm h hbefore
  obtain rfl : m = k := by omega
  exact ⟨hag, ham, hrm⟩

/-- A resumed search repeats its branches below the last open position, takes 1 there and 0 at every later discrepancy, which
leads to the code that follows. -/
theorem chosen_next (hr : ∃ d ∈ P, d.rom = r) (hs : ResumesAfter P s) (hnext : NextCode P s.scratch r) (p : Nat) :
    r.getLsbD p = s.chosen p (simReads P r p) := by
  obtain ⟨n, hn⟩ : ∃ n, s.lastDiscrepancy.toNat = n + 1 :=
    Nat.exists_eq_succ_of_ne_zero fun h0 => hs.more (toNat_eq_zero.mpr h0)
  obtain ⟨hag, hsn, hrn⟩ := nextCode_leaves_at_lastOpen hs.code hr hnext (hn.symm.trans hs.opened)
  rcases simReads_of_mem hr p with ⟨h, -⟩ | ⟨h, d, hd, hdag, hne⟩
  · rw [h, chosen_agreed]
  rw [h]
  simp only [State.chosen, hn, bne_self_eq_false, Bool.false_eq_true, if_false]
  rcases Nat.lt_trichotomy p n with hlt | rfl | hlt
  · rw [if_pos (by omega), hag p hlt]
  · rw [if_neg (Nat.lt_irrefl _), hrn, beq_self_eq_true]
  · have hn64 : n < 64 := by
      have := lastOpen_le s.scratch (simReads P s.scratch) 64
      have := hs.opened
      omega
    have hafter : codeBefore s.scratch d.rom :=
      ⟨n, hn64, fun q hq => (hag q hq).trans (hdag q (by omega)).symm, hsn, (hdag n hlt).trans hrn⟩
    rw [if_neg (by omega), bit_false_of_leaves (hnext.2 d hd hafter) hdag hne]
    exact (beq_eq_false_iff_ne.mpr (by omega)).symm

/-! ### The registers a pass leaves -/

/-- A pass that found the code `r` sets the flag exactly where no code follows. -/
theorem PassEffect.lastDeviceFlag_iff {t : State} (h : PassEffect s r (simReads P r) t) (hf : s.lastDeviceFlag = false)
    (hv : romValid r = true) (hr : ∃ d ∈ P, d.rom = r) :
    t.lastDeviceFlag = true ↔ ∀ d ∈ P, ¬ codeBefore r d.rom := by
  rw [h.lastDeviceFlag, hf, hv, Bool.false_or, Bool.true_and, beq_iff_eq, lastOpen_zero_iff hr]

end

/-- Settles O46: at each position the registers choose the bit of the code that comes next, and SimBus answers as that code's
device does. -/
theorem searchEnumeratesInOrder : Obligations.SearchEnumeratesInOrder := by
  intro s sb alarm r h hwf hf hr hv hwhere
  have hch : ∀ p < 64, r.getLsbD p = s.chosen p (simReads (participants sb alarm) r p) := fun p _ => by
    rcases hwhere with ⟨hfresh, hfirst⟩ | ⟨hcode, hmore, hopen, hafter, hleast⟩
    · exact chosen_first hr hfresh hfirst p
    · exact chosen_next hr ⟨hcode, hmore, hopen⟩ ⟨hafter, hleast⟩ p
  obtain ⟨u, hp, heff, ⟨ph, hu⟩, -, htr, -⟩ := searchPass_sim alarm r h hwf hf hr hch
  obtain ⟨he, hresp, hprompt⟩ := exec_search_sim hp hu htr (searchResponse_of_effect heff)
  exact ⟨_, he, passEffect_respond heff, hresp, heff.lastDeviceFlag_iff hf hv hr, ph, hprompt⟩

end Sys2Proof.Machine
end

section
/-! SUPPORT. SEARCH from its pass: what it answers, what it leaves unchanged, and its courses that end early or run to the last
position (spec/42_rom_search.md R163 to R177). -/

namespace Sys2Proof.Machine

/-! ### SEARCH is its pass and the response to it -/

/-- SEARCH in either spelling is SEARCH in some mode. -/
theorem exec_eq_search {i : Instr} (hi : i = .asearch ∨ ∃ alarm, i = .search alarm) (s : State) :
    ∃ alarm, exec i s = exec (.search alarm) s := by
  rcases hi with rfl | ⟨alarm, rfl⟩
  · exact ⟨true, (exec_expand .asearch s).symm⟩
  · exact ⟨alarm, rfl⟩

theorem exec_asearch_of_search {alarm : Bool} {s t : State} (h : exec (.search alarm) s = .next t) (ha : alarm = true) :
    exec .asearch s = .next t := by
  subst ha
  exact h

/-- SEARCH answers the outcome of its pass with the count after it. -/
theorem exec_search_of_pass {alarm : Bool} {s t : State} {o : Outcome} (h : searchPass alarm s = .ok o t) :
    exec (.search alarm) s = .next (deliver (searchResponse t.deviceCount o) t) := by
  have hm : searchCommandBody alarm s = .ok (searchResponse t.deviceCount o) t := by
    unfold searchCommandBody
    rw [bind_run_ok h, look_bind, pure_run]
  exact congrArg Host.Outcome.next (finish_ok hm)

/-- Settles O41: the response is the table's, row by row. -/
theorem searchResponses : Obligations.SearchResponses := by
  intro s t alarm o h
  rw [exec_search_of_pass h]
  cases o <;> rfl

/-- Settles O38: an exhausted pass is nothing but its outcome. -/
theorem searchExhausted : Obligations.SearchExhausted := by
  intro s i rest hi hf ht
  obtain ⟨alarm, he⟩ := exec_eq_search hi s
  rw [he, exec_search_of_pass (searchPass_exhausted alarm hf), deliver_master _ ht]
  rfl

/-- The count set to 0 after channel events. -/
theorem drawn_setCount {s t : State} {rest : List Move} {tr : List Action} {b : Option Baud} (h : Drawn s rest tr b t)
    (n : Byte) : Drawn { s with deviceCount := n } rest tr b (t.setCount n) :=
  { h with same := { h.same with deviceCount := rfl } }

/-- Settles O39: without presence the count is cleared before the response, after a timeout it is not. -/
theorem searchWithoutPresence : Obligations.SearchWithoutPresence := by
  intro s i d1 d2 rest hi hf h1 h2 ht
  obtain ⟨alarm, he⟩ := exec_eq_search hi s
  obtain ⟨t, hb, hD⟩ := resetBus_draws h1 h2 ht
  rw [he]
  constructor
  · intro hnone
    rw [hnone] at hb
    exact ⟨_, exec_search_of_pass (searchPass_noDevices alarm hf hb), answered_of_drawn _ (drawn_setCount hD 0)⟩
  · intro htimeout
    rw [htimeout] at hb
    refine ⟨_, exec_search_of_pass (searchPass_reset_timeout alarm hf hb), ?_⟩
    rw [hD.same.deviceCount]
    exact answered_of_drawn _ hD

/-! ### What SEARCH leaves unchanged (R163) -/

/-- From `s` to `t` a pass has written no byte of the local store outside `W`, and none of the fields it never writes. -/
structure WritesOnly (W : Nat → Prop) (s t : State) : Prop where
  cfg : t.cfg = s.cfg
  req : t.req = s.req
  pending : t.pending = s.pending
  slot : t.slot = s.slot
  bytes : ∀ a, ¬ W a → readByteAt t.store a = readByteAt s.store a

/-- The addresses of `romScratch`. -/
def InScratch (a : Nat) : Prop := a < 8

/-- Those, and those of the entry at the old count where the count has grown by one. -/
def InScratchOrNewEntry (s t : State) (a : Nat) : Prop :=
  a < 8 ∨ t.deviceCount = s.deviceCount + 1 ∧ entryAddr s.deviceCount.toNat ≤ a ∧ a < entryAddr s.deviceCount.toNat + 8

/-- What a pass writes until its close. -/
def WritesScratch (s t : State) : Prop := WritesOnly InScratch s t

/-- What a pass writes (42_rom_search.md R163, R176). -/
def PassFrame (s t : State) : Prop := WritesOnly (InScratchOrNewEntry s t) s t

theorem WritesOnly.trans {W : Nat → Prop} {s t u : State} (h1 : WritesOnly W s t) (h2 : WritesOnly W t u) :
    WritesOnly W s u :=
  ⟨h2.cfg.trans h1.cfg, h2.req.trans h1.req, h2.pending.trans h1.pending, h2.slot.trans h1.slot,
    fun a ha => (h2.bytes a ha).trans (h1.bytes a ha)⟩

theorem WritesOnly.of_same {W : Nat → Prop} {s t : State} (h : Same s t) : WritesOnly W s t :=
  ⟨h.cfg, h.req, h.pending, h.slot, fun a _ => by rw [h.store]⟩

theorem WritesScratch.passFrame {s t : State} (h : WritesScratch s t) : PassFrame s t :=
  { h with bytes := fun a ha => h.bytes a fun hs => ha (.inl hs) }

theorem writesScratch_steps : AtomicSteps WritesScratch fun _ _ => True :=
  .of_same (fun s => .of_same (Same.refl s)) WritesOnly.trans (fun _ _ => trivial) (fun h => h.cfg) .of_same fun _ => trivial

theorem writesScratch_loopSteps : LoopSteps (Along WritesScratch fun _ _ => True) :=
  writesScratch_steps.loopSteps
    (fun s p d hp => ⟨rfl, rfl, rfl, rfl, fun a ha => read_storeScratchBit_other s p a d hp (Nat.le_of_not_lt ha)⟩)
    fun _ => ⟨rfl, rfl, rfl, rfl, fun _ _ => rfl⟩

/-- Steps that leave `BusState` leave the frame. -/
theorem PassFrame.sameBusState {s t u : State} (h : PassFrame s t) (hs : SameBusState t u) (hslot : u.slot = t.slot) :
    PassFrame s u where
  cfg := hs.cfg.trans h.cfg
  req := hs.req.trans h.req
  pending := hs.pending.trans h.pending
  slot := hslot.trans h.slot
  bytes a ha := by
    unfold InScratchOrNewEntry at ha
    rw [hs.deviceCount] at ha
    rw [hs.store]
    exact h.bytes a ha

theorem passFrame_followed : Followed (Along WritesScratch fun _ _ => True) (Along PassFrame fun _ _ => True) where
  of {s e t} h := by
    rcases e with _ | ⟨_ | _⟩
    · exact ⟨h.1.passFrame, h.2⟩
    · exact ⟨h.1.passFrame, h.2⟩
    · exact h
  tick_ok {s t u} h ht := by
    obtain ⟨hsame, -, hlive⟩ := tick_channelOnly.of_ok ht
    exact ⟨h.1.sameBusState hsame.toSameBusState hsame.slot, hlive ∘ h.2⟩
  tick_error {s t u e} h ht := by
    cases e with
    | timeout => exact absurd ht tick_not_timeout
    | killed => exact ⟨fun hl => (tick_channelOnly.of_error ht).1 (h.2 hl), trivial⟩

/-- The close writes at most the entry at the count, which then grows. -/
theorem passFrame_closePass {s t : State} (w : Work) (h : WritesScratch s t) (hcount : t.deviceCount = s.deviceCount) :
    PassFrame s (closePass w t).2 := by
  rcases closePass_cases w t with he | ⟨-, -, he⟩ | ⟨-, -, he⟩ <;> rw [he]
  · exact h.passFrame
  · refine { h with bytes := fun a ha => ?_ }
    have hout : a < entryAddr t.deviceCount.toNat ∨ entryAddr t.deviceCount.toNat + 8 ≤ a := by
      rw [hcount]
      by_contra hin
      exact ha (.inr ⟨congrArg (· + 1) hcount, by omega, by omega⟩)
    exact (read_writeRomAt_other _ _ _ _ hout).trans (h.bytes a fun hs => ha (.inl hs))
  · exact { h.passFrame with }

theorem searchPass_frame (alarm : Bool) (s : State) :
    Goes (Along PassFrame fun _ _ => True) s (searchPass alarm s) := by
  refine Goes.searchPass writesScratch_loopSteps passFrame_followed Along.timeout_ok alarm ?_
  intro u w t _ _ _ ht hst
  exact ⟨passFrame_closePass w hst.1 ht.same.deviceCount, fun hl => (hst.2 hl).of_tape (closePass_closedOnly w t).tape⟩

/-- Settles O20: before its close a pass leaves the table, and the response leaves everything the frame speaks of. -/
theorem searchFrame : Obligations.SearchFrame := by
  intro i s t hi hl he
  have hpass : RunsPass i s := hi.imp_right .inl
  obtain ⟨v, hv, hvt⟩ := exec_pass passFrame_followed (fun alarm => searchPass_frame alarm s) hpass hl he
  have hslot : t.slot = v.slot := by cases hvt <;> rfl
  obtain ⟨hcfg, hreq, hpending, hslot, hbytes⟩ := hv.sameBusState hvt.sameBusState hslot
  exact ⟨hcfg, hreq, hpending, hslot, fun a ha hout => hbytes a (not_or.mpr ⟨Nat.not_lt.mpr ha, hout⟩)⟩

/-! ### A pass to the last position (R168 to R176) -/

/-- The bytes a pass sends: those before its positions, then three a position. -/
theorem passBytes_eq (c : Config) (alarm : Bool) (r : Rom) (n : Nat) :
    passBytes c alarm r n = passBytes c alarm r 0 ++
      (List.range n).flatMap fun p => [0xFF, 0xFF, slotByte (r.getLsbD p)] := by
  simp [passBytes]

section
variable {s : State} {d1 d2 : Draw} {ds : List Draw} {xs : List PositionDraws} {rest : List Move} {r : Rom}

/-- The first positions of a pass over draws, up to where they end: none read 1, 1, and each took the branch chosen. -/
theorem passBody_firstPositions (alarm : Bool) (hf : s.lastDeviceFlag = false) (hwf : Memory.wf s.store = true)
    (h1 : d1.admits s.cfg.readTimeout) (h2 : d2.admits s.cfg.readTimeout) (hp : resetResult s.cfg d1 d2 = some true)
    (hl : ds.length = 8) (hd : ∀ d ∈ ds, d.admits s.cfg.readTimeout) (hn : xs.length ≤ 64)
    (hx : ∀ x ∈ xs, x.admits s.cfg.readTimeout ∧ x.reads ≠ (true, true))
    (hr : ∀ p < xs.length, r.getLsbD p = s.chosen p (readsOf xs p))
    (h : s.tape = passMoves s.cfg.readTimeout d1 d2 ds xs ++ rest) :
    ∃ w u, passBody alarm s = (searchLoop (64 - xs.length) w >>= closing) u ∧
      Progress s r (readsOf xs) xs.length w u ∧
      Scripted s.cfg.readTimeout xs rest (sentInOrder s.trace ++ passBytes s.cfg alarm r 0) (responses s.trace) r
        xs.length u := by
  obtain ⟨u, hs, hS, hb⟩ := passBody_scripted alarm r hf h1 h2 hp hl hd h
  have hstart : Progress s r (readsOf xs) 0 Work.init u := (progress_start s r _ hwf).same_trans hs
  obtain ⟨w, v, hloop, hP, hv⟩ := searchLoop_skip xs.length (answers_scripted rest _ _ r fun x hxs => (hx x hxs).1) hn
    (readsOf_not_both fun x hxs => (hx x hxs).2) hr hstart hS
  exact ⟨w, v, by rw [hb, bind_run, hloop, bind_run], hP, hv⟩

end

/-- Settles O37: the 64 positions over draws, then the close. -/
theorem searchPass_holds : Obligations.SearchPass := by
  intro s alarm r d1 d2 ds xs rest hf hwf h1 h2 hp hl hd hn hx hr ht
  obtain ⟨w, u, hb, hP, hS⟩ := passBody_firstPositions alarm hf hwf h1 h2 hp hl hd (Nat.le_of_eq hn) hx
    (fun p hlt => hr p (hn ▸ hlt)) ht
  rw [hn] at hb hP hS
  obtain ⟨ho, heff⟩ := closePass_of_progress hP
  have hk := closePass_closedOnly w u
  have hpass : searchPass alarm s = .ok (passOutcome s r) (closePass w u).2 := by
    rw [← ho]
    unfold searchPass
    rw [hb]
    rfl
  have htape : (closePass w u).2.tape = .master :: rest := by rw [hk.tape, hS.tape, ← hn, List.drop_length]; rfl
  have he := exec_search_of_pass hpass
  rw [searchResponse_of_effect heff, deliver_master _ htape] at he
  refine ⟨_, he, exec_asearch_of_search he, passEffect_respond (passEffect_same (same_setTape _ _) heff),
    ⟨rfl, ?_⟩, ?_, hk.baud.trans hS.baud, rfl, hk.ready.trans hS.ready⟩
  · rw [State.respond_trace, State.setTape_trace, responses, hk.trace, hS.response]
  · show sentInOrder (closePass w u).2.trace = _
    rw [hk.trace, hS.sent, passBytes_eq s.cfg alarm r 64, List.append_assoc]

/-! ### A pass that ends early (R167, R180) -/

/-- The waits of the reads with which a pass ends: both reads 1, the first not answered, the second not answered. -/
def lastReads (k1 k2 : Nat) (v : Byte) (how : Fin 3) : List Draw :=
  if how = 0 then [.echo k1 0xFF, .echo k2 0xFF] else if how = 1 then [.expired] else [.echo k1 v, .expired]

theorem sentInOrder_lastReads (k1 k2 : Nat) (v : Byte) (how : Fin 3) (tr : List Action) :
    sentInOrder (readEvents (lastReads k1 k2 v how) tr) =
      sentInOrder tr ++ if how = 1 then [0xFF] else [0xFF, 0xFF] := by
  rw [readEvents, sentInOrder_drawEvents]
  match how with
  | 0 | 1 | 2 => rfl

/-- A read slot whose echo comes, before one that goes as `d`. -/
theorem readBit_before {s : State} {k : Nat} {v : Byte} {d : Draw} {rest : List Move} (hk : k < s.cfg.readTimeout)
    (h : s.tape = drawMoves s.cfg.readTimeout [.echo k v, d] ++ rest) :
    ∃ u, readBit s = .ok (v == 0xFF) u ∧ u.cfg = s.cfg ∧ u.tape = d.moves u.cfg.readTimeout ++ rest ∧
      ∀ t, Drawn u rest (d.events 0xFF u.trace) u.baud t → Drawn s rest (readEvents [.echo k v, d] s.trace) s.baud t := by
  simp only [drawMoves, List.flatMap_cons, List.flatMap_nil, List.append_nil, List.append_assoc] at h
  obtain ⟨u, hu, hU⟩ := readBit_draw hk h
  refine ⟨u, hu, hU.same.cfg, by rw [hU.same.cfg]; exact hU.tape, fun t hT => ?_⟩
  rw [hU.trace, hU.baud] at hT
  exact hU.trans hT

/-- Such reads end the position: with a bus error, or with TIMEOUT raised. -/
theorem searchPosition_lastReads {s : State} {k1 k2 : Nat} {v : Byte} {how : Fin 3} {rest : List Move} (p : Nat) (w : Work)
    (h1 : k1 < s.cfg.readTimeout) (h2 : k2 < s.cfg.readTimeout)
    (h : s.tape = drawMoves s.cfg.readTimeout (lastReads k1 k2 v how) ++ rest) :
    ∃ t, searchPosition p w s = (if how = 0 then .ok none t else .error .timeout t) ∧
      Drawn s rest (readEvents (lastReads k1 k2 v how) s.trace) s.baud t := by
  match how with
  | 0 =>
    obtain ⟨u, hu, hc, htape, hD⟩ := readBit_before (v := 0xFF) (d := .echo k2 0xFF) h1 h
    obtain ⟨t, ht, hT⟩ := readBit_draw (by rw [hc]; exact h2) htape
    exact ⟨t, searchPosition_bus_error hu ht, hD t hT⟩
  | 1 =>
    obtain ⟨t, ht, hT⟩ := readBit_expired (h.trans (congrArg (· ++ rest) (List.append_nil _)))
    exact ⟨t, bind_run_error ht _, hT⟩
  | 2 =>
    obtain ⟨u, hu, -, htape, hD⟩ := readBit_before (v := v) (d := .expired) h1 h
    obtain ⟨t, ht, hT⟩ := readBit_expired htape
    refine ⟨t, ?_, hD t hT⟩
    unfold searchPosition
    rw [bind_run_ok hu, bind_run_error ht]
    rfl

/-- A pass whose position `n` ends so. -/
theorem searchPass_of_lastReads {s u t : State} {alarm : Bool} {w : Work} {n : Nat} {how : Fin 3} (hn : n < 64)
    (hb : passBody alarm s = (searchLoop (64 - n) w >>= closing) u)
    (hpos : searchPosition n w u = if how = 0 then .ok none t else .error .timeout t) :
    searchPass alarm s = .ok (if how = 0 then .busError else .timeout) t := by
  obtain ⟨k, hk⟩ : ∃ k, 64 - n = k + 1 := ⟨63 - n, by omega⟩
  have hkn : 63 - k = n := by omega
  unfold searchPass
  rw [hb, hk, bind_run]
  unfold searchLoop
  rw [hkn, bind_run, hpos]
  by_cases h0 : how = 0
  · simp only [if_pos h0]
    rfl
  · simp only [if_neg h0]

/-- Settles O40: the positions before go well; the reads of this one end the pass, whose state is what they leave. -/
theorem searchEndsEarly : Obligations.SearchEndsEarly := by
  intro s alarm r d1 d2 ds xs k1 k2 v how rest hf hwf h1 h2 hp hl hd hn hx hr hk1 hk2 ht
  obtain ⟨w, u, hb, hP, hS⟩ := passBody_firstPositions alarm hf hwf h1 h2 hp hl hd (Nat.le_of_lt hn) hx hr ht
  have htape := hS.tape
  rw [List.drop_length, List.flatMap_nil, List.nil_append, ← hS.polls] at htape
  obtain ⟨t, hpos, hD⟩ := searchPosition_lastReads xs.length w (how := how) (by rw [hS.polls]; exact hk1)
    (by rw [hS.polls]; exact hk2) htape
  have hpass := searchPass_of_lastReads hn hb hpos
  have hT : Progress s r (readsOf xs) xs.length w t := hP.same_trans hD.same
  have hsame := hT.same
  have hrsp (n : Byte) : searchResponse n (if how = 0 then .busError else .timeout) =
      ⟨if how = 0 then .busError else .timeout, n, 0⟩ := by split <;> rfl
  have he := exec_search_of_pass hpass
  rw [hrsp, hsame.deviceCount, deliver_master _ hD.tape] at he
  refine ⟨_, he, exec_asearch_of_search he, ⟨rfl, ?_⟩, fun p hp64 => ?_, hsame.lastDiscrepancy, hsame.lastFamilyDiscrepancy,
    hsame.lastDeviceFlag, hsame.hasMoreDevices, hsame.deviceCount, hT.table, ?_, rfl⟩
  · rw [State.respond_trace, State.setTape_trace, responses, hD.trace, readEvents, responses_drawEvents, hS.response]
  · rw [scratch_getLsbD s p hp64, ← hT.bits p hp64]
    exact scratch_getLsbD _ p hp64
  · show sentInOrder t.trace = _
    rw [hD.trace, sentInOrder_lastReads, hS.sent, passBytes_eq s.cfg alarm r xs.length, List.append_assoc _ (passBytes _ _ _ 0)]

end Sys2Proof.Machine
end

section
/-! SUPPORT. SCAN on SimBus where the table holds all codes: each step appends the code that comes next, and one more step finds the
enumeration exhausted (spec/42_rom_search.md R175, R178, R181, spec/70_reset_and_hazards.md R261). -/

namespace Sys2Proof.Machine

/-! ### The codes in order -/

/-- `codes` are the codes of the devices of `P`, each valid, in the order of enumeration. -/
structure ListsCodes (P : List Device) (codes : List Rom) : Prop where
  mem_iff : ∀ r, r ∈ codes ↔ ∃ d ∈ P, d.rom = r
  ordered : codes.Pairwise codeBefore
  valid : ∀ r ∈ codes, romValid r = true

section
variable {P : List Device} {codes : List Rom} (h : ListsCodes P codes)
include h

theorem ListsCodes.exists_index {d : Device} (hd : d ∈ P) : ∃ j, ∃ hj : j < codes.length, codes[j] = d.rom :=
  List.mem_iff_getElem.mp ((h.mem_iff d.rom).mpr ⟨d, hd, rfl⟩)

theorem ListsCodes.exists_device {k : Nat} (hk : k < codes.length) : ∃ d ∈ P, d.rom = codes[k] :=
  (h.mem_iff _).mp (List.getElem_mem hk)

/-- Among the codes listed the order is that of the list. -/
theorem ListsCodes.codeBefore_iff {i j : Nat} (hi : i < codes.length) (hj : j < codes.length) :
    codeBefore codes[i] codes[j] ↔ i < j := by
  have hlt := List.pairwise_iff_getElem.mp h.ordered
  constructor
  · intro hb
    rcases Nat.lt_trichotomy i j with hij | rfl | hij
    · exact hij
    · exact absurd hb (codeBefore_irrefl _)
    · exact absurd hb (codeBefore_asymm (hlt j i hj hi hij))
  · exact hlt i j hi hj

/-- A code listed at `k` or later is the one at `k` or comes after it. -/
theorem ListsCodes.eq_or_codeBefore {k j : Nat} (hj : j < codes.length) (hkj : k ≤ j) :
    codes[j] = codes[k] ∨ codeBefore codes[k] codes[j] := by
  rcases Nat.eq_or_lt_of_le hkj with rfl | hlt
  · exact .inl rfl
  · exact .inr ((h.codeBefore_iff (Nat.lt_trans hlt hj) hj).mpr hlt)

theorem ListsCodes.firstCode (h0 : 0 < codes.length) : FirstCode P codes[0] := by
  intro d hd
  obtain ⟨j, hj, hjd⟩ := h.exists_index hd
  rw [← hjd]
  exact h.eq_or_codeBefore hj (Nat.zero_le j)

theorem ListsCodes.nextCode {k : Nat} (hk : k + 1 < codes.length) : NextCode P codes[k] codes[k + 1] := by
  refine ⟨(h.codeBefore_iff _ hk).mpr (Nat.lt_succ_self k), fun d hd hb => ?_⟩
  obtain ⟨j, hj, hjd⟩ := h.exists_index hd
  rw [← hjd] at hb ⊢
  exact h.eq_or_codeBefore hj ((h.codeBefore_iff _ hj).mp hb)

/-- Nothing comes after the last code, and after it alone. -/
theorem ListsCodes.none_after_iff {k : Nat} (hk : k < codes.length) :
    (∀ d ∈ P, ¬ codeBefore codes[k] d.rom) ↔ codes.length ≤ k + 1 := by
  constructor
  · intro hnone
    by_contra hlt
    obtain ⟨d, hd, hdr⟩ := h.exists_device (k := k + 1) (by omega)
    exact hnone d hd (hdr ▸ (h.codeBefore_iff hk (by omega)).mpr (Nat.lt_succ_self k))
  · intro hle d hd hb
    obtain ⟨j, hj, hjd⟩ := h.exists_index hd
    rw [← hjd, h.codeBefore_iff hk hj] at hb
    omega

end

/-! ### The passes -/

theorem maxDevices_le_of_wf {c : Config} (h : c.wf = true) : c.maxDevices ≤ 255 := by
  simp only [Config.wf, Bool.and_eq_true, decide_eq_true_eq] at h
  omega

/-- A pass leaves the entries other than the one it appends. -/
theorem PassEffect.entry_other {s t : State} {r : Rom} {as : Nat → Bool × Bool} (h : PassEffect s r as t) {j : Nat}
    (hj : j ≠ s.deviceCount.toNat) : t.entry j = s.entry j :=
  readRomAt_congr fun i hi => h.others _ (by unfold entryAddr; omega) fun ⟨_, _, hlo, hhi⟩ => by
    unfold entryAddr at hlo hhi
    omega

/-- The request still runs, unanswered. -/
structure StillRuns (s t : State) : Prop where
  cfg : t.cfg = s.cfg
  busy : t.busy = s.busy
  req : t.req = s.req
  response : responses t.trace = responses s.trace

theorem StillRuns.trans {s t u : State} (h1 : StillRuns s t) (h2 : StillRuns t u) : StillRuns s u :=
  ⟨h2.cfg.trans h1.cfg, h2.busy.trans h1.busy, h2.req.trans h1.req, h2.response.trans h1.response⟩

/-- `k` codes have been found and stand in the table, and the search registers lead to the next. -/
structure Enumerated (sb : SimBus) (alarm : Bool) (codes : List Rom) (k : Nat) (t : State) : Prop where
  prompt : ∃ ph, PromptSimBus t { sb with phase := ph }
  wf : Memory.wf t.store = true
  count : t.deviceCount.toNat = k
  entries : ∀ j (hj : j < codes.length), j < k → t.entry j = codes[j]
  last : t.lastDeviceFlag = true ↔ codes.length ≤ k
  more : t.hasMoreDevices = false
  leads : ∀ hk : k < codes.length, ∀ p, codes[k].getLsbD p =
    t.chosen p (simReads (participants sb alarm) codes[k] p)

section
variable {sb : SimBus} {alarm : Bool} {codes : List Rom}

/-- The state SCAN's clear leaves. -/
theorem enumerated_zero {s : State} (h : ListsCodes (participants sb alarm) codes) (hne : codes ≠ [])
    (hs : PromptSimBus s sb) (hwf : Memory.wf s.store = true) : Enumerated sb alarm codes 0 s.clear where
  prompt := ⟨sb.phase, { hs with }⟩
  wf := wf_clearStore _ _ hwf
  count := rfl
  entries j _ hj := absurd hj (Nat.not_lt_zero j)
  last := ⟨fun hf => (by cases hf), fun hle => absurd (List.length_eq_zero_iff.mp (Nat.le_zero.mp hle)) hne⟩
  more := rfl
  leads hk := chosen_first (h.exists_device hk) rfl (h.firstCode hk)

theorem Enumerated.setPoint {k : Nat} {t : State} (h : Enumerated sb alarm codes k t) (p : Point) :
    Enumerated sb alarm codes k (t.setPoint p) :=
  { h with prompt := h.prompt.imp fun _ hp => { hp with } }

/-- The registers a pass leaves that found a code which is not the last. -/
theorem PassEffect.resumesAfter {P : List Device} {s t : State} {r : Rom} (h : PassEffect s r (simReads P r) t)
    (hv : romValid r = true) (hr : ∃ d ∈ P, d.rom = r) (hlater : ¬ ∀ d ∈ P, ¬ codeBefore r d.rom) : ResumesAfter P t := by
  have hopen : t.lastDiscrepancy.toNat = lastOpen t.scratch (simReads P t.scratch) 64 := by
    rw [h.lastDiscrepancy, if_pos hv, h.scratch]
  refine ⟨by rw [h.scratch]; exact hr, fun h0 => hlater ?_, hopen⟩
  rw [← lastOpen_zero_iff hr]
  rw [h0, h.scratch] at hopen
  exact hopen.symm

/-- A pass finds the code that comes next. -/
theorem Enumerated.pass_finds_next {k : Nat} {s : State} (hs : Enumerated sb alarm codes k s)
    (h : ListsCodes (participants sb alarm) codes) (hk : k < codes.length) (hroom : codes.length ≤ s.cfg.maxDevices) :
    ∃ t, searchPass alarm s = .ok (.found codes[k]) t ∧ Enumerated sb alarm codes (k + 1) t ∧ StillRuns s t := by
  obtain ⟨ph, hp⟩ := hs.prompt
  have hr := h.exists_device hk
  have hv := h.valid _ (List.getElem_mem hk)
  have hf : s.lastDeviceFlag = false := Bool.eq_false_iff.mpr fun hf => Nat.not_le_of_lt hk (hs.last.mp hf)
  have hlt : s.deviceCount.toNat < s.cfg.maxDevices := by rw [hs.count]; omega
  obtain ⟨t, ht, heff, hph, hwf, hresp, hbusy⟩ := searchPass_sim alarm codes[k] hp hs.wf hf hr fun p _ => hs.leads hk p
  have hfound : passOutcome s codes[k] = .found codes[k] := by rw [passOutcome, if_pos hv, if_pos hlt]
  have hlast := heff.lastDeviceFlag_iff hf hv hr
  obtain ⟨hcfg, hreq, -, -⟩ := heff.fixed
  rw [hfound] at ht
  refine ⟨t, ht, ?_, hcfg, hbusy, hreq, hresp⟩
  exact {
    prompt := hph
    wf := hwf
    count := by
      rw [heff.deviceCount, if_pos ⟨hv, hlt⟩, toNat_succ_of_lt hlt (maxDevices_le_of_wf hp.cfg_wf), hs.count]
    entries := fun j hj hjk => by
      rcases Nat.eq_or_lt_of_le (Nat.le_of_lt_succ hjk) with rfl | hjk
      · have hnew := heff.entry hv hlt
        rwa [hs.count] at hnew
      · rw [heff.entry_other (by rw [hs.count]; omega), hs.entries j hj hjk]
    last := hlast.trans (h.none_after_iff hk)
    more := by
      rw [heff.hasMoreDevices, hs.more, hv, decide_eq_false (Nat.not_le_of_lt hlt)]
      rfl
    leads := fun hk1 => by
      have hlater := (h.none_after_iff hk).not.mpr (Nat.not_le_of_lt hk1)
      refine chosen_next (h.exists_device hk1) (heff.resumesAfter hv hr hlater) ?_
      rw [heff.scratch]
      exact h.nextCode hk1 }

/-! ### The steps -/

theorem scanStep_found {s t : State} {r : Rom} (h : scanPass alarm s = .ok (.found r) t) :
    scanStep alarm s = t.setPoint .scanLoop := by
  unfold scanStep
  rw [h]
  rfl

theorem core_run_succ {s t : State} (h : step s = .next t) (k : Nat) :
    Host.Core.run core (k + 1) s = Host.Core.run core k t := by
  have hstep : core.step s = .next t := h
  simp only [Host.Core.run, hstep]

/-- SCAN is at the head of its loop with `k` codes found. -/
structure ScanAt (sb : SimBus) (alarm : Bool) (codes : List Rom) (s : State) (k : Nat) (t : State) : Prop where
  enumerated : Enumerated sb alarm codes k t
  runs : StillRuns s t
  point : t.point = .scanLoop

/-- What SCAN leaves when it has found all. -/
structure ScanDone (codes : List Rom) (s t : State) : Prop where
  responded : Responded s ⟨.ok, BitVec.ofNat 8 codes.length, 0⟩ t
  count : t.deviceCount.toNat = codes.length
  entries : ∀ k (hk : k < codes.length), t.entry k = codes[k]
  last : t.lastDeviceFlag = true
  more : t.hasMoreDevices = false

variable {s : State} (hb : s.busy = true) (hd : decode s.req = .scan alarm)
include hb hd

theorem StillRuns.step_scan {t : State} (h : StillRuns s t) : step t = .next (scanStep alarm t) := by
  rw [step_busy (h.busy.trans hb), h.req, hd]
  rfl

/-- A step at the head of the loop where a code is left. -/
theorem ScanAt.step_found {k : Nat} {t : State} (ht : ScanAt sb alarm codes s k t) (h : ListsCodes (participants sb alarm) codes)
    (hk : k < codes.length) (hroom : codes.length ≤ s.cfg.maxDevices) :
    ∃ u, Machine.step t = .next u ∧ ScanAt sb alarm codes s (k + 1) u := by
  obtain ⟨u, hu, hE, hR⟩ := ht.enumerated.pass_finds_next h hk (by rw [ht.runs.cfg]; exact hroom)
  refine ⟨u.setPoint .scanLoop, ?_, hE.setPoint _, ht.runs.trans { hR with }, rfl⟩
  rw [ht.runs.step_scan hb hd, scanStep_found ((scanPass_loop alarm ht.point).trans hu)]

/-- The step that finds the enumeration exhausted. -/
theorem ScanAt.step_done {t : State} (ht : ScanAt sb alarm codes s codes.length t) :
    ∃ u, Machine.step t = .next u ∧ ScanDone codes s u := by
  have hE := ht.enumerated
  obtain ⟨ph, hp⟩ := hE.prompt
  have hlast := hE.last.mpr (Nat.le_refl _)
  have hcount : t.deviceCount = BitVec.ofNat 8 codes.length := by rw [← hE.count, BitVec.ofNat_toNat, BitVec.setWidth_eq]
  have hstep : scanStep alarm t = t.respond ⟨.ok, t.deviceCount, 0⟩ := by
    unfold scanStep
    rw [scanPass_loop alarm ht.point, searchPass_exhausted alarm hlast]
    exact deliver_sim (simAt_of_prompt hp) _
  refine ⟨_, ht.runs.step_scan hb hd, ?_⟩
  rw [hstep, hcount]
  exact ⟨⟨rfl, congrArg (_ :: ·) ht.runs.response⟩, hE.count, fun k hk => hE.entries k hk hk, hlast, hE.more⟩

/-- From the head of the loop, `n` codes left. -/
theorem ScanAt.run_to_end (h : ListsCodes (participants sb alarm) codes) (hroom : codes.length ≤ s.cfg.maxDevices) (n : Nat)
    {k : Nat} {t : State} (hn : k + n = codes.length) (ht : ScanAt sb alarm codes s k t) :
    ∃ u, Host.Core.run core (n + 1) t = .next u ∧ ScanDone codes s u := by
  induction n generalizing k t with
  | zero =>
    obtain rfl : k = codes.length := hn
    obtain ⟨u, hu, hdone⟩ := ht.step_done hb hd
    exact ⟨u, core_run_succ hu 0, hdone⟩
  | succ n ih =>
    obtain ⟨u, hu, hU⟩ := ht.step_found hb hd h (by omega) hroom
    obtain ⟨v, hv, hdone⟩ := ih (by omega) hU
    exact ⟨v, (core_run_succ hu (n + 1)).trans hv, hdone⟩

end

/-- Settles O47: the first step from the cleared state, then a step a code, and the step that finds the enumeration exhausted. -/
theorem scanFindsAllDevices : Obligations.ScanFindsAllDevices := by
  intro s sb alarm codes hs hwf hb hp hd hmem hord hne hvalid hroom
  have h : ListsCodes (participants sb alarm) codes := ⟨hmem, hord, hvalid⟩
  obtain ⟨n, hn⟩ : ∃ n, codes.length = n + 1 := Nat.exists_eq_succ_of_ne_zero (mt List.length_eq_zero_iff.mp hne)
  obtain ⟨u, hu, hE, hR⟩ := (enumerated_zero h hne hs hwf).pass_finds_next h (by omega) hroom
  have hstart : StillRuns s s := ⟨rfl, rfl, rfl, rfl⟩
  have hstep : step s = .next (u.setPoint .scanLoop) := by
    rw [hstart.step_scan hb hd, scanStep_found ((scanPass_start alarm hp (tick_sim (simAt_of_prompt hs))).trans hu)]
  have hat : ScanAt sb alarm codes s 1 (u.setPoint .scanLoop) := ⟨hE.setPoint _, { hR with }, rfl⟩
  obtain ⟨t, ht, hdone⟩ := hat.run_to_end hb hd h hroom n (by omega)
  refine ⟨t, ?_, hdone.responded, hdone.count, hdone.entries, hdone.last, hdone.more⟩
  rw [core_run_succ hstep, hn]
  exact ht

end Sys2Proof.Machine
end

section
/-! SUPPORT. The addressing commands with each of their waits decided by the tape, and what they share with the search: the
bus reset alone (spec/43_rom_addressing.md). -/

namespace Sys2Proof.Machine

/-! ### The common opening (R190) -/

section
variable {s : State} {d1 d2 : Draw} {rest : List Move}

/-- Without presence the opening is the whole command: NO_PRESENCE, or TIMEOUT where one of its waits expired. -/
theorem addressed_answers_opening (body : M Response) (h1 : d1.admits s.cfg.readTimeout) (h2 : d2.admits s.cfg.readTimeout)
    (hno : resetResult s.cfg d1 d2 ≠ some true) (ht : s.tape = resetMoves s.cfg.readTimeout d1 d2 ++ .master :: rest) :
    Answered s rest (resetEvents s.cfg d1 d2 s.trace) (some .slot)
      (if resetResult s.cfg d1 d2 = some false then ⟨.noPresence, 0, 0⟩ else ⟨.timeout, 0, 0⟩)
      (finish (addressed body) s) := by
  obtain ⟨t, hb, hD⟩ := resetBus_draws h1 h2 ht
  cases hr : resetResult s.cfg d1 d2 with
  | none =>
    rw [hr] at hb
    exact answered_of_timeout (bind_run_error hb _) hD
  | some present =>
    rw [hr] at hb
    cases present with
    | false => exact answered_of_ok (bind_run_ok hb _) hD
    | true => exact absurd hr hno

/-- With presence the command goes on with its body. -/
theorem addressed_draws_present (h1 : d1.admits s.cfg.readTimeout) (h2 : d2.admits s.cfg.readTimeout)
    (hyes : resetResult s.cfg d1 d2 = some true) (ht : s.tape = resetMoves s.cfg.readTimeout d1 d2 ++ rest) :
    ∃ t, (∀ body, addressed body s = body t) ∧ Drawn s rest (resetEvents s.cfg d1 d2 s.trace) (some .slot) t := by
  obtain ⟨t, hb, hD⟩ := resetBus_draws h1 h2 ht
  rw [hyes] at hb
  exact ⟨t, fun _ => bind_run_ok hb _, hD⟩

/-- With presence the ROM command byte follows, in eight write slots. -/
theorem addressed_writeByte_draws (c : Byte) {ds : List Draw} (h1 : d1.admits s.cfg.readTimeout)
    (h2 : d2.admits s.cfg.readTimeout) (hyes : resetResult s.cfg d1 d2 = some true) (hl : ds.length = 8)
    (hd : ∀ d ∈ ds, d.admits s.cfg.readTimeout)
    (ht : s.tape = resetMoves s.cfg.readTimeout d1 d2 ++ (drawMoves s.cfg.readTimeout ds ++ rest)) :
    ∃ t, (∀ body, addressed (writeByte c >>= fun _ => body) s = body t) ∧
      Drawn s rest (writeEvents (bitsOfByte c) ds (resetEvents s.cfg d1 d2 s.trace)) (some .slot) t := by
  obtain ⟨t, hb, hD⟩ := addressed_draws_present h1 h2 hyes ht
  have hc : t.cfg = s.cfg := hD.same.cfg
  obtain ⟨u, hw, hU⟩ := writeByte_draws c ds t rest hl (by rwa [hc]) (by rw [hc]; exact hD.tape)
  rw [hD.trace, hD.baud] at hU
  exact ⟨u, fun _ => (hb _).trans (bind_run_ok hw _), hD.trans hU⟩

end

/-! ### The three commands (R191 to R193) -/

/-- `WriteByte` of several bytes, eight decided waits a byte. -/
theorem writeBytes_draws (cs : List Byte) (ds : List Draw) (s : State) (rest : List Move) (hcs : cs ≠ [])
    (hl : ds.length = 8 * cs.length) (hd : ∀ d ∈ ds, d.admits s.cfg.readTimeout)
    (ht : s.tape = drawMoves s.cfg.readTimeout ds ++ rest) :
    ∃ t, writeBytes cs s = .ok () t ∧ Drawn s rest (writeEvents (cs.flatMap bitsOfByte) ds s.trace) s.baud t := by
  have hbits : (cs.flatMap bitsOfByte).length = 8 * cs.length := by
    simp [List.length_flatMap, bitsOfByte, Nat.mul_comm]
  have hpos : 0 < cs.length := List.length_pos_iff.mpr hcs
  rw [writeBytes_eq]
  refine writeBits_draws _ ds s rest (hl.trans hbits.symm) hd ht fun hnil => ?_
  rw [hnil, List.length_nil] at hbits
  omega

/-- Settles O30: the ROM command byte and the code are nine bytes written in a row. -/
theorem matchromCommand : Obligations.MatchromCommand := by
  refine ⟨fun s rom d1 d2 ds rest h1 h2 hyes hl hd ht => ⟨_, rfl, ?_⟩,
    fun s rom d1 d2 rest h1 h2 hno ht => ⟨_, rfl, addressed_answers_opening _ h1 h2 hno ht⟩⟩
  obtain ⟨t, hb, hD⟩ := addressed_draws_present h1 h2 hyes ht
  have hc : t.cfg = s.cfg := hD.same.cfg
  obtain ⟨u, hw, hU⟩ := writeBytes_draws (0x55 :: romBytes rom) ds t (.master :: rest) (List.cons_ne_nil _ _) hl
    (by rwa [hc]) (by rw [hc]; exact hD.tape)
  rw [hD.trace, hD.baud] at hU
  refine answered_of_ok (r := okResponse) ?_ (hD.trans hU)
  calc addressed (writeByte 0x55 >>= fun _ => writeBytes (romBytes rom) >>= fun _ => pure okResponse) s
      = (writeByte 0x55 >>= fun _ => writeBytes (romBytes rom) >>= fun _ => pure okResponse) t := hb _
    _ = (writeBytes (0x55 :: romBytes rom) >>= fun _ => pure okResponse) t := by rw [writeBytes, bind_assoc]
    _ = .ok okResponse u := bind_run_ok hw _

/-- Settles O31: after the opening and the ROM command byte there is only the response. -/
theorem skipromCommand : Obligations.SkipromCommand := by
  refine ⟨fun s d1 d2 ds rest h1 h2 hyes hl hd ht => ⟨_, rfl, ?_⟩,
    fun s d1 d2 rest h1 h2 hno ht => ⟨_, rfl, addressed_answers_opening _ h1 h2 hno ht⟩⟩
  obtain ⟨t, hw, hD⟩ := addressed_writeByte_draws 0xCC h1 h2 hyes hl hd ht
  exact answered_of_ok (hw _) hD

/-- The code that 64 echoes make: bit `p` is 1 iff echo `p` is 0xFF. -/
theorem romOfBytes_echoes {kv : List (Nat × Byte)} {rom : Rom} (hl : kv.length = 64)
    (hrom : ∀ p < 64, rom.getLsbD p = ((kv.map Prod.snd)[p]? == some 0xFF)) :
    romOfBytes (bytesOfBits 8 (kv.map fun x => x.2 == 0xFF)) = rom := by
  refine BitVec.eq_of_getLsbD_eq fun p hp => ?_
  have hp' : p < kv.length := hl ▸ hp
  rw [getLsbD_romOfBytes_bytesOfBits _ _ hp, hrom p hp]
  simp [hp']

theorem readRomBytes_eq (s : State) : readRomBytes s = (readBits 64 >>= fun bs => pure (romOfBytes (bytesOfBits 8 bs))) s := by
  unfold readRomBytes
  rw [bind_run, readBytes_eq, bind_run, bind_run]
  cases readBits 64 s <;> rfl

theorem readromResponse_eq (rom : Rom) : readromResponse rom =
    ⟨if crc8 ((List.range 7).map (romByte rom)) = romByte rom 7 then .ok else .crcMismatch, 0, rom⟩ := by
  simp only [readromResponse, romValid_iff]

/-- Settles O32: 64 reads in a row, all echoed or up to the first that is not. -/
theorem readromCommand : Obligations.ReadromCommand := by
  refine ⟨fun s d1 d2 ds kv rom rest h1 h2 hyes hl hd hkv hk hrom ht => ⟨_, rfl, ?_⟩,
    fun s d1 d2 ds kv rest h1 h2 hyes hl hd hkv hk ht => ⟨_, rfl, ?_⟩,
    fun s d1 d2 rest h1 h2 hno ht => ⟨_, rfl, addressed_answers_opening _ h1 h2 hno ht⟩⟩
  · obtain ⟨t, hw, hD⟩ := addressed_writeByte_draws 0x33 h1 h2 hyes hl hd ht
    have hc : t.cfg = s.cfg := hD.same.cfg
    have hne : kv = [] → t.echoReady = false := by
      rintro rfl
      cases hkv
    obtain ⟨u, hr, hU⟩ := readBits_draws kv t _ (by rwa [hc]) (by rw [hc]; exact hD.tape) hne
    rw [hkv] at hr
    rw [hD.trace, hD.baud] at hU
    have hcode : readRomBytes t = .ok rom u := by
      rw [readRomBytes_eq, bind_run_ok hr, romOfBytes_echoes hkv hrom, pure_run]
    rw [← readromResponse_eq]
    exact answered_of_ok ((hw _).trans (bind_run_ok hcode _)) (hD.trans hU)
  · obtain ⟨t, hw, hD⟩ := addressed_writeByte_draws 0x33 h1 h2 hyes hl hd ht
    have hc : t.cfg = s.cfg := hD.same.cfg
    obtain ⟨u, hr, hU⟩ := readBits_expired kv 64 t _ hkv (by rwa [hc]) (by rw [hc]; exact hD.tape)
    rw [hD.trace, hD.baud] at hU
    have hcode : readRomBytes t = .error .timeout u := by rw [readRomBytes_eq, bind_run_error hr]
    exact answered_of_timeout ((hw _).trans (bind_run_error hcode _)) (hD.trans hU)

/-! ### The search state (R190, R194) -/

/-- MATCHROM, SKIPROM or READROM. -/
def Addresses (i : Instr) : Prop := i = .skiprom ∨ i = .readrom ∨ ∃ rom, i = .matchrom rom

theorem Addresses.keepsBusState {i : Instr} (hi : Addresses i) : keepsBusState i = true := by
  obtain rfl | rfl | ⟨rom, rfl⟩ := hi <;> rfl

/-- Such a command is the opening and a body made of channel primitives, which sees nothing the channel does not. -/
theorem Addresses.exec_eq_addressed {i : Instr} (hi : Addresses i) :
    ∃ body, (∀ s, exec i s = .next (finish (addressed body) s)) ∧
      (∀ {Q}, ChannelSteps Q → Ends Q body) ∧ ∀ {f}, OffChannel f → Commutes f body := by
  obtain rfl | rfl | ⟨rom, rfl⟩ := hi
  · exact ⟨_, fun _ => rfl, fun hQ => .bind hQ.toComposes (.writeByte hQ _) fun _ => .pure hQ.toComposes _,
      fun hf => .bind (.writeByte hf _) fun _ => .pure _⟩
  · exact ⟨_, fun _ => rfl, fun hQ => .bind hQ.toComposes (.writeByte hQ _) fun _ =>
        .bind hQ.toComposes (.bind hQ.toComposes (.readBytes hQ 8) fun _ => .pure hQ.toComposes _) fun _ =>
          .pure hQ.toComposes _,
      fun hf => .bind (.writeByte hf _) fun _ => .bind (.bind (.readBytes hf 8) fun _ => .pure _) fun _ => .pure _⟩
  · exact ⟨_, fun _ => rfl, fun hQ => .bind hQ.toComposes (.writeByte hQ _) fun _ =>
        .bind hQ.toComposes (.writeBytes hQ _) fun _ => .pure hQ.toComposes _,
      fun hf => .bind (.writeByte hf _) fun _ => .bind (.writeBytes hf _) fun _ => .pure _⟩

/-- Another search state: registers, flags, count and local store. -/
def State.withSearch (ld : BitVec 7) (lfd : BitVec 4) (ldf more : Bool) (n : Byte) (m : List Host.Cell) (s : State) : State :=
  { s with
    lastDiscrepancy := ld
    lastFamilyDiscrepancy := lfd
    lastDeviceFlag := ldf
    hasMoreDevices := more
    deviceCount := n
    store := m }

theorem offChannel_withSearch (ld : BitVec 7) (lfd : BitVec 4) (ldf more : Bool) (n : Byte) (m : List Host.Cell) :
    OffChannel (.withSearch ld lfd ldf more n m) := by
  constructor <;> intros <;> rfl

/-! ### What is sent first -/

/-- From `s` to `t` the master has only added to what it sent. -/
structure Sends (s t : State) : Prop where
  cfg : t.cfg = s.cfg
  outputs : outputs s.trace <:+ outputs t.trace

theorem sends_steps : AtomicSteps Sends fun _ _ => True where
  refl _ := ⟨rfl, List.suffix_rfl⟩
  trans h1 h2 := ⟨h2.cfg.trans h1.cfg, h1.outputs.trans h2.outputs⟩
  killed_trans _ _ := trivial
  cfg h := h.cfg
  deposit _ _ := ⟨rfl, List.suffix_rfl⟩
  dropEcho _ := ⟨rfl, List.suffix_rfl⟩
  emptyFlight _ := ⟨rfl, List.suffix_rfl⟩
  setTape _ _ := ⟨rfl, List.suffix_rfl⟩
  draw _ := ⟨rfl, List.suffix_rfl⟩
  setBaud _ _ := ⟨rfl, List.suffix_cons ..⟩
  transmit s x := ⟨transmit_cfg s x, by rw [transmit_trace]; exact List.suffix_cons ..⟩
  consume _ := ⟨rfl, List.suffix_rfl⟩
  hardReset _ := trivial

/-- A transmit of any byte, where every atomic step keeps `P`. -/
theorem AtomicSteps.xfer {P K : State → State → Prop} (h : AtomicSteps P K) (x : Sent) : Ends (Along P K) (xfer x) :=
  .bind h.composes h.tick fun _ =>
    .bind h.composes (.update fun s => .of_tape (h.transmit s x) (transmit_tape s x)) fun _ => .awaitEcho h.channelSteps

theorem tick_sends_nothing {s : State} (hl : s.live) :
    ∃ t, tick s = .ok () t ∧ t.live ∧ t.cfg = s.cfg ∧ outputs t.trace = outputs s.trace := by
  obtain ⟨t, ht, hs, -, hlt⟩ := tick_of_live hl
  exact ⟨t, ht, hlt, hs.cfg, (tick_silently.of_ok ht).outputs⟩

/-- The bus reset from the wait for the echo of its pulse on (40_codec.md R123). -/
def resetBusAfterPulse (probe : Byte) : M Bool := do
  let r ← awaitEcho
  configureBaud .slot
  match r with
  | .timedOut => raiseTimeout
  | .echo _ => do
    match ← xfer (.other probe) with
    | .timedOut => raiseTimeout
    | .echo v => pure (v != probe)

theorem resetBusAfterPulse_sends (probe : Byte) : Ends (Along Sends fun _ _ => True) (resetBusAfterPulse probe) :=
  have hP := sends_steps.composes
  have hQ := sends_steps.channelSteps
  .bind hP (.awaitEcho hQ) fun w => .bind hP (.configureBaud hQ .slot) fun _ => by
    cases w with
    | timedOut => exact .raise hP
    | echo _ =>
      exact .bind hP (sends_steps.xfer _) fun
        | .timedOut => .raise hP
        | .echo _ => .pure hP _

/-- The bus reset goes on from a state in which the reset pulse has just been sent. -/
theorem resetBus_sends_pulse {s : State} (hl : s.live) :
    ∃ v : State, resetBus s = resetBusAfterPulse s.cfg.probeByte v ∧ v.live ∧
      outputs v.trace = .tx s.cfg.resetByte :: .baud .reset :: outputs s.trace := by
  obtain ⟨t, ht, hlt, hct, hot⟩ := tick_sends_nothing hl
  obtain ⟨u, hu, hlu, -, hou⟩ := tick_sends_nothing (s := t.setBaud .reset) hlt
  refine ⟨u.transmit (.other s.cfg.resetByte), ?_, hlu.of_tape (transmit_tape u _), ?_⟩
  · have hbaud : configureBaud .reset s = .ok () (t.setBaud .reset) := bind_run_ok ht _
    unfold resetBus xfer
    rw [bind_run_ok hbaud, look_bind, State.setBaud_cfg, hct, bind_assoc, bind_run_ok hu, bind_assoc, update_bind]
    rfl
  · rw [transmit_trace, ← hot]
    exact congrArg (Action.tx _ :: ·) hou

theorem bind_run_congr {α β : Type} {m n : M α} {s t : State} (h : m s = n t) (f : α → M β) :
    (m >>= f) s = (n >>= f) t := by
  rw [bind_run, bind_run, h]

/-- A command with the common opening begins with the reset pulse, on every course of its waits. -/
theorem addressed_sends_pulse {s : State} {body : M Response} (hb : Ends (Along Sends fun _ _ => True) body) (hl : s.live) :
    .tx s.cfg.resetByte :: .baud .reset :: outputs s.trace <:+ outputs (finish (addressed body) s).trace := by
  obtain ⟨v, hv, hlv, hov⟩ := resetBus_sends_pulse hl
  have hP := sends_steps.composes
  obtain ⟨m, hm, hrun⟩ : ∃ m, Ends (Along Sends fun _ _ => True) m ∧ addressed body s = m v := by
    refine ⟨_, .bind hP (resetBusAfterPulse_sends _) fun present => ?_, bind_run_congr hv _⟩
    cases present with
    | true => exact hb
    | false => exact .pure hP _
  have hfinish : finish (addressed body) s = finish m v := by
    unfold finish
    rw [hrun]
  rw [hfinish, ← hov]
  rcases finish_cases (.refl sends_steps.channelSteps) Along.timeout_ok (hm v) with ⟨w, r, hw, he⟩ | hk
  · rw [he]
    exact hw.1.outputs
  · exact absurd hlv hk.1

/-- Settles O33: the commands commute with another search state, and on every course the bus reset comes first. -/
theorem addressingIgnoresTheSearch : Obligations.AddressingIgnoresTheSearch := by
  intro s i ld lfd ldf more n m hi hl
  obtain ⟨body, hexec, hends, hcommutes⟩ := Addresses.exec_eq_addressed hi
  obtain ⟨hsame, -⟩ := commandsThatKeepBusState i s _ (Addresses.keepsBusState hi) hl (hexec s)
  have hf := offChannel_withSearch ld lfd ldf more n m
  have hrun := finish_commutes hf (.addressed hf (hcommutes hf)) s (.inr hl)
  obtain ⟨evs, hevs⟩ := addressed_sends_pulse (hends sends_steps.channelSteps) hl
  exact ⟨_, hexec s, hsame, (hexec _).trans (congrArg _ hrun), evs, by rw [← hevs, List.append_assoc]; rfl⟩

end Sys2Proof.Machine
end

section
/-! SUPPORT. The commands that read the state or clear it, and codes without a command: what each answers where the tape lets the
master answer, and what that leaves unchanged (spec/44_state_access.md). -/

namespace Sys2Proof.Machine

/-! ### The response, where the tape decides what comes before it -/

/-- The response given next changes nothing else. -/
theorem deliver_answeredWith {s : State} {rest : List Move} (r : Response) (h : s.tape = .master :: rest) :
    deliver r s = s.answeredWith rest r := by
  rw [deliver_master r h]
  rfl

/-- The receive agent's step where it has a byte to deposit. -/
def State.depositIf (s : State) (d : Option Byte) : State := d.elim s s.deposit

/-- The response after at most one deposit. -/
theorem deliver_depositIf {s : State} {d : Option Byte} {rest : List Move} (r : Response)
    (h : s.tape = (d.map Move.deposit).toList ++ .master :: rest) :
    deliver r s = (s.depositIf d).answeredWith rest r := by
  cases d with
  | none => exact deliver_answeredWith r h
  | some v =>
    have ht : tick s = .ok () ((s.deposit v).setTape rest) := by
      unfold tick
      rw [h]
      rfl
    unfold deliver
    rw [ht]
    rfl

/-! ### CLRSTATE (R200, R201) -/

theorem exec_clrstate_deposit {s : State} {d : Option Byte} {rest : List Move}
    (h : s.tape = .master :: ((d.map Move.deposit).toList ++ .master :: rest)) :
    exec .clrstate s = .next ((s.clear.depositIf d).answeredWith rest okResponse) := by
  have hrun : commandOf s .clrstate s = .ok okResponse (s.setTape ((d.map Move.deposit).toList ++ .master :: rest)).clear :=
    bind_run_ok (tick_master h) _
  calc exec .clrstate s = .next (finish (commandOf s .clrstate) s) := rfl
    _ = .next (deliver okResponse (s.setTape ((d.map Move.deposit).toList ++ .master :: rest)).clear) := by rw [finish_ok hrun]
    _ = .next ((s.clear.depositIf d).answeredWith rest okResponse) := by
      rw [deliver_depositIf okResponse rfl]
      cases d <;> rfl

/-- Settles O13: the clear, then the mailbox as the deposit before the response leaves it. -/
theorem clrstateCommand : Obligations.ClrstateCommand := by
  intro s rest d hwf ht
  have he := exec_clrstate_deposit ht
  obtain ⟨hout, hbaud⟩ := commandsWithoutChannelEvents .clrstate s _ (.inl rfl) he
  refine ⟨_, he, ?_⟩
  have hread := read_clearStore s.cfg s.store hwf
  cases d <;>
    exact ⟨⟨rfl, rfl⟩, rfl, rfl, rfl, rfl, rfl, rfl, rfl, hread, hout, rfl, rfl, hbaud, rfl, rfl, rfl, rfl, rfl⟩

/-! ### GETSTATE (R203) -/

theorem flagByte_eq_byteOfBits (s : State) :
    s.flagByte = byteOfBits [s.lastDeviceFlag, s.hasMoreDevices, s.echoReady] := by
  unfold State.flagByte
  generalize s.lastDeviceFlag = a, s.hasMoreDevices = b, s.echoReady = c
  revert a b c
  decide

theorem getLsbD_flagByte_high (s : State) {i : Nat} (hi : 3 ≤ i) : s.flagByte.getLsbD i = false := by
  by_cases h8 : i < 8
  · rw [flagByte_eq_byteOfBits, getLsbD_byteOfBits _ _ h8]
    exact List.getD_eq_default _ _ hi
  · exact BitVec.getLsbD_of_ge _ _ (by omega)

theorem romByte_of_ge (r : Rom) {j : Nat} (hj : 8 ≤ j) : romByte r j = 0 := by
  apply BitVec.eq_of_getLsbD_eq
  intro i hi
  rw [getLsbD_romByte _ _ _ hi, BitVec.getLsbD_of_ge _ _ (by omega)]
  exact BitVec.getLsbD_zero.symm

/-- The upper four bytes of GETSTATE's `rom` are 0. -/
theorem romByte_statusRom_high (s : State) {j : Nat} (hj : 4 ≤ j) : romByte s.statusRom j = 0 := by
  by_cases h8 : j < 8
  · rw [State.statusRom, romByte_romOfBytes _ _ h8]
    exact List.getD_eq_default _ _ hj
  · exact romByte_of_ge _ (by omega)

theorem exec_getstate_master {s : State} {rest : List Move} (h : s.tape = .master :: .master :: rest) :
    exec .getstate s = .next (s.answeredWith rest s.statusResponse) := by
  have hrun : commandOf s .getstate s = .ok s.statusResponse (s.setTape (.master :: rest)) :=
    bind_run_ok (tick_master h) _
  calc exec .getstate s = .next (finish (commandOf s .getstate) s) := rfl
    _ = .next (deliver s.statusResponse (s.setTape (.master :: rest))) := by rw [finish_ok hrun]
    _ = .next (s.answeredWith rest s.statusResponse) := by rw [deliver_answeredWith _ rfl]; rfl

/-- Settles O50: the four bytes `statusRom` is made of, and zeros above them. -/
theorem getstateCommand : Obligations.GetstateCommand := by
  intro s rest ht
  have h0 : romByte s.statusRom 0 = s.flagByte := romByte_romOfBytes _ 0 (by decide)
  have h1 : romByte s.statusRom 1 = s.lastDiscrepancy.setWidth 8 := romByte_romOfBytes _ 1 (by decide)
  have h2 : romByte s.statusRom 2 = s.lastFamilyDiscrepancy.setWidth 8 := romByte_romOfBytes _ 2 (by decide)
  have h3 : romByte s.statusRom 3 = s.echoBuffer := romByte_romOfBytes _ 3 (by decide)
  have hbit (i : Nat) (hi : i < 8) : (romByte s.statusRom 0).getLsbD i =
      [s.lastDeviceFlag, s.hasMoreDevices, s.echoReady].getD i false := by
    rw [h0, flagByte_eq_byteOfBits, getLsbD_byteOfBits _ _ hi]
  refine ⟨s.statusRom, exec_getstate_master ht, hbit 0 (by decide), hbit 1 (by decide), hbit 2 (by decide), fun i hi => ?_,
    ?_, ?_, h3, fun j hj => romByte_statusRom_high s hj⟩
  · rw [h0, getLsbD_flagByte_high s hi]
  · rw [h1, BitVec.toNat_setWidth_of_le (by decide)]
  · rw [h2, BitVec.toNat_setWidth_of_le (by decide)]

/-! ### GETSCR, GETDEV (R204, R205) -/

/-- Settles O51: the answer is `romScratch`, the code at address 0. -/
theorem getscrCommand : Obligations.GetscrCommand := by
  intro s rest ht
  refine ⟨s.scratch, congrArg _ (deliver_answeredWith _ ht), fun j hj => ?_⟩
  rw [State.scratch, romByte_readRomAt _ _ _ hj, Nat.zero_add]

/-- GETDEV of an entry that is inside the local store. -/
theorem exec_getdev_below {s : State} {k : Byte} (hk : k.toNat < s.deviceCount.toNat)
    (hin : entryAddr k.toNat + 8 ≤ storeSize s.cfg) :
    exec (.getdev k) s = .next (deliver ⟨.ok, k, s.entry k.toNat⟩ s) :=
  (if_pos hk).trans (if_pos hin)

theorem exec_getdev_not_below {s : State} {k : Byte} (hk : s.deviceCount.toNat ≤ k.toNat) :
    exec (.getdev k) s = .next (deliver ⟨.indexRange, s.deviceCount, 0⟩ s) :=
  if_neg (Nat.not_lt.mpr hk)

/-- Settles O52: below the count the entry is inside the store and is read; from the count on nothing is read. -/
theorem getdevCommand : Obligations.GetdevCommand := by
  intro s k rest ht
  refine ⟨fun hk hcount => ?_, fun hk => ?_⟩
  · have hin : entryAddr k.toNat + 8 ≤ storeSize s.cfg := entryAddr_within_store (Nat.lt_of_lt_of_le hk hcount)
    refine ⟨s.entry k.toNat, ?_, fun j hj => romByte_readRomAt _ _ _ hj⟩
    rw [exec_getdev_below hk hin, deliver_answeredWith _ ht]
  · rw [exec_getdev_not_below hk, deliver_answeredWith _ ht]

/-! ### Codes without a command (R206, R96) -/

/-- Settles O53: the latched word decodes to the unassigned code, which is answered and nothing else. -/
theorem unassignedCommand : Obligations.UnassignedCommand := by
  intro s op arg rom rest hop hb hreq ht
  have hstep : step s = exec (.unassigned op) s := by
    rw [step_busy hb, hreq, decode_reqWord_unassigned hop]
  refine ⟨hstep.symm, ?_⟩
  calc step s = .next (deliver ⟨.illegalCommand, 0, 0⟩ s) := hstep
    _ = .next (s.answeredWith rest ⟨.illegalCommand, 0, 0⟩) := by rw [deliver_answeredWith _ ht]

end Sys2Proof.Machine
end

section
/-! SUPPORT. A late echo: deposited before the next transmit, or between that transmit and its own echo
(spec/70_reset_and_hazards.md R247). -/

namespace Sys2Proof.Machine

theorem tick_deposit {s : State} {v : Byte} {l : List Move} (h : s.tape = .deposit v :: .master :: l) :
    tick s = .ok () ((s.deposit v).setTape l) := by
  unfold tick
  rw [h]
  rfl

/-- A deposit just before a transmit might as well have happened before the command. -/
theorem xfer_deposit {s : State} {v : Byte} {l : List Move} (x : Sent) (h : s.tape = .deposit v :: .master :: l) :
    xfer x s = xfer x ((s.deposit v).setTape (.master :: l)) := by
  unfold xfer
  rw [bind_run_ok (tick_deposit h), bind_run_ok (tick_master (l := l) rfl)]
  rfl

theorem Draw.moves_eq_cons (T : Nat) (d : Draw) : ∃ l, d.moves T = .master :: l := by
  cases d <;> exact ⟨_, rfl⟩

/-- Settles O29: the transmit drops what the mailbox holds; after it the first deposit is taken for the echo, and the next one
finds nobody waiting. -/
theorem lateEcho : Obligations.LateEcho := by
  constructor
  · intro s late d rest hd ht
    obtain ⟨l, hl⟩ := d.moves_eq_cons s.cfg.readTimeout
    rw [hl] at ht
    obtain ⟨t, hx, hD⟩ := xfer_draw (s := (s.deposit late).setTape (.master :: (l ++ rest))) (rest := rest) .read hd
      (by rw [State.setTape_tape, State.setTape_cfg, State.deposit_cfg, hl]; rfl)
    exact ⟨t, (xfer_deposit .read ht).trans hx, ⟨(same_deposit s late).trans ((same_setTape _ _).trans hD.same), hD.baud,
      hD.tape, hD.trace, hD.ready⟩⟩
  · intro s late own rest hT ht
    obtain ⟨t, hr, hD⟩ := readBit_draw (s := s) (k := 0) (v := late) (rest := .deposit own :: .master :: rest) hT ht
    have hrun : commandOf s .rdbit s = .ok ⟨.ok, if late = 0xFF then 1 else 0, 0⟩ t := by
      refine (bind_run_ok hr _).trans ?_
      by_cases hv : late = 0xFF <;> simp [hv, bitVal]
    refine ⟨(t.depositIf (some own)).answeredWith rest ⟨.ok, if late = 0xFF then 1 else 0, 0⟩, ?_, ⟨rfl, ?_⟩, rfl, rfl⟩
    · calc exec .rdbit s = .next (finish (commandOf s .rdbit) s) := rfl
        _ = _ := by rw [finish_ok hrun, deliver_depositIf (d := some own) _ hD.tape]
    · exact congrArg (_ :: ·) (show responses t.trace = _ by rw [hD.trace, responses_events])

end Sys2Proof.Machine
end

section
/-! SUPPORT. The reset input: before the first atomic step of a command, and later in the course of the others' moves
(spec/70_reset_and_hazards.md R240). -/

namespace Sys2Proof.Machine

/-! ### The reset input comes first -/

/-- Before anything else the computation lets the others move: a reset input that comes there ends it at once. -/
def BeginsWithTick {α : Type} (m : M α) : Prop := ∀ ⦃s u e⦄, tick s = .error e u → m s = .error e u

section
variable {α β : Type}

theorem beginsWithTick_tick : BeginsWithTick tick := fun _ _ _ => id

theorem BeginsWithTick.bind {m : M α} (h : BeginsWithTick m) (f : α → M β) : BeginsWithTick (m >>= f) :=
  fun _ _ _ ht => bind_run_error (h ht) f

theorem beginsWithTick_configureBaud (r : Baud) : BeginsWithTick (configureBaud r) := beginsWithTick_tick.bind _

theorem beginsWithTick_xfer (x : Sent) : BeginsWithTick (xfer x) := beginsWithTick_tick.bind _

theorem beginsWithTick_resetBus : BeginsWithTick resetBus := (beginsWithTick_configureBaud .reset).bind _

theorem beginsWithTick_addressed (body : M Response) : BeginsWithTick (addressed body) := beginsWithTick_resetBus.bind _

theorem beginsWithTick_writeBit (w : Bool) : BeginsWithTick (writeBit w) := (beginsWithTick_xfer _).bind _

theorem beginsWithTick_readBit : BeginsWithTick readBit := (beginsWithTick_xfer _).bind _

theorem beginsWithTick_writeByte (c : Byte) : BeginsWithTick (writeByte c) := (beginsWithTick_writeBit _).bind _

theorem beginsWithTick_readByte : BeginsWithTick readByte := (beginsWithTick_readBit.bind _).bind _

end

/-- The reset input, coming first, ends a computation, or the computation has done nothing yet. -/
def KilledOrIdle {α : Type} (m : M α) (s u : State) : Prop := m s = .error .killed u ∨ ∃ a, m s = .ok a s

section
variable {s u : State}

/-- A search pass lets the others move first unless it is exhausted. -/
theorem searchPass_killed_or_exhausted (alarm : Bool) (ht : tick s = .error .killed u) :
    searchPass alarm s = .error .killed u ∨ searchPass alarm s = .ok .exhausted s := by
  cases hf : s.lastDeviceFlag with
  | true => exact .inr (searchPass_exhausted alarm hf)
  | false =>
    have hb : passBody alarm s = .error .killed u := by
      unfold passBody
      rw [look_bind, hf]
      exact bind_run_error (beginsWithTick_resetBus ht) _
    refine .inl ?_
    unfold searchPass
    rw [hb]

theorem searchCommandBody_killedOrIdle (alarm : Bool) (ht : tick s = .error .killed u) :
    KilledOrIdle (searchCommandBody alarm) s u := by
  rcases searchPass_killed_or_exhausted alarm ht with h | h
  · exact .inl (bind_run_error h _)
  · exact .inr ⟨_, bind_run_ok h _⟩

theorem commandOf_killedOrIdle (i : Instr) (ht : tick s = .error .killed u) : KilledOrIdle (commandOf s i) s u := by
  cases i with
  | reset => exact .inl (beginsWithTick_resetBus.bind _ ht)
  | wrbit | wr0 | wr1 => exact .inl ((beginsWithTick_writeBit _).bind _ ht)
  | rdbit => exact .inl (beginsWithTick_readBit.bind _ ht)
  | wrbyte => exact .inl ((beginsWithTick_writeByte _).bind _ ht)
  | rdbyte => exact .inl (beginsWithTick_readByte.bind _ ht)
  | matchrom | skiprom | readrom => exact .inl (beginsWithTick_addressed _ ht)
  | search | asearch => exact searchCommandBody_killedOrIdle _ ht
  | clrstate | getstate => exact .inl (beginsWithTick_tick.bind _ ht)
  | _ => exact .inr ⟨_, rfl⟩

theorem deliver_killed (r : Response) (ht : tick s = .error .killed u) : deliver r s = u := by
  unfold deliver
  rw [ht]

theorem finish_killed_first {m : M Response} (h : KilledOrIdle m s u) (ht : tick s = .error .killed u) : finish m s = u := by
  rcases h with h | ⟨r, h⟩
  · exact finish_killed h
  · rw [finish_ok h, deliver_killed r ht]

theorem scanStep_killed_first (alarm : Bool) (ht : tick s = .error .killed u) : scanStep alarm s = u := by
  rcases scanOpening_cases s with ⟨hp, -⟩ | ⟨-, v, hv, -⟩ | ⟨-, v, hv, h⟩
  · unfold scanStep
    rw [scanPass_loop alarm hp]
    rcases searchPass_killed_or_exhausted alarm ht with h | h
    · rw [h]
    · rw [h]
      exact deliver_killed _ ht
  · rw [ht] at hv
    cases hv
  · rw [ht] at hv
    cases hv
    exact h alarm

/-- Whatever the request, a reset input that comes first leaves what it makes of the state. -/
theorem exec_reset_first {i : Instr} {l : List Move} (hg : s.deviceCount.toNat ≤ s.cfg.maxDevices)
    (hi : isRequest i = true) (h : s.tape = .reset :: l) : exec i s = .next (s.setTape l).hardReset := by
  have ht := tick_reset h
  cases hs : isScan i with
  | true =>
    obtain ⟨alarm, he⟩ := exec_scan_next s hs
    rw [he, scanStep_killed_first alarm ht]
  | false => rw [exec_eq_next hi hs hg, finish_killed_first (commandOf_killedOrIdle i ht) ht]

theorem idleStep_reset_first {l : List Move} (h : s.tape = .reset :: l) : idleStep s = (s.setTape l).hardReset := by
  unfold idleStep
  rw [tick_reset h]

end

/-! ### The reset input comes later -/

/-- The reset input is ahead, and `l` after it. -/
def State.ResetAhead (s : State) (l : List Move) : Prop := ∃ ms, Move.reset ∉ ms ∧ s.tape = ms ++ .reset :: l

/-- From `s` to `t` the command runs on, nobody answered, the reset input still ahead. -/
structure RunsOn (l : List Move) (s t : State) : Prop where
  cfg : t.cfg = s.cfg
  busy : t.busy = s.busy
  response : responses t.trace = responses s.trace
  ahead : s.ResetAhead l → t.ResetAhead l

/-- The reset input that was ahead of `s` has come: nobody answered, the rest of the tape ahead. -/
structure ResetCame (l : List Move) (s t : State) : Prop where
  block : InResetState t
  response : responses t.trace = responses s.trace
  tape : s.ResetAhead l → t.tape = l

/-- `RunsOn`, or, where the reset input has ended the computation, `ResetCame`. -/
def UpToReset (l : List Move) (s : State) : Option Stop → State → Prop
  | some .killed, t => ResetCame l s t
  | _, t => RunsOn l s t

section
variable {l : List Move}

theorem RunsOn.of_tape {s t : State} (hc : t.cfg = s.cfg) (hb : t.busy = s.busy) (hr : responses t.trace = responses s.trace)
    (ht : t.tape = s.tape) : RunsOn l s t := ⟨hc, hb, hr, fun ⟨ms, hms, h⟩ => ⟨ms, hms, ht.trans h⟩⟩

theorem RunsOn.trans {s t u : State} (h1 : RunsOn l s t) (h2 : RunsOn l t u) : RunsOn l s u :=
  ⟨h2.cfg.trans h1.cfg, h2.busy.trans h1.busy, h2.response.trans h1.response, h2.ahead ∘ h1.ahead⟩

theorem upToReset_composes : Composes (UpToReset l) where
  refl _ := .of_tape rfl rfl rfl rfl
  timeout _ := .of_tape rfl rfl rfl rfl
  trans {s t u e} h1 h2 := by
    have h1 : RunsOn l s t := h1
    rcases e with _ | ⟨_ | _⟩
    · exact h1.trans h2
    · exact h1.trans h2
    · exact ⟨h2.block, h2.response.trans h1.response, h2.tape ∘ h1.ahead⟩

/-- The others' moves stop before the reset input or at it. -/
theorem playTape_resetAhead (ms : List Move) (hms : Move.reset ∉ ms) (s : State) :
    MovesEnd (fun _ t => t.ResetAhead l) (fun _ t => t.tape = l) s (playTape (ms ++ .reset :: l) s) := by
  induction ms generalizing s with
  | nil => rfl
  | cons m ms ih =>
    have hms' : Move.reset ∉ ms := fun h => hms (List.mem_cons_of_mem m h)
    cases m with
    | master => exact ⟨ms, hms', rfl⟩
    | deposit v => exact ih hms' (s.deposit v)
    | echo => exact ih hms' s.depositOldest
    | lose => exact ih hms' s.dropEcho
    | reset => exact absurd List.mem_cons_self hms

theorem tick_upToReset : Ends (UpToReset l) tick := by
  intro s
  have hc := tick_channelOnly s
  have hm : s.ResetAhead l → MovesEnd (fun _ t => t.ResetAhead l) (fun _ t => t.tape = l) s (tick s) := by
    rintro ⟨ms, hms, h⟩
    unfold tick
    rw [h]
    exact playTape_resetAhead ms hms s
  cases ht : tick s with
  | ok a t =>
    rw [ht] at hc hm
    exact ⟨hc.1.cfg, hc.1.busy, hc.2.1, hm⟩
  | error e t =>
    rw [ht] at hc hm
    cases e with
    | timeout => exact absurd ht tick_not_timeout
    | killed =>
      obtain ⟨-, u, -, hr, rfl⟩ := hc
      exact ⟨inResetState_hardReset u, hr, hm⟩

theorem upToReset_passSteps : PassSteps (UpToReset l) where
  toComposes := upToReset_composes
  tick := tick_upToReset
  baud _ _ := .of_tape rfl rfl rfl rfl
  transmit s x _ := .of_tape (transmit_cfg s x) (same_transmit s x).busy (transmit_responses s x) (transmit_tape s x)
  consume _ := .of_tape rfl rfl rfl rfl
  cfg h := h.cfg
  store _ _ _ _ := .of_tape rfl rfl rfl rfl
  noDevices _ := .of_tape rfl rfl rfl rfl
  close s w :=
    have h := closePass_closedOnly w s
    .of_tape h.cfg h.busy (congrArg responses h.trace) h.tape

/-- A request with the reset input ahead: answered, or SCAN going on, with the reset still ahead, or ended by the reset. -/
theorem exec_upToReset {i : Instr} {s t : State} (hi : isRequest i = true) (h : s.ResetAhead l) (he : exec i s = .next t) :
    (((∃ r, Responded s r t) ∨ (isScan i = true ∧ GoesOn s t)) ∧ t.ResetAhead l) ∨
      (InResetState t ∧ responses t.trace = responses s.trace ∧ t.tape = l) := by
  rcases request_cases (upToReset_passSteps (l := l)) (fun _ _ h => h) (fun _ => .of_tape rfl rfl rfl rfl) hi he with
    ⟨v, r, hv, rfl⟩ | ⟨hs, v, hv, rfl⟩ | hk
  · exact .inl ⟨.inl ⟨r, rfl, congrArg (r.word :: ·) hv.response⟩, hv.ahead h⟩
  · exact .inl ⟨.inr ⟨hs, hv.busy, rfl, hv.response⟩, hv.ahead h⟩
  · exact .inr ⟨hk.block, hk.response, hk.tape h⟩

end

/-- Settles O11: a reset that comes first meets a block that has done nothing, running or idle; one that comes later is met between
two atomic steps of the command, or the command has ended before it. -/
theorem hardwareReset : Obligations.HardwareReset := by
  refine ⟨fun i s l hinv hi ht => ?_, fun s l hb ht => ?_, fun i s t ms l hi hms ht he => ?_⟩
  · exact ⟨_, exec_reset_first hinv.count_le hi ht, inResetState_hardReset _, rfl⟩
  · exact ⟨(s.setTape l).hardReset, by rw [step_idle hb, idleStep_reset_first ht], inResetState_hardReset _, rfl⟩
  · rcases exec_upToReset hi ⟨ms, hms, ht⟩ he with ⟨hend, ms', -, ht'⟩ | hreset
    · exact .inl ⟨hend, ms', ht'⟩
    · exact .inr hreset

end Sys2Proof.Machine
end

section
/-! SUPPORT. How many bytes a computation transmits and at which rate it leaves the channel, in any environment that does not assert
the reset input: one law a primitive, then each request (spec/70_reset_and_hazards.md R243, R257, spec/42_rom_search.md R172). -/

namespace Sys2Proof.Machine

/-! ### Counting transmits -/

/-- From `s` to `t` the master transmitted `n` bytes; the rate is then `r`, and no reset input is ahead. -/
structure Transmitted (n : Nat) (r : Option Baud) (s t : State) : Prop where
  live : t.live
  baud : t.baud = r
  count : (sent t.trace).length = (sent s.trace).length + n

theorem Transmitted.refl {s : State} (h : s.live) : Transmitted 0 s.baud s s := ⟨h, rfl, rfl⟩

theorem Transmitted.trans {a b : Nat} {q r : Option Baud} {s t u : State} (h1 : Transmitted a q s t)
    (h2 : Transmitted b r t u) : Transmitted (a + b) r s u :=
  ⟨h2.live, h2.baud, by rw [h2.count, h1.count, Nat.add_assoc]⟩

/-- The second part keeps the rate the first one left. -/
theorem Transmitted.keeping {a b : Nat} {r : Option Baud} {s t u : State} (h1 : Transmitted a r s t)
    (h2 : Transmitted b t.baud t u) : Transmitted (a + b) r s u := by
  rw [h1.baud] at h2
  exact h1.trans h2

/-- An update that leaves the tape, the rate and the trace. -/
theorem Transmitted.of_eq {s t : State} (hl : s.live) (ht : t.tape = s.tape) (hb : t.baud = s.baud)
    (htr : t.trace = s.trace) : Transmitted 0 s.baud s t :=
  ⟨hl.of_tape ht, hb, by rw [htr]; rfl⟩

/-- What is sent is part of what is output. -/
theorem sent_outputs (tr : List Action) : sent (outputs tr) = sent tr := by
  induction tr with
  | nil => rfl
  | cons a tr ih => cases a <;> simp [outputs, sent, ih]

theorem tick_transmitted {s : State} (hl : s.live) : ∃ t, tick s = .ok () t ∧ Transmitted 0 s.baud s t := by
  obtain ⟨t, ht, -, -, hlt⟩ := tick_of_live hl
  have hs := tick_silently.of_ok ht
  exact ⟨t, ht, hlt, hs.baud, by rw [← sent_outputs, hs.outputs, sent_outputs]; rfl⟩

/-! ### Computations that neither raise TIMEOUT nor select the rate -/

/-- From a live state the computation ends normally, after `n` transmits at the rate as it is. -/
def Completes {α : Type} (n : Nat) (m : M α) : Prop :=
  ∀ s : State, s.live → ∃ a t, m s = .ok a t ∧ Transmitted n s.baud s t

section
variable {α β : Type} {a b n : Nat}

theorem Completes.bind {m : M α} {f : α → M β} (hm : Completes a m) (hf : ∀ x, Completes b (f x)) :
    Completes (a + b) (m >>= f) := by
  intro s hl
  obtain ⟨x, t, ht, hst⟩ := hm s hl
  obtain ⟨y, u, hu, htu⟩ := hf x t hst.live
  exact ⟨y, u, (bind_run_ok ht f).trans hu, hst.keeping htu⟩

theorem completes_pure (x : α) : Completes 0 (pure x : M α) := fun s hl => ⟨x, s, rfl, .refl hl⟩

theorem completes_look : Completes 0 look := fun s hl => ⟨s, s, rfl, .refl hl⟩

/-- An update that leaves the tape, the rate and the trace. -/
theorem completes_update {f : State → State} (ht : ∀ s, (f s).tape = s.tape) (hb : ∀ s, (f s).baud = s.baud)
    (htr : ∀ s, (f s).trace = s.trace) : Completes 0 (update f) :=
  fun s hl => ⟨(), f s, rfl, .of_eq hl (ht s) (hb s) (htr s)⟩

theorem completes_tick : Completes 0 tick := fun _ hl =>
  have ⟨t, ht, hst⟩ := tick_transmitted hl
  ⟨(), t, ht, hst⟩

theorem completes_transmit (x : Sent) : Completes 1 (update (·.transmit x)) := fun s hl =>
  ⟨(), s.transmit x, rfl, hl.of_tape (transmit_tape s x), transmit_baud s x, by rw [transmit_trace]; rfl⟩

theorem completes_poll : Completes 0 poll :=
  completes_tick.bind (b := 0) fun _ => completes_look.bind (b := 0) fun s => by
    split
    · exact (completes_update (f := State.consume) (fun _ => rfl) (fun _ => rfl) fun _ => rfl).bind fun _ => completes_pure _
    · exact completes_pure _

theorem completes_awaitLoop : ∀ k, Completes 0 (awaitLoop k)
  | 0 => completes_pure _
  | k + 1 => completes_poll.bind (b := 0) fun
    | some _ => completes_pure _
    | none => completes_awaitLoop k

theorem completes_awaitEcho : Completes 0 awaitEcho := completes_look.bind fun _ => completes_awaitLoop _

/-- A transmit and its wait are one byte, whatever comes of the wait. -/
theorem completes_xfer (x : Sent) : Completes 1 (xfer x) :=
  completes_tick.bind fun _ => (completes_transmit x).bind fun _ => completes_awaitEcho

theorem completes_writeBit (w : Bool) : Completes 1 (writeBit w) := (completes_xfer _).bind fun _ => completes_pure _

theorem completes_writeBits : ∀ ws, Completes ws.length (writeBits ws)
  | [] => completes_pure _
  | w :: ws => by
    rw [List.length_cons, Nat.add_comm]
    exact (completes_writeBit w).bind fun _ => completes_writeBits ws

theorem completes_writeByte (c : Byte) : Completes 8 (writeByte c) := completes_writeBits (bitsOfByte c)

theorem completes_writeBytes : ∀ cs, Completes (8 * cs.length) (writeBytes cs)
  | [] => completes_pure _
  | c :: cs => by
    rw [List.length_cons, Nat.mul_succ, Nat.add_comm]
    exact (completes_writeByte c).bind fun _ => completes_writeBytes cs

end

/-! ### Computations that may raise TIMEOUT -/

/-- The end of a computation begun in `s`, the rate then `r`: normal, after a number of transmits that `N` allows for the value, or
by TIMEOUT after any number. -/
def Transmits {α : Type} (r : Option Baud) (N : α → Nat → Prop) (s : State) : EStateM.Result Stop State α → Prop
  | .ok a t => ∃ n, N a n ∧ Transmitted n r s t
  | .error .timeout t => ∃ n, Transmitted n r s t
  | .error .killed _ => False

/-- From every live state, at the rate as it is. -/
def Slots {α : Type} (N : α → Nat → Prop) (m : M α) : Prop := ∀ s : State, s.live → Transmits s.baud N s (m s)

/-- Exactly `k` transmits, whatever the value. -/
def Exactly {α : Type} (k : Nat) (_ : α) (n : Nat) : Prop := n = k

section
variable {α β : Type} {N : α → Nat → Prop} {R : β → Nat → Prop} {r : Option Baud} {s t : State} {k : Nat}

/-- Slots after `k` transmits. -/
theorem Slots.after {m : M β} (hm : Slots (fun y j => R y (k + j)) m) (h : Transmitted k r s t) : Transmits r R s (m t) := by
  have hj := hm t h.live
  cases hr : m t with
  | ok y u =>
    rw [hr] at hj
    obtain ⟨j, hR, hu⟩ := hj
    exact ⟨k + j, hR, h.keeping hu⟩
  | error e u =>
    rw [hr] at hj
    cases e with
    | timeout =>
      obtain ⟨j, hu⟩ := hj
      exact ⟨k + j, h.keeping hu⟩
    | killed => exact hj

/-- A sequence: how many transmits the rest may take depends on those of the first part. -/
theorem Transmits.bind {m : M α} {f : α → M β} (hm : Transmits r N s (m s))
    (hf : ∀ x k, N x k → Slots (fun y j => R y (k + j)) (f x)) : Transmits r R s ((m >>= f) s) := by
  rw [bind_run]
  cases hr : m s with
  | ok x t =>
    rw [hr] at hm
    obtain ⟨k, hN, ht⟩ := hm
    exact (hf x k hN).after ht
  | error e t =>
    rw [hr] at hm
    cases e with
    | timeout => exact hm
    | killed => exact hm

theorem Slots.bind {m : M α} {f : α → M β} (hm : Slots N m) (hf : ∀ x k, N x k → Slots (fun y j => R y (k + j)) (f x)) :
    Slots R (m >>= f) := fun s hl => (hm s hl).bind hf

theorem slots_pure {x : α} (h : N x 0) : Slots N (pure x : M α) := fun _ hl => ⟨0, h, .refl hl⟩

theorem slots_raise : Slots N (raiseTimeout : M α) := fun _ hl => ⟨0, .refl hl⟩

theorem Completes.slots {m : M α} (hm : Completes k m) (h : ∀ x, N x k) : Slots N m := by
  intro s hl
  obtain ⟨x, t, ht, hst⟩ := hm s hl
  rw [ht]
  exact ⟨k, h x, hst⟩

theorem Slots.mono {N' : α → Nat → Prop} {m : M α} (hm : Slots N m) (h : ∀ x n, N x n → N' x n) : Slots N' m := by
  intro s hl
  have hs := hm s hl
  cases hr : m s with
  | ok x t =>
    rw [hr] at hs
    obtain ⟨n, hN, ht⟩ := hs
    exact ⟨n, h x n hN, ht⟩
  | error e t =>
    rw [hr] at hs
    cases e with
    | timeout => exact hs
    | killed => exact hs

theorem Slots.bind_exactly {a b : Nat} {m : M α} {f : α → M β} (hm : Slots (Exactly a) m)
    (hf : ∀ x, Slots (Exactly b) (f x)) : Slots (Exactly (a + b)) (m >>= f) :=
  hm.bind fun x _ ha => (hf x).mono fun _ _ hb => congrArg₂ (· + ·) ha hb

end

theorem slots_readBit : Slots (Exactly 1) readBit :=
  ((completes_xfer .read).slots (N := Exactly 1) fun _ => rfl).bind_exactly (b := 0) fun
    | .echo _ => slots_pure rfl
    | .timedOut => slots_raise

theorem slots_readBits : ∀ n, Slots (Exactly n) (readBits n)
  | 0 => slots_pure rfl
  | n + 1 => by
    have h : Slots (Exactly (1 + n)) (readBits (n + 1)) :=
      slots_readBit.bind_exactly fun _ => (slots_readBits n).bind_exactly fun _ => slots_pure rfl
    rwa [Nat.add_comm] at h

theorem slots_readByte : Slots (Exactly 8) readByte := (slots_readBits 8).bind_exactly fun _ => slots_pure rfl

theorem slots_readBytes : ∀ n, Slots (Exactly (8 * n)) (readBytes n)
  | 0 => slots_pure rfl
  | n + 1 => by
    have h : Slots (Exactly (8 + 8 * n)) (readBytes (n + 1)) :=
      slots_readByte.bind_exactly fun _ => (slots_readBytes n).bind_exactly fun _ => slots_pure rfl
    rwa [Nat.add_comm] at h

theorem slots_readRomBytes : Slots (Exactly 64) readRomBytes := (slots_readBytes 8).bind_exactly fun _ => slots_pure rfl

/-! ### The bus reset -/

theorem configureBaud_transmitted (r : Baud) {s : State} (hl : s.live) :
    ∃ t, configureBaud r s = .ok () t ∧ Transmitted 0 (some r) s t := by
  obtain ⟨t, ht, hst⟩ := tick_transmitted hl
  exact ⟨t.setBaud r, bind_run_ok ht _, hst.live, rfl, hst.count⟩

/-- Two transmits; every end of the bus reset comes after the selection of the slot rate (40_codec.md R123). -/
theorem resetBus_transmits {s : State} (hl : s.live) : Transmits (some .slot) (Exactly 2) s (resetBus s) := by
  obtain ⟨t, ht, hst⟩ := configureBaud_transmitted .reset hl
  obtain ⟨w, u, hu, htu⟩ := completes_xfer (.other t.cfg.resetByte) t hst.live
  obtain ⟨v, hv, huv⟩ := configureBaud_transmitted .slot htu.live
  have hsv : Transmitted 1 (some .slot) s v := (hst.trans htu).trans huv
  unfold resetBus
  rw [bind_run_ok ht, look_bind, bind_run_ok hu, bind_run_ok hv]
  cases w with
  | timedOut => exact ⟨1, hsv⟩
  | echo _ =>
    have hprobe : Slots (Exactly 1) (xfer (.other t.cfg.probeByte)) := (completes_xfer _).slots fun _ => rfl
    refine Slots.after (R := Exactly 2) (k := 1) (hprobe.bind fun w k hk => ?_) hsv
    cases w with
    | timedOut => exact slots_raise
    | echo _ => exact slots_pure (congrArg (1 + ·) hk)

/-! ### The search pass -/

/-- A position that is no bus error takes three slots (42_rom_search.md R172). -/
theorem slots_searchPosition (p : Nat) (w : Work) : Slots (fun o n => o.isSome → n = 3) (searchPosition p w) := by
  refine slots_readBit.bind fun a i hi => slots_readBit.bind fun b j hj => ?_
  split
  · exact slots_pure fun h => nomatch h
  · refine Completes.slots (k := 1) (completes_look.bind (b := 1) fun s => ?_) fun _ _ => by rw [hi, hj]
    exact (completes_update (f := (·.storeScratchBit p _)) (fun _ => rfl) (fun _ => rfl) fun _ => rfl).bind (b := 1) fun _ =>
      (completes_writeBit _).bind fun _ => completes_pure _

theorem slots_searchLoop : ∀ k w, Slots (fun o n => o.isSome → n = 3 * k) (searchLoop k w)
  | 0, _ => slots_pure fun _ => rfl
  | k + 1, w => (slots_searchPosition (63 - k) w).bind fun
    | none, _, _ => slots_pure fun h => nomatch h
    | some w', i, hi => (slots_searchLoop k w').mono fun _ j hj h => by rw [hi rfl, hj h]; omega

/-- The close of a pass is no channel event. -/
theorem completes_closing : ∀ o, Completes 0 (closing o)
  | none => completes_pure _
  | some w => fun s hl =>
    have h := closePass_closedOnly w s
    ⟨_, _, rfl, .of_eq hl h.tape h.baud h.trace⟩

/-- A pass that finds a device has sent two bytes of the bus reset, eight of the command, three a position (42_rom_search.md
R172). -/
def FoundAfter (o : Outcome) (n : Nat) : Prop := ∀ rom, o = .found rom → n = 202

theorem passBody_transmits {s : State} (alarm : Bool) (hl : s.live) (hf : s.lastDeviceFlag = false) :
    Transmits (some .slot) FoundAfter s (passBody alarm s) := by
  have hcommand : Slots (Exactly 8) (writeByte (searchCommand s.cfg alarm)) := (completes_writeByte _).slots fun _ => rfl
  have hloop : Slots (fun o n => FoundAfter o (2 + (8 + n))) (searchLoop 64 Work.init >>= closing) :=
    (slots_searchLoop 64 Work.init).bind fun
      | none, _, _ => slots_pure fun _ h => nomatch h
      | some w, i, hi => (completes_closing (some w)).slots fun _ _ _ => by rw [hi rfl]
  have hcount : Completes 0 (update (·.setCount 0)) := completes_update (fun _ => rfl) (fun _ => rfl) fun _ => rfl
  unfold passBody
  rw [look_bind, hf]
  refine (resetBus_transmits hl).bind fun present i hi => ?_
  rw [hi]
  cases present with
  | false => exact (hcount.slots (N := Exactly 0) fun _ => rfl).bind fun _ _ _ => slots_pure fun _ h => nomatch h
  | true =>
    refine hcommand.bind fun _ k hk => ?_
    rw [hk]
    exact hloop

/-- A pass has an outcome also for a TIMEOUT; it leaves the rate alone where the enumeration is exhausted. -/
theorem searchPass_transmits {s : State} (alarm : Bool) (hl : s.live) :
    ∃ o t n, searchPass alarm s = .ok o t ∧ FoundAfter o n ∧
      Transmitted n (if !s.lastDeviceFlag then some .slot else s.baud) s t := by
  cases hf : s.lastDeviceFlag with
  | true => exact ⟨_, s, 0, searchPass_exhausted alarm hf, fun _ h => (nomatch h), .refl hl⟩
  | false =>
    have hb := passBody_transmits alarm hl hf
    unfold searchPass
    cases hr : passBody alarm s with
    | ok o t =>
      rw [hr] at hb
      obtain ⟨n, hn, ht⟩ := hb
      exact ⟨o, t, n, rfl, hn, ht⟩
    | error e t =>
      rw [hr] at hb
      cases e with
      | timeout =>
        obtain ⟨n, ht⟩ := hb
        exact ⟨.timeout, t, n, rfl, fun _ h => (nomatch h), ht⟩
      | killed => exact hb.elim

/-! ### The requests -/

/-- The request, where it stands, contains a bus reset (70_reset_and_hazards.md R243). -/
def resetsBus (i : Instr) (s : State) : Bool :=
  match i with
  | .reset | .matchrom _ | .skiprom | .readrom => true
  | .search _ | .asearch => !s.lastDeviceFlag
  | .scan _ | .ascan => s.point == .start || !s.lastDeviceFlag
  | _ => false

/-- The channel's rate after the request. -/
def rateAfter (i : Instr) (s : State) : Option Baud := if resetsBus i s then some .slot else s.baud

/-- How many bytes a request other than SCAN transmits where it is answered OK (70_reset_and_hazards.md R257). -/
def transmitsOnOk : Instr → Nat
  | .reset => 2
  | .wrbit _ | .rdbit | .wr0 | .wr1 => 1
  | .wrbyte _ | .rdbyte => 8
  | .search _ | .asearch => 202
  | .matchrom _ | .readrom => 74
  | .skiprom => 10
  | _ => 0

/-- Where the response is OK, `k` transmits. -/
def OkAfter (k : Nat) (r : Response) (n : Nat) : Prop := r.res = .ok → n = k

theorem addressed_transmits {s : State} {body : M Response} {k : Nat} (hb : Slots (Exactly k) body) (hl : s.live) :
    Transmits (some .slot) (OkAfter (2 + k)) s (addressed body s) :=
  (resetBus_transmits hl).bind fun present i hi => by
    cases present with
    | false => exact slots_pure fun h => nomatch h
    | true => exact hb.mono fun _ j hj _ => congrArg₂ (· + ·) hi hj

theorem searchCommandBody_transmits {s : State} (alarm : Bool) (hl : s.live) :
    Transmits (if !s.lastDeviceFlag then some .slot else s.baud) (OkAfter 202) s (searchCommandBody alarm s) := by
  obtain ⟨o, t, n, hp, hn, ht⟩ := searchPass_transmits alarm hl
  unfold searchCommandBody
  rw [bind_run_ok hp, look_bind]
  refine ⟨n, fun hok => ?_, ht⟩
  cases o with
  | found rom => exact hn rom rfl
  | _ => cases hok

theorem Slots.okAfter {k : Nat} {m : M Response} (hm : Slots (Exactly k) m) : Slots (OkAfter k) m :=
  hm.mono fun _ _ h _ => h

theorem Completes.okAfter {k : Nat} {m : M Response} (hm : Completes k m) : Slots (OkAfter k) m := hm.slots fun _ _ => rfl

theorem commandOf_transmits (i : Instr) {s : State} (hi : isRequest i = true) (hs : isScan i = false) (hl : s.live) :
    Transmits (rateAfter i s) (OkAfter (transmitsOnOk i)) s (commandOf s i s) := by
  cases i with
  | reset => exact (resetBus_transmits hl).bind fun _ _ h => slots_pure fun _ => h
  | wrbit | wr0 | wr1 => exact ((completes_writeBit _).bind fun _ => completes_pure _).okAfter s hl
  | rdbit => exact (slots_readBit.bind_exactly (b := 0) fun _ => slots_pure rfl).okAfter s hl
  | wrbyte => exact ((completes_writeByte _).bind fun _ => completes_pure _).okAfter s hl
  | rdbyte => exact (slots_readByte.bind_exactly (b := 0) fun _ => slots_pure rfl).okAfter s hl
  | search alarm => exact searchCommandBody_transmits alarm hl
  | asearch => exact searchCommandBody_transmits true hl
  | matchrom rom =>
    have hrom : Completes 64 (writeBytes (romBytes rom)) := completes_writeBytes _
    have hb : Completes 72 _ :=
      (completes_writeByte 0x55).bind (b := 64) fun _ => hrom.bind fun _ => completes_pure okResponse
    exact addressed_transmits (hb.slots fun _ => rfl) hl
  | skiprom =>
    have hb : Completes 8 _ := (completes_writeByte 0xCC).bind fun _ => completes_pure okResponse
    exact addressed_transmits (hb.slots fun _ => rfl) hl
  | readrom =>
    have hcommand : Slots (Exactly 8) (writeByte 0x33) := (completes_writeByte 0x33).slots fun _ => rfl
    have hb : Slots (Exactly 72) _ := hcommand.bind_exactly fun _ =>
      slots_readRomBytes.bind_exactly (b := 0) fun rom => slots_pure (x := readromResponse rom) rfl
    exact addressed_transmits hb hl
  | clrstate =>
    have hclear : Completes 0 (update State.clear) := completes_update (fun _ => rfl) (fun _ => rfl) fun _ => rfl
    exact (completes_tick.bind fun _ => hclear.bind fun _ => completes_pure okResponse).okAfter s hl
  | getstate => exact (completes_tick.bind fun _ => completes_look.bind fun _ => completes_pure _).okAfter s hl
  | crc8 | getdev | getscr | unassigned => exact (slots_pure fun _ => rfl) s hl
  | scan | ascan => cases hs
  | _ => cases hi

/-! ### Rate and count after an instruction -/

theorem deliver_transmitted (r : Response) {s : State} (hl : s.live) :
    ∃ v, deliver r s = v.respond r ∧ Transmitted 0 s.baud s v := by
  obtain ⟨v, hv, hsv⟩ := tick_transmitted hl
  exact ⟨v, by unfold deliver; rw [hv], hsv⟩

/-- The response adds no transmit; it is the computation's, or TIMEOUT. -/
theorem finish_transmits {m : M Response} {s : State} {r : Option Baud} {N : Response → Nat → Prop}
    (hm : Transmits r N s (m s)) :
    ∃ v rsp n, finish m s = v.respond rsp ∧ (N rsp n ∨ rsp = timeoutResponse) ∧ Transmitted n r s v := by
  cases hr : m s with
  | ok rsp t =>
    rw [hr] at hm
    obtain ⟨n, hn, ht⟩ := hm
    obtain ⟨v, hd, hv⟩ := deliver_transmitted rsp ht.live
    exact ⟨v, rsp, n, (finish_ok hr).trans hd, .inl hn, ht.keeping hv⟩
  | error e t =>
    rw [hr] at hm
    cases e with
    | timeout =>
      obtain ⟨n, ht⟩ := hm
      obtain ⟨v, hd, hv⟩ := deliver_transmitted timeoutResponse ht.live
      exact ⟨v, _, n, (finish_timeout hr).trans hd, .inr rfl, ht.keeping hv⟩
    | killed => exact hm.elim

theorem result_code_injective : Function.Injective Result.code := by
  intro a b
  cases a <;> cases b <;> decide

/-- A response word tells the result. -/
theorem res_eq_of_word_eq {a b : Response} (h : a.word = b.word) : a.res = b.res := by
  obtain ⟨ha, -⟩ := fields_reqWord a.res.code a.val a.rom
  obtain ⟨hb, -⟩ := fields_reqWord b.res.code b.val b.rom
  rw [response_word_eq_reqWord, response_word_eq_reqWord] at h
  exact result_code_injective (by rw [← ha, h, hb])

/-- A request other than SCAN: the rate it leaves, and, where it is answered OK, how many bytes it has sent. -/
theorem exec_transmits {i : Instr} {s t : State} (hi : isRequest i = true) (hs : isScan i = false) (hl : s.live)
    (he : exec i s = .next t) : t.baud = rateAfter i s ∧ ∀ r, Responded s r t → r.res = .ok →
      (sent t.trace).length = (sent s.trace).length + transmitsOnOk i := by
  obtain ⟨v, rsp, n, hf, hn, hv⟩ := finish_transmits (commandOf_transmits i hi hs hl)
  obtain rfl : t = v.respond rsp := (exec_eq_finish hi hs he).trans hf
  refine ⟨hv.baud, fun r hr hok => ?_⟩
  have hrsp : rsp.res = .ok := (res_eq_of_word_eq (List.cons.inj hr.response).1).trans hok
  have hcount : n = transmitsOnOk i := by
    rcases hn with hn | rfl
    · exact hn hrsp
    · cases hrsp
  rw [← hcount]
  exact hv.count

/-- After its pass a step of SCAN does not touch the rate. -/
theorem scanStep_baud {alarm : Bool} {s u : State} {o : Outcome} (hp : scanPass alarm s = .ok o u) (hl : u.live) :
    (scanStep alarm s).baud = u.baud := by
  unfold scanStep
  rw [hp]
  dsimp only
  cases scanResponse u.deviceCount o with
  | none => rfl
  | some r =>
    obtain ⟨v, hd, hv⟩ := deliver_transmitted r hl
    exact (congrArg State.baud hd).trans hv.baud

theorem resetsBus_scan {i : Instr} (s : State) (hs : isScan i = true) :
    resetsBus i s = (s.point == .start || !s.lastDeviceFlag) := by
  cases i with
  | scan | ascan => rfl
  | _ => cases hs

/-- SEARCH, and SCAN in its loop. -/
theorem resetsBus_runsPass {i : Instr} {s : State} (h : RunsPass i s) : resetsBus i s = !s.lastDeviceFlag := by
  rcases h with rfl | ⟨alarm, rfl⟩ | ⟨hs, hp⟩
  · rfl
  · rfl
  · rw [resetsBus_scan s hs, hp]
    rfl

theorem exec_scan_rate {i : Instr} {s t : State} (hs : isScan i = true) (hl : s.live) (he : exec i s = .next t) :
    t.baud = rateAfter i s := by
  obtain ⟨alarm, rfl⟩ := exec_scan hs he
  unfold rateAfter
  rw [resetsBus_scan s hs]
  cases hp : s.point with
  | start =>
    obtain ⟨u, hu, hsu⟩ := tick_transmitted hl
    obtain ⟨o, v, n, hv, -, huv⟩ := searchPass_transmits (s := u.clear) alarm hsu.live
    exact (scanStep_baud ((scanPass_start alarm hp hu).trans hv) huv.live).trans huv.baud
  | scanLoop =>
    obtain ⟨o, v, n, hv, -, hsv⟩ := searchPass_transmits alarm hl
    exact (scanStep_baud ((scanPass_loop alarm hp).trans hv) hsv.live).trans hsv.baud

/-- `BAUD_SLOT` after a request with a bus reset, else the rate as it was. -/
theorem exec_rate {i : Instr} {s t : State} (hi : isRequest i = true) (hl : s.live) (he : exec i s = .next t) :
    t.baud = rateAfter i s := by
  cases hs : isScan i with
  | true => exact exec_scan_rate hs hl he
  | false => exact (exec_transmits hi hs hl he).1

/-- Settles O59: the requests with a bus reset end at the slot rate, the others have only slots. -/
theorem slotRateStays : Obligations.SlotRateStays := by
  intro i s t hi hl he
  have hrate := exec_rate hi hl he
  refine ⟨?_, fun hreset => ?_, fun hkeep => ?_⟩
  · rw [hrate, rateAfter]
    split
    · exact .inr rfl
    · exact .inl rfl
  · have h : resetsBus i s = true := by
      rcases hreset with rfl | rfl | rfl | ⟨r, rfl⟩ | ⟨hs, hp⟩ | ⟨hf, hs | hi⟩
      iterate 4 exact rfl
      · rw [resetsBus_scan s hs, hp]
        rfl
      · rw [resetsBus_scan s hs, hf]
        exact Bool.or_true _
      · rw [resetsBus_runsPass (hi.imp_right .inl), hf]
        rfl
    rw [hrate, rateAfter, if_pos h]
  · have h : resetsBus i s = false := by
      rcases hkeep with rfl | rfl | rfl | rfl | ⟨b, rfl⟩ | ⟨b, rfl⟩ | rfl | rfl | rfl |
        ⟨k, rfl⟩ | ⟨r, rfl⟩ | ⟨op, rfl⟩ | ⟨hf, hi⟩
      iterate 12 exact rfl
      rw [resetsBus_runsPass hi, hf]
      rfl
    rw [hrate, rateAfter, h]
    rfl

/-- Settles O60: the counts where the answer is OK; the commands that read the state or clear it put nothing on the channel. -/
theorem transmitCounts : Obligations.TransmitCounts := by
  intro i s t r hl he hr hok
  have key (hi : isRequest i = true) (hs : isScan i = false) := (exec_transmits hi hs hl he).2 r hr hok
  refine ⟨?_, ?_, ?_, ?_, ?_, ?_, ?_, fun hi => ?_⟩
  · rintro rfl
    exact key rfl rfl
  · rintro (rfl | ⟨b, rfl⟩) <;> exact key rfl rfl
  · rintro (rfl | ⟨b, rfl⟩) <;> exact key rfl rfl
  · rintro ⟨alarm, rfl⟩
    exact key rfl rfl
  · rintro ⟨rom, rfl⟩
    exact key rfl rfl
  · rintro rfl
    exact key rfl rfl
  · rintro rfl
    exact key rfl rfl
  · have hquiet : i = .clrstate ∨ i = .getstate ∨ i = .getscr ∨ (∃ k, i = .getdev k) ∨ (∃ r, i = .crc8 r) ∨
        ∃ op, i = .unassigned op := by tauto
    have hout := (commandsWithoutChannelEvents i s t hquiet he).1
    rw [← sent_outputs, hout, sent_outputs]

end Sys2Proof.Machine
end

section
/-! SUPPORT. Every instruction the decoder can give has a request word (spec/30_encoding.md R91 to R96). -/

namespace Sys2Proof

/-- Layers W and S alone have no request word. -/
theorem exists_encode_of_wellFormed {i : Instr} (h : i.wellFormed = true) : ∃ w, encode i = some w := by
  cases i with
  | wSearchRom | wAlarmSearch | wSkipRom | wReadRom | wMatchRom => cases h
  | sResetPulse | sProbe | sWrite0 | sWrite1 | sRead => cases h
  | _ => exact ⟨_, rfl⟩

/-- Settles O1: the decoder reads the request word back, and the ten bytes are that word. -/
theorem decodeEncodeRoundTrip : Obligations.DecodeEncodeRoundTrip := by
  intro i hi
  obtain ⟨w, hw⟩ := exists_encode_of_wellFormed hi
  have hd : decode w = i := decode_of_encode hi hw
  exact ⟨w, hw, hd, by rw [decodeTableWord_80, hd]⟩

end Sys2Proof
end

section
/-! SUPPORT. Until its last update an instruction answers nobody and leaves where the block stands: each request is answered once, a
row of layer W or S never (spec/10_state.md R34, spec/30_encoding.md R98, R100). -/

namespace Sys2Proof.Machine

/-- Nobody is answered, and the block stands where it stood. -/
structure Unanswered (s t : State) : Prop where
  cfg : t.cfg = s.cfg
  busy : t.busy = s.busy
  point : t.point = s.point
  response : responses t.trace = responses s.trace

theorem unanswered_steps : AtomicSteps Unanswered fun _ _ => True where
  refl _ := ⟨rfl, rfl, rfl, rfl⟩
  trans h1 h2 := ⟨h2.cfg.trans h1.cfg, h2.busy.trans h1.busy, h2.point.trans h1.point, h2.response.trans h1.response⟩
  killed_trans _ _ := trivial
  cfg h := h.cfg
  deposit _ _ := ⟨rfl, rfl, rfl, rfl⟩
  dropEcho _ := ⟨rfl, rfl, rfl, rfl⟩
  emptyFlight _ := ⟨rfl, rfl, rfl, rfl⟩
  setTape _ _ := ⟨rfl, rfl, rfl, rfl⟩
  draw _ := ⟨rfl, rfl, rfl, rfl⟩
  setBaud _ _ := ⟨rfl, rfl, rfl, rfl⟩
  transmit s x :=
    have h := same_transmit s x
    ⟨h.cfg, h.busy, h.point, transmit_responses s x⟩
  consume _ := ⟨rfl, rfl, rfl, rfl⟩
  hardReset _ := trivial

theorem unanswered_closePass (s : State) (w : Work) : Unanswered s (closePass w s).2 :=
  have h := closePass_closedOnly w s
  ⟨h.cfg, h.busy, h.point, congrArg responses h.trace⟩

theorem unanswered_passSteps : PassSteps (Along Unanswered fun _ _ => True) :=
  unanswered_steps.passSteps (fun _ _ _ _ => ⟨rfl, rfl, rfl, rfl⟩) (fun _ => ⟨rfl, rfl, rfl, rfl⟩) unanswered_closePass

/-- A request is answered once, or is SCAN and goes on. -/
theorem exec_responds_or_goesOn {i : Instr} {s t : State} (hi : isRequest i = true) (hl : s.live)
    (he : exec i s = .next t) : (∃ r, Responded s r t) ∨ (isScan i = true ∧ GoesOn s t) := by
  rcases request_cases unanswered_passSteps Along.timeout_ok (fun _ => Along.of_tape ⟨rfl, rfl, rfl, rfl⟩ rfl) hi he with
    ⟨v, r, ⟨hv, -⟩, rfl⟩ | ⟨hs, v, ⟨hv, -⟩, rfl⟩ | ⟨hdead, -⟩
  · exact .inl ⟨r, rfl, congrArg (r.word :: ·) hv.response⟩
  · exact .inr ⟨hs, hv.busy, rfl, hv.response⟩
  · exact absurd hl hdead

/-- Settles O9: only SCAN can hand over without a response. -/
theorem oneResponse : Obligations.OneResponse := by
  intro i s hi hinv hl
  obtain ⟨t, he⟩ := exec_next i hinv.count_le
  have hend := exec_responds_or_goesOn hi hl he
  constructor
  · intro hs
    rcases hend with ⟨r, hr⟩ | ⟨hscan, -⟩
    · exact ⟨t, r, he, hr⟩
    · rw [hs] at hscan
      cases hscan
  · exact fun _ => ⟨t, he, hend.imp_right And.right⟩

/-! ### The rows of layers W and S (log 9) -/

section
variable {i : Instr} {s t : State}

/-- A row, where every atomic step and the keeping of a slot's result keep `P`. -/
theorem exec_row {P K : State → State → Prop} (h : AtomicSteps P K) (hslot : ∀ s r, P s (s.setSlot r))
    (hi : isRequest i = false) (hl : s.live) (he : exec i s = .next t) : P s t := by
  rcases row_cases h.channelSteps Along.timeout_ok (fun s r => Along.of_tape (hslot s r) rfl) hi he with hv | hk
  · exact hv.1
  · exact absurd hl hk.1

/-- A ROM command byte is channel events and nothing else. -/
theorem exec_romByte_same (hi : i.layer = .romByte) (hl : s.live) (he : exec i s = .next t) : Same s t := by
  have hreq : isRequest i = false := by
    unfold isRequest
    rw [hi]
    rfl
  rw [exec_eq_part hreq] at he
  obtain rfl := Host.Outcome.next.inj he
  have hg := Ends.partOf_romByte channelOnly_steps s hi s
  unfold part
  cases hm : partOf s i s with
  | ok _ u =>
    rw [hm] at hg
    exact hg.1
  | error e u =>
    rw [hm] at hg
    cases e with
    | timeout => exact hg.1
    | killed => exact absurd hl hg.1

end

/-- Settles O19: what every atomic step of a row keeps; a ROM command byte keeps no slot result. -/
theorem layerRowsKeepTheBlock : Obligations.LayerRowsKeepTheBlock := by
  intro i s t hi hl he
  have hbus : SameBusState s t := exec_row sameBusState_steps (fun _ _ => by constructor <;> rfl) hi hl he
  have hun : Unanswered s t := exec_row unanswered_steps (fun _ _ => ⟨rfl, rfl, rfl, rfl⟩) hi hl he
  exact ⟨hbus, hun.busy, hun.point, hun.response, fun hrom => (exec_romByte_same hrom hl he).slot,
    fun a => by rw [hbus.store]⟩

end Sys2Proof.Machine
end

section
/-! SUPPORT. What the reset input does not reach: the rate, the slaves, and an echo in flight, which may still be deposited
(spec/70_reset_and_hazards.md R242). -/

namespace Sys2Proof.Machine

section
variable {s : State} {v : Byte} {vs : List Byte}

theorem depositOldest_of_cons (h : s.inFlight = v :: vs) : s.depositOldest = s.dropEcho.deposit v := by
  unfold State.depositOldest
  rw [h]

/-- The oldest echo arrives before the master's next step. -/
theorem tick_echo {l : List Move} (hf : s.inFlight = v :: vs) (ht : s.tape = .echo :: .master :: l) :
    tick s = .ok () ((s.dropEcho.deposit v).setTape l) := by
  unfold tick
  rw [ht, playTape, depositOldest_of_cons hf, playTape]

/-- An idle block to which nothing is presented takes the echo and holds. -/
theorem step_takes_echo {l : List Move} (hb : s.busy = false) (hp : s.pending = []) (hf : s.inFlight = v :: vs)
    (ht : s.tape = .echo :: .master :: l) : step s = .next ((s.dropEcho.deposit v).setTape l) := by
  rw [step_idle hb]
  unfold idleStep
  simp only [tick_echo hf ht, State.setTape_pending, State.deposit_pending, State.dropEcho_pending, hp]

end

/-- Settles O12: hardware reset keeps what is outside the block, and the idle block takes the late echo. -/
theorem resetReachesNothingElse : Obligations.ResetReachesNothingElse := by
  intro i s l hinv hi ht
  refine ⟨_, exec_reset_first hinv.count_le hi ht, rfl, rfl, rfl, rfl, rfl, fun v vs l' hf hl hp => ?_⟩
  refine ⟨_, step_takes_echo rfl hp hf hl, rfl, rfl, ?_⟩
  rw [State.setTape_inFlight, State.deposit_inFlight, State.dropEcho_inFlight, hf, List.tail_cons]

end Sys2Proof.Machine
end

section
/-! SUPPORT. SCAN from its pass: what it answers, what it leaves unchanged, and its pass to the last position
(spec/42_rom_search.md R178, R179). -/

namespace Sys2Proof.Machine

section
variable {alarm : Bool} {s t : State} {o : Outcome}

/-! ### A step of SCAN is its pass and what follows the outcome -/

theorem scanStep_goesOn (h : scanPass alarm s = .ok o t) (ho : scanResponse t.deviceCount o = none) :
    scanStep alarm s = t.setPoint .scanLoop := by
  unfold scanStep
  simp only [h, ho]

theorem scanStep_answers {r : Response} (h : scanPass alarm s = .ok o t) (ho : scanResponse t.deviceCount o = some r) :
    scanStep alarm s = deliver r t := by
  unfold scanStep
  simp only [h, ho]

theorem exec_ascan_of_scan (h : exec (.scan alarm) s = .next t) (ha : alarm = true) : exec .ascan s = .next t := by
  subst ha
  exact h

end

/-- Settles O42: the pass begins where the opening leaves it; two outcomes have no response. -/
theorem scanResponses : Obligations.ScanResponses := by
  intro s s' t alarm o hwhere hpass
  have hscan : scanPass alarm s = .ok o t := by
    rcases hwhere with ⟨hp, rfl⟩ | ⟨hp, u, hu, rfl⟩
    · rw [scanPass_loop alarm hp, hpass]
    · rw [scanPass_start alarm hp hu, hpass]
  show Host.Outcome.next (scanStep alarm s) = _
  cases o with
  | found | crcMismatch => rw [scanStep_goesOn hscan rfl]
  | tableFull | exhausted | noDevices | busError | timeout => rw [scanStep_answers hscan rfl]

/-! ### What SCAN leaves unchanged -/

theorem PassFrame.handsOver {s v t : State} (h : PassFrame s v) (ht : HandsOver v t) : PassFrame s t :=
  h.sameBusState ht.sameBusState (by cases ht <;> rfl)

/-- A pass from the cleared state leaves every byte above the first entry, and that entry where the count stays 0, as the clear
left it. -/
theorem PassFrame.read_of_clear {u t : State} (h : PassFrame u.clear t) (hwf : Memory.wf u.store = true) {a : Nat}
    (ha : 8 ≤ a) (hout : ¬ (t.deviceCount = 1 ∧ a < 16)) :
    readByteAt t.store a = if a < storeSize u.cfg then 0 else readByteAt u.store a := by
  have hkept : readByteAt t.store a = readByteAt u.clear.store a := h.bytes a fun hin => by
    rcases hin with hlow | ⟨hcount, -, hhi⟩
    · omega
    · exact hout ⟨hcount, hhi⟩
  rw [hkept, State.clear_store, read_clearStore u.cfg u.store hwf]

/-- Settles O21: at the head of the loop the frame of the pass, at the start the same from the cleared state. -/
theorem scanFrame : Obligations.ScanFrame := by
  intro i s t hi hwf hl he
  cases hp : s.point with
  | scanLoop =>
    obtain ⟨v, hv, hvt⟩ :=
      exec_pass passFrame_followed (fun alarm => searchPass_frame alarm s) (.inr (.inr ⟨hi, hp⟩)) hl he
    obtain ⟨hcfg, hreq, hpending, hslot, hbytes⟩ := hv.handsOver hvt
    exact ⟨hcfg, hreq, hpending, hslot, fun _ a ha hout => hbytes a (not_or.mpr ⟨Nat.not_lt.mpr ha, hout⟩), nofun⟩
  | start =>
    obtain ⟨u, v, hu, hv, hvt⟩ := exec_scan_start passFrame_followed searchPass_frame hi hp hl he
    have hframe := hv.handsOver hvt
    refine ⟨hframe.cfg.trans hu.cfg, hframe.req.trans hu.req, hframe.pending.trans hu.pending,
      hframe.slot.trans hu.slot, nofun, fun _ a ha hout => ?_⟩
    rw [hframe.read_of_clear (by rw [hu.store]; exact hwf) ha hout, hu.cfg, hu.store]

/-! ### A pass to the last position -/

theorem passEffect_setPoint {s t : State} {r : Rom} {as : Nat → Bool × Bool} (h : PassEffect s r as t) (p : Point) :
    PassEffect s r as (t.setPoint p) := { h with }

section
variable {s : State} {d1 d2 : Draw} {ds : List Draw} {xs : List PositionDraws} {rest : List Move} {r : Rom}

/-- A pass over 64 positions whose waits the tape decides: its outcome and effect, the rest of the tape, and nobody answered. -/
theorem searchPass_draws (alarm : Bool) (hf : s.lastDeviceFlag = false) (hwf : Memory.wf s.store = true)
    (h1 : d1.admits s.cfg.readTimeout) (h2 : d2.admits s.cfg.readTimeout) (hp : resetResult s.cfg d1 d2 = some true)
    (hl : ds.length = 8) (hd : ∀ d ∈ ds, d.admits s.cfg.readTimeout) (hn : xs.length = 64)
    (hx : ∀ x ∈ xs, x.admits s.cfg.readTimeout ∧ x.reads ≠ (true, true))
    (hr : ∀ p < 64, r.getLsbD p = s.chosen p (readsOf xs p))
    (h : s.tape = passMoves s.cfg.readTimeout d1 d2 ds xs ++ rest) :
    ∃ t, searchPass alarm s = .ok (passOutcome s r) t ∧ PassEffect s r (readsOf xs) t ∧ t.tape = rest ∧
      Unanswered s t := by
  obtain ⟨w, u, hb, hP, hS⟩ := passBody_firstPositions alarm hf hwf h1 h2 hp hl hd (Nat.le_of_eq hn) hx
    (fun p hlt => hr p (hn ▸ hlt)) h
  rw [hn] at hb hP hS
  obtain ⟨ho, heff⟩ := closePass_of_progress hP
  have hk := closePass_closedOnly w u
  refine ⟨(closePass w u).2, ?_, heff, ?_, ?_⟩
  · rw [← ho]
    unfold searchPass
    rw [hb]
    rfl
  · rw [hk.tape, hS.tape, ← hn, List.drop_length]
    rfl
  · exact ⟨hk.cfg.trans hP.same.cfg, hk.busy.trans hP.same.busy, hk.point.trans hP.same.point, by
      rw [hk.trace, hS.response]⟩

end

/-- A pass whose code does not overflow the table has an outcome SCAN does not answer. -/
theorem scanResponse_passOutcome_none {s : State} {r : Rom} (n : Byte)
    (h : ¬ (romValid r = true ∧ s.cfg.maxDevices ≤ s.deviceCount.toNat)) : scanResponse n (passOutcome s r) = none := by
  unfold passOutcome
  by_cases hv : romValid r = true
  · rw [if_pos hv, if_pos (Nat.lt_of_not_le fun hfull => h ⟨hv, hfull⟩)]
    rfl
  · rw [if_neg hv]
    rfl

/-- Settles O43: the pass over draws, then TABLE_FULL or the head of the loop; and the exhausted enumeration. -/
theorem scanPass_holds : Obligations.ScanPass := by
  refine ⟨fun s alarm r d1 d2 ds xs rest hpt hf hwf h1 h2 hp hl hd hn hx hr ht => ?_, fun s i rest hi hpt hf ht => ?_⟩
  · obtain ⟨t, hpass, heff, htape, hun⟩ := searchPass_draws alarm hf hwf h1 h2 hp hl hd hn hx hr ht
    have hscan := (scanPass_loop alarm hpt).trans hpass
    by_cases hfull : romValid r = true ∧ s.cfg.maxDevices ≤ s.deviceCount.toNat
    · obtain ⟨hv, hle⟩ := hfull
      have hcount : t.deviceCount = s.deviceCount := by
        rw [heff.deviceCount, if_neg fun h => Nat.not_le_of_lt h.2 hle]
      have ho : scanResponse t.deviceCount (passOutcome s r) = some ⟨.tableFull, s.deviceCount, r⟩ := by
        rw [passOutcome, if_pos hv, if_neg (Nat.not_lt.mpr hle), hcount]
        rfl
      have he : exec (.scan alarm) s = .next ((t.setTape rest).respond ⟨.tableFull, s.deviceCount, r⟩) :=
        congrArg Host.Outcome.next ((scanStep_answers hscan ho).trans (deliver_master _ htape))
      refine ⟨_, he, exec_ascan_of_scan he, passEffect_respond (passEffect_same (same_setTape _ _) heff), ?_⟩
      rw [if_pos ⟨hv, hle⟩]
      exact ⟨rfl, congrArg (_ :: ·) hun.response⟩
    · have he : exec (.scan alarm) s = .next (t.setPoint .scanLoop) :=
        congrArg Host.Outcome.next (scanStep_goesOn hscan (scanResponse_passOutcome_none _ hfull))
      refine ⟨_, he, exec_ascan_of_scan he, passEffect_setPoint heff _, ?_⟩
      rw [if_neg hfull]
      exact ⟨hun.busy, rfl, hun.response⟩
  · obtain ⟨alarm, he⟩ := exec_scan_next s hi
    have hscan := (scanPass_loop alarm hpt).trans (searchPass_exhausted alarm hf)
    rw [he, scanStep_answers hscan rfl, deliver_answeredWith _ ht]

end Sys2Proof.Machine
end

section
/-! SUPPORT. What is ever transmitted, in any environment and however a computation ends (spec/30_encoding.md R100). -/

namespace Sys2Proof.Machine

/-- From `s` to `t` the master has sent symbol bytes only. -/
structure SendsSymbols (s t : State) : Prop where
  cfg : t.cfg = s.cfg
  bytes : ∃ new, sent t.trace = new ++ sent s.trace ∧ ∀ b ∈ new, b ∈ symbolBytes s.cfg

/-- `SendsSymbols`, however the computation ends. -/
def SymbolsOnly (s : State) (_ : Option Stop) (t : State) : Prop := SendsSymbols s t

theorem SendsSymbols.of_sent_eq {s t : State} (hc : t.cfg = s.cfg) (h : sent t.trace = sent s.trace) : SendsSymbols s t :=
  ⟨hc, [], h, fun _ hb => absurd hb List.not_mem_nil⟩

theorem SendsSymbols.trans {s t u : State} (h1 : SendsSymbols s t) (h2 : SendsSymbols t u) : SendsSymbols s u := by
  obtain ⟨c1, new1, e1, m1⟩ := h1
  obtain ⟨c2, new2, e2, m2⟩ := h2
  rw [c1] at m2
  exact ⟨c2.trans c1, new2 ++ new1, by rw [e2, e1, List.append_assoc],
    fun b hb => (List.mem_append.mp hb).elim (m2 b) (m1 b)⟩

theorem SendsSymbols.transmit (s : State) {x : Sent} (hx : x.byte ∈ symbolBytes s.cfg) : SendsSymbols s (s.transmit x) :=
  ⟨transmit_cfg s x, [x.byte], by rw [transmit_trace]; rfl, fun _ hb => List.mem_singleton.mp hb ▸ hx⟩

/-- What is sent is decided by what is output. -/
theorem ChannelSilent.sent_eq {s t : State} (h : ChannelSilent s t) : sent t.trace = sent s.trace := by
  rw [← sent_outputs, h.outputs, sent_outputs]

/-- The others' moves, the reset input among them, change no parameter. -/
theorem tick_cfg : Ends (fun s _ t => t.cfg = s.cfg) tick := by
  intro s
  have hc := tick_channelOnly s
  cases ht : tick s with
  | ok _ t =>
    rw [ht] at hc
    exact hc.1.cfg
  | error e t =>
    rw [ht] at hc
    cases e with
    | timeout => exact absurd ht tick_not_timeout
    | killed =>
      obtain ⟨-, u, hu, -, rfl⟩ := hc
      exact hu.cfg

theorem tick_symbolsOnly : Ends SymbolsOnly tick := by
  intro s
  have hc := tick_cfg s
  have hs := tick_silently s
  cases ht : tick s with
  | ok _ t =>
    rw [ht] at hc hs
    exact .of_sent_eq hc hs.sent_eq
  | error e t =>
    rw [ht] at hc hs
    exact .of_sent_eq hc hs.sent_eq

theorem symbolsOnly_passSteps : PassSteps SymbolsOnly where
  refl _ := .of_sent_eq rfl rfl
  timeout _ := .of_sent_eq rfl rfl
  trans h1 h2 := h1.trans h2
  tick := tick_symbolsOnly
  baud _ _ := .of_sent_eq rfl rfl
  transmit s _ hx := .transmit s hx
  consume _ := .of_sent_eq rfl rfl
  cfg h := h.cfg
  store _ _ _ _ := .of_sent_eq rfl rfl
  noDevices _ := .of_sent_eq rfl rfl
  close s w :=
    have h := closePass_closedOnly w s
    .of_sent_eq h.cfg (congrArg sent h.trace)

/-- Whatever the instruction, the state and the environment. -/
theorem exec_sendsSymbols {i : Instr} {s t : State} (he : exec i s = .next t) : SendsSymbols s t := by
  cases hi : isRequest i with
  | true =>
    rcases request_cases symbolsOnly_passSteps (fun _ _ h => h) (fun _ => .of_sent_eq rfl rfl) hi he with
      ⟨v, r, hv, rfl⟩ | ⟨-, v, hv, rfl⟩ | hk
    · exact SendsSymbols.trans hv (.of_sent_eq rfl rfl)
    · exact SendsSymbols.trans hv (.of_sent_eq rfl rfl)
    · exact hk
  | false =>
    exact (row_cases symbolsOnly_passSteps.toChannelSteps (fun _ _ h => h) (fun _ _ => .of_sent_eq rfl rfl) hi he).elim id id

/-- Settles O58: the master transmits by `Xfer` alone, whose bytes are these four. -/
theorem onlySlotSymbolsAreSent : Obligations.OnlySlotSymbolsAreSent := by
  intro i s t he
  obtain ⟨-, new, hnew, hb⟩ := exec_sendsSymbols he
  refine ⟨new, hnew, fun b hmem => ?_⟩
  simpa [symbolBytes] using hb b hmem

end Sys2Proof.Machine
end
